-- ==== Sys2Proof/Word.lean ====
section
/-! DEFINITION. The word types of the block (00_scope.md R9): bytes, the 16-bit length, 32-bit counts and SHA-1 words,
the 64-bit SHA-1 length and the 72-bit command word. Every quantity is unsigned (R11). -/

namespace Sys2Proof

/-- A byte, `BYTE_W` = 8 bits (R8). -/
abbrev Byte := BitVec 8

/-- A 16-bit length, the extended payload length of a frame (R9). -/
abbrev W16 := BitVec 16

/-- A 32-bit count or SHA-1 word (R9), `LEN_W` = 32 (R8). -/
abbrev W32 := BitVec 32

/-- A 64-bit SHA-1 length (R9). -/
abbrev W64 := BitVec 64

/-- A command word, `CMD_W` = 72 bits (R8, R70). -/
abbrev W72 := BitVec 72

end Sys2Proof
end

