-- ==== Sys2Proof/Config.lean ====
section
/-! DEFINITION. The fixed parameters of 00_scope.md R8 that are plain numbers. The one OPEN parameter, `STRICT_HDR`, is
a field of State (DESIGN CHOICE, log 5, safe). The tables (GUID, SHA-1 constants, base64 alphabet) stand with the unit
that uses them. No value of this hardware is left free, so there is no opaque constant here. -/

namespace Sys2Proof.Config

/-- `LEN7_MAX`, the largest payload length of the 7-bit form (R8). -/
abbrev len7Max : Nat := 125

/-- `IND16`, the length indicator of the 16-bit form (R8). -/
abbrev ind16 : Nat := 126

/-- `IND64`, the length indicator of the 64-bit form (R8). -/
abbrev ind64 : Nat := 127

/-- `PLEN_MAX` = 2^16 - 1, the largest payload length (R8, conflict C1). -/
abbrev plenMax : Nat := 65535

/-- The first byte of a text frame: `FIN_BIT` or `OPC_TEXT`, 0x80 | 0x01 (R8). -/
abbrev textByte0 : Byte := 0x81

/-- `DIGEST_LEN` = 20 bytes (R8). -/
abbrev digestLen : Nat := 20

/-- `TOKEN_OUT_LEN` = 28 bytes (R8). -/
abbrev tokenOutLen : Nat := 28

end Sys2Proof.Config
end

