-- ==== Sys2Proof/Syntax.lean ====
section
/-! DEFINITION. The instructions: one constructor per row of spec/opcode_table.json. The first seven are command words
of format CMD (30_encoding.md R70 to R73); the last six are the frame header forms, the variable-length encodings the
parser reads and the encoder writes (R76 to R80). `UNMASK` is `MASK`, word for word (R75). -/

namespace Sys2Proof

/-- One instruction. A command carries its whole word: the fields a command ignores may hold anything (R72), `LEN` is
latched by every command (R24), and no bit of the encoding is dropped. -/
inductive Instr where
  /-- `DECODE`, `OP` = 0x01; `LEN` and `KEY` ignored (R71, R101). -/
  | decode (len key : W32)
  /-- `ENCODE n`, `OP` = 0x02; `LEN` = n, `KEY` ignored (R71, R131). -/
  | encode (len key : W32)
  /-- `MASK n, k0 k1 k2 k3`, `OP` = 0x03 (R71, R151). -/
  | mask (len key : W32)
  /-- `SHA1 n`, `OP` = 0x04; `KEY` ignored (R71, R161). -/
  | sha1 (len key : W32)
  /-- `B64 n`, `OP` = 0x05; `KEY` ignored (R71, R191). -/
  | b64 (len key : W32)
  /-- `ACCEPT n`, `OP` = 0x06; `KEY` ignored (R71, R206). -/
  | accept (len key : W32)
  /-- The illegal command words, `OP` = 0x00 or 0x07..0xFF (R73, R225). -/
  | illegal (op : Byte) (len key : W32)
  /-- `FRAME.IN.7BIT`: byte 0, then 0x80 or `IND` with `IND` at most 125 (R79). -/
  | frameIn7 (hdr0 : Byte) (ind : BitVec 7)
  /-- `FRAME.IN.16BIT`: byte 0, 0xFE, then the big-endian payload length (R79, R81). -/
  | frameIn16 (hdr0 : Byte) (plen : W16)
  /-- `FRAME.IN.64BIT`: byte 0, 0xFF (R78, R108). -/
  | frameIn64 (hdr0 : Byte)
  /-- `FRAME.IN.UNMASKED`: byte 0, then a byte with bit 7 clear (R107). -/
  | frameInUnmasked (hdr0 : Byte) (ind : BitVec 7)
  /-- `FRAME.OUT.7BIT`: 0x81, n with n at most 125 (R80, R133). -/
  | frameOut7 (n : BitVec 7)
  /-- `FRAME.OUT.16BIT`: 0x81, 0x7E, n big-endian with n in 126..65535 (R80, R134). -/
  | frameOut16 (n : W16)
deriving DecidableEq, Repr

end Sys2Proof
end

