-- ==== Sys2Proof/WellFormed.lean ====
section
/-! DEFINITION. Which terms of Instr are encodings the spec has: the ranges that spec/opcode_table.json gives beside a
row's match and mask. -/

namespace Sys2Proof

/-- The opcode field of an illegal command word: 0x00 or 0x07..0xFF (30_encoding.md R73). -/
def illegalOp (op : Byte) : Bool := op == 0 || 7 ≤ op.toNat

/-- The well-formedness of an instruction: an illegal word's opcode is illegal (R73), a 7-bit length is at most 125
(R78, R80), an outbound 16-bit length is at least 126 (R80, R83). -/
def WellFormed : Instr → Bool
  | .decode _ _ => true
  | .encode _ _ => true
  | .mask _ _ => true
  | .sha1 _ _ => true
  | .b64 _ _ => true
  | .accept _ _ => true
  | .illegal op _ _ => illegalOp op
  | .frameIn7 _ ind => ind.toNat ≤ Config.len7Max
  | .frameIn16 _ _ => true
  | .frameIn64 _ => true
  | .frameInUnmasked _ _ => true
  | .frameOut7 n => n.toNat ≤ Config.len7Max
  | .frameOut16 n => Config.ind16 ≤ n.toNat

end Sys2Proof
end

