-- ==== Sys2Proof/Decode.lean ====
section
/-! DEFINITION. The decoder and the encoder, both written from 30_encoding.md: command words (R70 to R74), inbound frame
headers (R76, R78, R79, R82) and outbound frame headers (R80, R83). Decoding is total; what is no encoding is rejected
by name. -/

namespace Sys2Proof

/-- `be16(h, l) = 256 h + l`, the high byte first on the wire (00_scope.md R11, 20_memory.md R55, 30_encoding.md R81). -/
def be16 (h l : Byte) : W16 := h ++ l

/-- Bits 15:8 of a 16-bit length (R80). -/
def hi8 (n : W16) : Byte := n.extractLsb' 8 8

/-- Bits 7:0 of a 16-bit length (R80). -/
def lo8 (n : W16) : Byte := n.extractLsb' 0 8

/-- Field `OP` of a command word, bits 71:64 (R70). -/
def cmdOp (w : W72) : Byte := w.extractLsb' 64 8

/-- Field `LEN` of a command word, bits 63:32 (R70). -/
def cmdLen (w : W72) : W32 := w.extractLsb' 32 32

/-- Field `KEY` of a command word, bits 31:0 (R70). -/
def cmdKey (w : W72) : W32 := w.extractLsb' 0 32

/-- A command word from its three fields (R70). -/
def cmdWord (op : Byte) (len key : W32) : W72 := op ++ len ++ key

/-- The command a 72-bit word stands for: the table of R71, every other opcode being illegal (R73). Total. -/
def decodeWord (w : W72) : Instr :=
  if cmdOp w = 0x01 then .decode (cmdLen w) (cmdKey w)
  else if cmdOp w = 0x02 then .encode (cmdLen w) (cmdKey w)
  else if cmdOp w = 0x03 then .mask (cmdLen w) (cmdKey w)
  else if cmdOp w = 0x04 then .sha1 (cmdLen w) (cmdKey w)
  else if cmdOp w = 0x05 then .b64 (cmdLen w) (cmdKey w)
  else if cmdOp w = 0x06 then .accept (cmdLen w) (cmdKey w)
  else .illegal (cmdOp w) (cmdLen w) (cmdKey w)

/-- Field `MASK` of frame byte 1, bit 7 (R76). -/
def maskBit (b1 : Byte) : Bool := b1.getLsbD 7

/-- Field `IND` of frame byte 1, bits 6:0 (R76, R82). -/
def indOf (b1 : Byte) : BitVec 7 := b1.extractLsb' 0 7

/-- What the second byte of an inbound frame says, in the order of the tests of 40_frame_parser.md R103: the mask bit,
then the indicator against 125 and 126, then what is left, 127. -/
inductive InForm where
  /-- `MASK` = 0 (R107). -/
  | unmasked (ind : BitVec 7)
  /-- `IND` at most 125 (R106). -/
  | short (ind : BitVec 7)
  /-- `IND` = 126: two length bytes follow (R106). -/
  | ext16
  /-- `IND` = 127 (R108). -/
  | ext64
deriving DecidableEq, Repr

/-- The form that byte 1 selects (R103, R106 to R108). -/
def inForm (b1 : Byte) : InForm :=
  if maskBit b1 = false then .unmasked (indOf b1)
  else if (indOf b1).toNat ≤ Config.len7Max then .short (indOf b1)
  else if (indOf b1).toNat = Config.ind16 then .ext16
  else .ext64

/-- Why a decoder gives no instruction. -/
inductive DecodeError where
  /-- The header is not complete: more bytes are needed (R79). -/
  | needMore
  /-- Byte 0 of an outbound frame is not 0x81, which no encoder output is (R80, R132). -/
  | notTextFrame
  /-- Byte 1 of an outbound frame has the mask bit or the indicator 127, which no encoder output has (R80, R83). -/
  | notServerLength
deriving DecidableEq, Repr

/-- A decoder's answer: an instruction and the bytes after it, or the reason there is none. -/
inductive Decoded where
  | ok (i : Instr) (rest : List Byte)
  | reject (e : DecodeError)
deriving DecidableEq, Repr

/-- The inbound header at the head of a byte sequence (R79): two bytes, or four in the 16-bit form. The 64-bit and the
unmasked forms end after byte 1, where the parser faults (R107, R108). -/
def decodeInbound : List Byte → Decoded
  | b0 :: b1 :: rest =>
    match inForm b1 with
    | .unmasked ind => .ok (.frameInUnmasked b0 ind) rest
    | .short ind => .ok (.frameIn7 b0 ind) rest
    | .ext64 => .ok (.frameIn64 b0) rest
    | .ext16 =>
      match rest with
      | h :: l :: rest' => .ok (.frameIn16 b0 (be16 h l)) rest'
      | _ => .reject .needMore
  | _ => .reject .needMore

/-- The outbound header at the head of a byte sequence (R80). The block itself never decodes one: this reads the two
outbound rows of the table by their match and mask, and WellFormed holds their range 126..65535
(DESIGN CHOICE, log 11, safe). -/
def decodeOutbound : List Byte → Decoded
  | b0 :: b1 :: rest =>
    if b0 ≠ Config.textByte0 then .reject .notTextFrame
    else if b1.toNat ≤ Config.len7Max then .ok (.frameOut7 (indOf b1)) rest
    else if b1.toNat = Config.ind16 then
      match rest with
      | h :: l :: rest' => .ok (.frameOut16 (be16 h l)) rest'
      | _ => .reject .needMore
    else .reject .notServerLength
  | _ => .reject .needMore

/-- Where encoded instructions stand: a word on the command channel, bytes on `RX`, or bytes on `TX`. The three do not
share a numbering: which one is read says which rows of the table can match. -/
inductive Code where
  | word (w : W72)
  | inbound (bs : List Byte)
  | outbound (bs : List Byte)
deriving DecidableEq, Repr

/-- The decoder, total on any word and any bytes. -/
def decode : Code → Decoded
  | .word w => .ok (decodeWord w) []
  | .inbound bs => decodeInbound bs
  | .outbound bs => decodeOutbound bs

/-- The encoder, from the same tables: R70, R71 for the commands, R79 and R80 for the frame headers. -/
def encode : Instr → Code
  | .decode len key => .word (cmdWord 0x01 len key)
  | .encode len key => .word (cmdWord 0x02 len key)
  | .mask len key => .word (cmdWord 0x03 len key)
  | .sha1 len key => .word (cmdWord 0x04 len key)
  | .b64 len key => .word (cmdWord 0x05 len key)
  | .accept len key => .word (cmdWord 0x06 len key)
  | .illegal op len key => .word (cmdWord op len key)
  | .frameIn7 hdr0 ind => .inbound [hdr0, 1#1 ++ ind]
  | .frameIn16 hdr0 plen => .inbound [hdr0, 0xFE, hi8 plen, lo8 plen]
  | .frameIn64 hdr0 => .inbound [hdr0, 0xFF]
  | .frameInUnmasked hdr0 ind => .inbound [hdr0, 0#1 ++ ind]
  | .frameOut7 n => .outbound [Config.textByte0, 0#1 ++ n]
  | .frameOut16 n => .outbound [Config.textByte0, 0x7E, hi8 n, lo8 n]

/-- The bytes of a table word of `nbytes` bytes, in wire order. The table numbers a frame row as one number whose most
significant byte is byte 0 of the frame. -/
def tableBytes : Nat → Nat → List Byte
  | 0, _ => []
  | nbytes + 1, w => BitVec.ofNat 8 (w / 256 ^ nbytes) :: tableBytes nbytes w

/-- The instruction of a decoder's answer. -/
def Decoded.instr? : Decoded → Option Instr
  | .ok i _ => some i
  | .reject _ => none

/-- The decoder on a word of spec/opcode_table.json, `nbits` wide: 72 bits are a command word; fewer are a frame header,
two zero bytes standing for length bytes the row does not number. The table's numbering does not say whether a header
is inbound or outbound; where both could match (0x81 then a byte below 0x80) the outbound row, which fixes more bits,
is taken (DESIGN CHOICE, log 11, safe). -/
def decodeTableWord (nbits w : Nat) : Option Instr :=
  if nbits = 72 then some (decodeWord (BitVec.ofNat 72 w))
  else if nbits = 16 ∨ nbits = 24 ∨ nbits = 32 then
    match (decodeOutbound (tableBytes (nbits / 8) w ++ [0, 0])).instr? with
    | some i => some i
    | none => (decodeInbound (tableBytes (nbits / 8) w ++ [0, 0])).instr?
  else none

end Sys2Proof
end

