-- ==== Sys2Proof/Machine/State.lean ====
section
/-! DEFINITION. The state of the machine as plain data: every register of 10_state.md, the four ports, the command
channel, and the turns that remain. There is no memory and no program counter (R22, R50). -/

namespace Sys2Proof.Machine

/-- `STATE` (R23). The value 3 never occurs, so it is not representable (93_implementation_defined.md U12). -/
inductive Seq where
  | idle
  | busy
  | fault
deriving DecidableEq, Repr

/-- The contents of `ERR` (R32, 60_exceptions.md R220). Codes 6 to 255 never occur. -/
inductive Err where
  /-- 0: no fault since reset. -/
  | none
  /-- 1: the payload length needs the 64-bit marker; raised by `DECODE` and `ENCODE` (R221). -/
  | eSize
  /-- 2: an input port is empty and closed when a byte is needed (R222). -/
  | eShort
  /-- 3: the frame's `MASK` bit is 0; raised by `DECODE` (R223). -/
  | eUnmasked
  /-- 4: byte 0 is not 0x81 under `STRICT_HDR`; raised by `DECODE` (R224). -/
  | eHdr
  /-- 5: the opcode is not in 0x01..0x06 (R225). -/
  | eIllegalOp
deriving DecidableEq, Repr

/-- `PHASE` (R26). Codes 22 to 31 never occur. -/
inductive Phase where
  | pIdle
  | dHdr0 | dHdr1 | dExt0 | dExt1 | dKey0 | dKey1 | dKey2 | dKey3 | dPay
  | eHdr | ePay
  | mPay
  | sAbs | sFin | sOut
  | bAbs | bFin
  | aTok | aGuid | aFin | aOut
deriving DecidableEq, Repr

/-- `KEY[0..3]`, one register of four bytes (R30). -/
structure Key where
  k0 : Byte
  k1 : Byte
  k2 : Byte
  k3 : Byte
deriving DecidableEq, Repr

/-- `H[0..4]`, the five chaining words (R34). -/
structure Chain where
  h0 : W32
  h1 : W32
  h2 : W32
  h3 : W32
  h4 : W32
deriving DecidableEq, Repr

/-- The SHA-1 unit's registers (R34): `H`, `BLK`, `BFILL` (7 bits), `MLEN` (64 bits). -/
structure ShaUnit where
  h     : Chain
  blk   : Vector Byte 64
  bfill : BitVec 7
  mlen  : W64
deriving DecidableEq, Repr

/-- The base64 unit's registers (R35): `G[0..2]` and `GFILL` (2 bits). -/
structure B64Unit where
  g0    : Byte
  g1    : Byte
  g2    : Byte
  gfill : BitVec 2
deriving DecidableEq, Repr

/-- An input port, `RX` or `HIN`: a queue, head first, and the sticky `closed` level (R38, R52). -/
structure InPort where
  queue  : List Byte
  closed : Bool
deriving DecidableEq, Repr

/-- Whose turn it is, and what an agent other than the block does in its turn: the interactions of the host table
(00_scope.md R19), one constructor each. -/
inductive Move where
  /-- The block's own turn. -/
  | block
  /-- The host presents a command word on the command channel. -/
  | issue (w : W72)
  /-- The host appends a byte to `HIN`. -/
  | pushHin (b : Byte)
  /-- The host closes `HIN`. -/
  | closeHin
  /-- The host removes a byte from the head of `HOUT`. -/
  | popHout
  /-- The peer appends a byte to `RX`. -/
  | pushRx (b : Byte)
  /-- The peer closes `RX`. -/
  | closeRx
  /-- The peer removes a byte from the head of `TX`. -/
  | popTx
  /-- The host reads the status register of this index. -/
  | readStatus (index : BitVec 4)
  /-- The host asserts reset while the strap `STRICT_HDR` stands at this level. -/
  | reset (strap : Bool)
deriving DecidableEq, Repr

/-- Why a step stops. -/
inductive Fault where
  /-- The sequencer is `BUSY` in a phase that is no phase of the running command. Raised by every command's meaning. R26
  gives each command its phases, so no run reaches such a state and the spec gives it no step. Safe: the model stops
  (DEDUCED, log 9). -/
  | brokenPhase
deriving DecidableEq, Repr

/-- Why an instruction is refused. -/
inductive Refusal where
  /-- The instruction has no meaning yet; raised by an arm of exec only, and at present by none. Safe. -/
  | notModelled (mnemonic : String)
deriving DecidableEq, Repr

/-- The whole machine. -/
structure State where
  /-- `STATE` (R21 index 0). -/
  state     : Seq
  /-- `ERR` (index 1). -/
  err       : Err
  /-- `OP` (index 2, R33). -/
  op        : Byte
  /-- `LEN` (index 3, R31). -/
  len       : W32
  /-- `KEY[0..3]` (index 4, R30). -/
  key       : Key
  /-- `PHASE` (index 5, R26). -/
  phase     : Phase
  /-- `IDX` (index 6, R27). -/
  idx       : W32
  /-- `OCNT` (index 7, R28). -/
  ocnt      : W32
  /-- `HDR0` (index 8, R29). -/
  hdr0      : Byte
  /-- `HDR1` (index 9, R29). -/
  hdr1      : Byte
  /-- `PLEN` (index 10, R29). -/
  plen      : W16
  /-- `H`, `BLK`, `BFILL`, `MLEN` (R34). -/
  sha       : ShaUnit
  /-- `G`, `GFILL` (R35). -/
  b64       : B64Unit
  /-- `STRICT_HDR`, sampled at reset (R39). -/
  strictHdr : Bool
  /-- `RX`, from the peer (R38, R51). -/
  rx        : InPort
  /-- `HIN`, from the host (R38, R51). -/
  hin       : InPort
  /-- `TX`, to the peer, head first (R38, R51). -/
  tx        : List Byte
  /-- `HOUT`, to the host, head first (R38, R51). -/
  hout      : List Byte
  /-- The command words presented and not yet taken, oldest first (R24, R257; DESIGN CHOICE, log 3). -/
  cmds      : List W72
  /-- The model's own: the turns that remain, next first; when it is empty every turn is the block's
  (DESIGN CHOICE, log 2, safe). -/
  sched     : List Move
deriving DecidableEq, Repr

/-- What one instruction or one step answers. -/
abbrev Result := Host.Outcome State Fault Refusal

/-- The SHA-1 unit at reset. R43 leaves it unspecified: zeros (DESIGN CHOICE, log 4, unsafe). -/
def ShaUnit.atReset : ShaUnit :=
  { h := { h0 := 0, h1 := 0, h2 := 0, h3 := 0, h4 := 0 }, blk := Vector.replicate 64 0, bfill := 0, mlen := 0 }

/-- The base64 unit at reset. R43 leaves it unspecified: zeros (DESIGN CHOICE, log 4, unsafe). -/
def B64Unit.atReset : B64Unit := { g0 := 0, g1 := 0, g2 := 0, gfill := 0 }

/-- The machine right after reset: the table of R43. The ports are not changed by reset and belong to the environment;
here they are empty and open (DESIGN CHOICE, log 6, unsafe), the channel is empty (log 3), the strap is at the default
of R8 (log 5) and no turn is scheduled (log 2). -/
def State.reset : State :=
  { state := .idle, err := .none, op := 0, len := 0, key := { k0 := 0, k1 := 0, k2 := 0, k3 := 0 },
    phase := .pIdle, idx := 0, ocnt := 0, hdr0 := 0, hdr1 := 0, plen := 0,
    sha := ShaUnit.atReset, b64 := B64Unit.atReset, strictHdr := false,
    rx := { queue := [], closed := false }, hin := { queue := [], closed := false },
    tx := [], hout := [], cmds := [], sched := [] }

end Sys2Proof.Machine
end

