-- ==== Sys2Proof/Machine/Ops.lean ====
section
/-! DEFINITION. The named operations of 00_scope.md R13 over registers and ports: `raise` (the one exception mechanism,
60_exceptions.md R226; there is no return from it, R231, only reset), `In`, `Out`, `complete`, reset, and the moves of
the host and the peer. -/

namespace Sys2Proof.Machine

/-- `raise E`: `ERR <- code(E); STATE <- FAULT`, and nothing else (R226). -/
def raise (e : Err) (s : State) : State := { s with err := e, state := .fault }

/-- `complete`: `STATE <- IDLE; PHASE <- P_IDLE` (R25). -/
def complete (s : State) : State := { s with state := .idle, phase := .pIdle }

/-- `RX` after its head byte is taken, `rest` remaining (R53: the byte leaves the queue). -/
def leaveRx (rest : List Byte) (s : State) : State := { s with rx := { s.rx with queue := rest } }

/-- `HIN` after its head byte is taken, `rest` remaining (R53). -/
def leaveHin (rest : List Byte) (s : State) : State := { s with hin := { s.hin with queue := rest } }

/-- `In(RX)` (20_memory.md R53), the rest of the step given as `k`: the head byte if there is one, else `E_SHORT` on a
closed port, else hold, which changes nothing. -/
def takeRx (s : State) (k : Byte → State → Result) : Result :=
  match s.rx.queue with
  | b :: rest => k b (leaveRx rest s)
  | [] => if s.rx.closed then .next (raise .eShort s) else .next s

/-- `In(HIN)` (R53), as `takeRx`. -/
def takeHin (s : State) (k : Byte → State → Result) : Result :=
  match s.hin.queue with
  | b :: rest => k b (leaveHin rest s)
  | [] => if s.hin.closed then .next (raise .eShort s) else .next s

/-- `Out(TX, b)`: append at the tail, `OCNT + 1` modulo 2^32 (R54). -/
def outTx (b : Byte) (s : State) : State := { s with tx := s.tx ++ [b], ocnt := s.ocnt + 1 }

/-- `Out(HOUT, b)` (R54). -/
def outHout (b : Byte) (s : State) : State := { s with hout := s.hout ++ [b], ocnt := s.ocnt + 1 }

/-- A run of `Out(HOUT, b)`, one after another in the order of the list (R63). -/
def outsHout : List Byte → State → State
  | [], s => s
  | b :: bs, s => outsHout bs (outHout b s)

/-- What the command with opcode `op` does by `STATE` (R23, R24, R229): taken when `IDLE`; when `BUSY`, the running
command takes its phase's step and any other command waits; no step at all in `FAULT`
(DESIGN CHOICE, logs 1 and 8, safe). -/
def commandTurn (op : Byte) (taken : State → State) (running : State → Result) (s : State) : Result :=
  match s.state with
  | .idle => .next (taken s)
  | .busy => if s.op = op then running s else .next s
  | .fault => .next s

/-- Reset (70_reset_and_hazards.md R250 to R253): every register to its value in R43, the ports and their `closed` flags
untouched, `STRICT_HDR` sampled from the strap. The command channel is the host's and is untouched too
(DESIGN CHOICE, log 3, unsafe). -/
def resetBlock (strap : Bool) (s : State) : State :=
  { State.reset with
    strictHdr := strap, rx := s.rx, hin := s.hin, tx := s.tx, hout := s.hout, cmds := s.cmds, sched := s.sched }

/-- The host presents a command word: it waits behind those not yet taken (R24, R257). -/
def issue (w : W72) (s : State) : State := { s with cmds := s.cmds ++ [w] }

/-- An input port that the environment pushes a byte on: allowed while it is not closed (R19;
DESIGN CHOICE, log 7, safe). -/
def pushPort (b : Byte) (p : InPort) : InPort := if p.closed then p else { p with queue := p.queue ++ [b] }

/-- An input port that the environment closes, for good (R19, R38). -/
def closePort (p : InPort) : InPort := { p with closed := true }

/-- The host pushes a byte on `HIN` (R19). -/
def pushHin (b : Byte) (s : State) : State := { s with hin := pushPort b s.hin }

/-- The host closes `HIN` (R19). -/
def closeHin (s : State) : State := { s with hin := closePort s.hin }

/-- The host pops the head of `HOUT`; nothing happens when it is empty (R19; DESIGN CHOICE, log 7, safe). -/
def popHout (s : State) : State := { s with hout := s.hout.tail }

/-- The peer pushes a byte on `RX` (R19). -/
def pushRx (b : Byte) (s : State) : State := { s with rx := pushPort b s.rx }

/-- The peer closes `RX` (R19). -/
def closeRx (s : State) : State := { s with rx := closePort s.rx }

/-- The peer pops the head of `TX`; nothing happens when it is empty (R19; DESIGN CHOICE, log 7, safe). -/
def popTx (s : State) : State := { s with tx := s.tx.tail }

/-- A status register read has no effect on the block (R19, R41); its value is `statusRead` (Flags.lean). -/
def hostRead (_index : BitVec 4) (s : State) : State := s

end Sys2Proof.Machine
end

