-- ==== Sys2Proof/Machine/Operands.lean ====
section
/-! DEFINITION. The operand forms: the command word's operands (10_state.md R24, R30, R31), the key index (R27), the
fields of frame byte 0 (30_encoding.md R76), and the length forms of the encoder (R83). -/

namespace Sys2Proof.Machine

/-- The mask key of a command word or status word: `KEY[0]` in bits 31:24 (R70, R21). -/
def Key.ofWord (w : W32) : Key :=
  { k0 := w.extractLsb' 24 8, k1 := w.extractLsb' 16 8, k2 := w.extractLsb' 8 8, k3 := w.extractLsb' 0 8 }

/-- The key as 32 bits, `KEY[0]` most significant (R21, 20_memory.md R56). -/
def Key.toWord (k : Key) : W32 := k.k0 ++ k.k1 ++ k.k2 ++ k.k3

/-- `KEY[i]` for a two-bit index. -/
def Key.byte (k : Key) (i : BitVec 2) : Byte :=
  if i = 0 then k.k0 else if i = 1 then k.k1 else if i = 2 then k.k2 else k.k3

/-- `IDX[1:0]`, which the mask engine reads as `i mod 4` (R27). -/
def idxLow (idx : W32) : BitVec 2 := idx.extractLsb' 0 2

/-- Command accept (R24): `OP`, `LEN` latched, `IDX` and `OCNT` cleared, `STATE <- BUSY`, `PHASE <-` the command's first
phase. `KEY` is the accepting command's own business. -/
def takeCommand (op : Byte) (len : W32) (first : Phase) (s : State) : State :=
  { s with op := op, len := len, idx := 0, ocnt := 0, state := .busy, phase := first }

/-- The command word a `BUSY` block is running, read back from `OP`, `LEN` and `KEY` (R33, R31, R30; 20_memory.md R68). -/
def runningWord (s : State) : W72 := cmdWord s.op s.len s.key.toWord

/-- Field `FIN` of frame byte 0, bit 7 (R76). -/
def finBit (b0 : Byte) : Bool := b0.getLsbD 7

/-- The unnamed bits 6:4 of frame byte 0 (R76). -/
def unnamedBits (b0 : Byte) : BitVec 3 := b0.extractLsb' 4 3

/-- Field `OPCODE` of frame byte 0, bits 3:0 (R76). -/
def frameOpcode (b0 : Byte) : BitVec 4 := b0.extractLsb' 0 4

/-- The strict test of frame byte 0: `FIN = 1`, bits 6:4 = 0, `OPCODE = 0x1` (40_frame_parser.md R105). -/
def strictOk (b0 : Byte) : Bool := finBit b0 && unnamedBits b0 == 0 && frameOpcode b0 == 1

/-- `PLEN[15:8] <- b` (R101, phase D_EXT0). -/
def setHi (n : W16) (b : Byte) : W16 := be16 b (lo8 n)

/-- `PLEN[7:0] <- b` (R101, phase D_EXT1). -/
def setLo (n : W16) (b : Byte) : W16 := be16 (hi8 n) b

end Sys2Proof.Machine
end

