-- ==== Sys2Proof/Machine/Agents.lean ====
section
/-! DEFINITION. What the host and the peer do in a turn of theirs: the host table of 00_scope.md R19. -/

namespace Sys2Proof.Machine

/-- The effect of one move of the environment; the block's own turn is not one (Step.lean). -/
def agentMove : Move → State → State
  | .block, s => s
  | .issue w, s => issue w s
  | .pushHin b, s => pushHin b s
  | .closeHin, s => closeHin s
  | .popHout, s => popHout s
  | .pushRx b, s => pushRx b s
  | .closeRx, s => closeRx s
  | .popTx, s => popTx s
  | .readStatus index, s => hostRead index s
  | .reset strap, s => resetBlock strap s

/-- The bits of a command word placed first on the command channel of an idle block, the next turn being the block's. -/
def presentCommand (w : W72) (s : State) : State := { s with state := .idle, cmds := w :: s.cmds, sched := [] }

/-- The parser about to take the last header byte `b` of an inbound form whose earlier bytes it has latched. -/
def presentInbound (hdr0 hdr1 : Byte) (plen : W16) (p : Phase) (b : Byte) (s : State) : State :=
  { s with
    state := .busy, op := 0x01, phase := p, hdr0 := hdr0, hdr1 := hdr1, plen := plen,
    rx := { s.rx with queue := b :: s.rx.queue }, sched := [] }

/-- The encoder about to put out the header of a payload of `n` bytes. -/
def presentOutbound (n : W32) (s : State) : State :=
  { s with state := .busy, op := 0x02, len := n, phase := .eHdr, sched := [] }

/-- A state in which the block's next step runs the instruction: see withFetchWord in Step.lean. -/
def placeInstr (i : Instr) (w : W72) (s : State) : State :=
  match i with
  | .frameIn7 hdr0 ind => presentInbound hdr0 s.hdr1 s.plen .dHdr1 (1#1 ++ ind) s
  | .frameIn64 hdr0 => presentInbound hdr0 s.hdr1 s.plen .dHdr1 0xFF s
  | .frameInUnmasked hdr0 ind => presentInbound hdr0 s.hdr1 s.plen .dHdr1 (0#1 ++ ind) s
  | .frameIn16 hdr0 plen => presentInbound hdr0 0xFE (be16 (hi8 plen) 0) .dExt1 (lo8 plen) s
  | .frameOut7 n => presentOutbound (n.setWidth 32) s
  | .frameOut16 n => presentOutbound (n.setWidth 32) s
  | .decode _ _ => presentCommand w s
  | .encode _ _ => presentCommand w s
  | .mask _ _ => presentCommand w s
  | .sha1 _ _ => presentCommand w s
  | .b64 _ _ => presentCommand w s
  | .accept _ _ => presentCommand w s
  | .illegal _ _ _ => presentCommand w s

end Sys2Proof.Machine
end

