-- ==== Sys2Proof/Machine/Flags.lean ====
section
/-! DEFINITION. The block has no condition codes and no flag a later command reads; its only status bits are `STATE` and
`ERR` (10_state.md R37). This file holds their codes and the status read port (R21, R41). -/

namespace Sys2Proof.Machine

/-- The code of `STATE` (R23). -/
def Seq.code : Seq → BitVec 2
  | .idle => 0
  | .busy => 1
  | .fault => 2

/-- The code of `ERR` (60_exceptions.md R220). -/
def Err.code : Err → Byte
  | .none => 0
  | .eSize => 1
  | .eShort => 2
  | .eUnmasked => 3
  | .eHdr => 4
  | .eIllegalOp => 5

/-- The code of `PHASE` (R26). -/
def Phase.code : Phase → BitVec 5
  | .pIdle => 0
  | .dHdr0 => 1
  | .dHdr1 => 2
  | .dExt0 => 3
  | .dExt1 => 4
  | .dKey0 => 5
  | .dKey1 => 6
  | .dKey2 => 7
  | .dKey3 => 8
  | .dPay => 9
  | .eHdr => 10
  | .ePay => 11
  | .mPay => 12
  | .sAbs => 13
  | .sFin => 14
  | .sOut => 15
  | .bAbs => 16
  | .bFin => 17
  | .aTok => 18
  | .aGuid => 19
  | .aFin => 20
  | .aOut => 21

/-- `sreg_val` for `sreg_idx` (R21, R41): the register of that index zero-extended to 32 bits (20_memory.md R52); the
indices 11 to 15 read 0 (R60). -/
def statusRead (s : State) (index : BitVec 4) : W32 :=
  match index.toNat with
  | 0 => s.state.code.setWidth 32
  | 1 => s.err.code.setWidth 32
  | 2 => s.op.setWidth 32
  | 3 => s.len
  | 4 => s.key.toWord
  | 5 => s.phase.code.setWidth 32
  | 6 => s.idx
  | 7 => s.ocnt
  | 8 => s.hdr0.setWidth 32
  | 9 => s.hdr1.setWidth 32
  | 10 => s.plen.setWidth 32
  | _ => 0

end Sys2Proof.Machine
end

