-- ==== Sys2Proof/Machine/FrameForms.lean ====
section
/-! DEFINITION. The six frame header forms. An inbound form is executed by the parser in the step that takes its last
byte (40_frame_parser.md R101); an outbound form by the encoder in phase `E_HDR` (41_frame_encoder.md R131). In any other
state the block does not look at a header and the form changes nothing (20_memory.md R68, 60_exceptions.md R229;
DESIGN CHOICE, log 10, safe). -/

namespace Sys2Proof.Machine

/-- A header form's effect in the one phase in which the block acts on it. -/
def inPhase (p : Phase) (effect : State → State) (s : State) : Result :=
  if s.state = .busy ∧ s.phase = p then .next (effect s) else .next s

/-- `FRAME.IN.7BIT` (R106): both bytes latched, `PLEN <- zext_16(IND)`, on to the key. -/
def execFrameIn7 (hdr0 : Byte) (ind : BitVec 7) (s : State) : Result :=
  inPhase .dHdr1 (fun s => { s with hdr0 := hdr0, hdr1 := 1#1 ++ ind, plen := ind.setWidth 16, phase := .dKey0 }) s

/-- `FRAME.IN.16BIT` (R106, R109), in the step that takes its last length byte: `PLEN` is the big-endian length. -/
def execFrameIn16 (hdr0 : Byte) (plen : W16) (s : State) : Result :=
  inPhase .dExt1 (fun s => { s with hdr0 := hdr0, hdr1 := 0xFE, plen := plen, phase := .dKey0 }) s

/-- `FRAME.IN.64BIT` (R108): latched, then `E_SIZE`. -/
def execFrameIn64 (hdr0 : Byte) (s : State) : Result :=
  inPhase .dHdr1 (fun s => raise .eSize { s with hdr0 := hdr0, hdr1 := 0xFF }) s

/-- `FRAME.IN.UNMASKED` (R107): latched, then `E_UNMASKED`, whatever the indicator is. -/
def execFrameInUnmasked (hdr0 : Byte) (ind : BitVec 7) (s : State) : Result :=
  inPhase .dHdr1 (fun s => raise .eUnmasked { s with hdr0 := hdr0, hdr1 := 0#1 ++ ind }) s

/-- `FRAME.OUT.7BIT` (R132, R133): 0x81, then n, on `TX`. -/
def execFrameOut7 (n : BitVec 7) (s : State) : Result :=
  inPhase .eHdr (fun s => { outTx (0#1 ++ n) (outTx Config.textByte0 s) with phase := .ePay }) s

/-- `FRAME.OUT.16BIT` (R132, R134): 0x81, 126, then n big-endian, on `TX`. -/
def execFrameOut16 (n : W16) (s : State) : Result :=
  inPhase .eHdr
    (fun s => { outTx (lo8 n) (outTx (hi8 n) (outTx 0x7E (outTx Config.textByte0 s))) with phase := .ePay }) s

end Sys2Proof.Machine
end

