-- ==== Sys2Proof/Machine/Base64.lean ====
section
/-! DEFINITION. The base64 encoder and the command `B64` (44_base64.md, alphabet 30_encoding.md R88). -/

namespace Sys2Proof.Machine

/-- `ALPHA(v)`, the ASCII byte of a six-bit value (R88). -/
def alpha (v : BitVec 6) : Byte :=
  if v.toNat ≤ 25 then 0x41 + v.setWidth 8
  else if v.toNat ≤ 51 then 0x61 + (v.setWidth 8 - 26)
  else if v.toNat ≤ 61 then 0x30 + (v.setWidth 8 - 52)
  else if v.toNat = 62 then 0x2B
  else 0x2F

/-- The padding character `=` (R88). -/
def padChar : Byte := 0x3D

/-- The 24-bit value of a group, the first byte the most significant (R193). -/
def group24 (g0 g1 g2 : Byte) : BitVec 24 := g0 ++ g1 ++ g2

/-- The four characters of `emit_group` (R193). -/
def groupChars (g0 g1 g2 : Byte) : List Byte :=
  let v := group24 g0 g1 g2
  [alpha (v.extractLsb' 18 6), alpha (v.extractLsb' 12 6), alpha (v.extractLsb' 6 6), alpha (v.extractLsb' 0 6)]

/-- The characters of the tail with one byte (R195). -/
def tailChars1 (g0 : Byte) : List Byte :=
  let v := group24 g0 0 0
  [alpha (v.extractLsb' 18 6), alpha (v.extractLsb' 12 6), padChar, padChar]

/-- The characters of the tail with two bytes (R195). -/
def tailChars2 (g0 g1 : Byte) : List Byte :=
  let v := group24 g0 g1 0
  [alpha (v.extractLsb' 18 6), alpha (v.extractLsb' 12 6), alpha (v.extractLsb' 6 6), padChar]

/-- Init (R192): `GFILL <- 0`; `G` keeps its bytes. -/
def b64Init (u : B64Unit) : B64Unit := { u with gfill := 0 }

/-- `G[GFILL] <- b; GFILL <- GFILL + 1` (R191). -/
def b64Put (b : Byte) (u : B64Unit) : B64Unit :=
  let u' := if u.gfill = 0 then { u with g0 := b } else if u.gfill = 1 then { u with g1 := b }
    else if u.gfill = 2 then { u with g2 := b } else u
  { u' with gfill := u.gfill + 1 }

/-- One byte into the unit (R191): stored, and when the group is full its four characters and `GFILL <- 0`. -/
def b64Feed (b : Byte) (u : B64Unit) : B64Unit × List Byte :=
  let u' := b64Put b u
  if u'.gfill = 3 then ({ u' with gfill := 0 }, groupChars u'.g0 u'.g1 u'.g2) else (u', [])

/-- Several bytes into the unit, with all the characters they put out. -/
def b64FeedAll : List Byte → B64Unit → B64Unit × List Byte
  | [], u => (u, [])
  | b :: bs, u => ((b64FeedAll bs (b64Feed b u).1).1, (b64Feed b u).2 ++ (b64FeedAll bs (b64Feed b u).1).2)

/-- The characters of `emit_tail()`, by `GFILL` (R195). -/
def b64Tail (u : B64Unit) : List Byte :=
  if u.gfill = 1 then tailChars1 u.g0 else if u.gfill = 2 then tailChars2 u.g0 u.g1 else []

/-- Phase `B_ABS` (R191): absorb one byte, four characters out per third byte, or go on. -/
def bAbsStep (s : State) : Result :=
  if s.idx = s.len then .next { s with phase := .bFin }
  else takeHin s fun b s =>
    .next (outsHout (b64Feed b s.b64).2 { s with b64 := (b64Feed b s.b64).1, idx := s.idx + 1 })

/-- Phase `B_FIN` (R191): the padded tail, then complete, in one step. -/
def bFinStep (s : State) : Result := .next (complete (outsHout (b64Tail s.b64) s))

/-- The running `B64`, by phase (R26). -/
def b64Running (s : State) : Result :=
  match s.phase with
  | .bAbs => bAbsStep s
  | .bFin => bFinStep s
  | _ => .fault .brokenPhase

/-- `B64 n` (R191); `KEY` of the word is ignored (R72). -/
def execB64 (len _key : W32) (s : State) : Result :=
  commandTurn 0x05 (fun s => takeCommand 0x05 len .bAbs { s with b64 := b64Init s.b64 }) b64Running s

end Sys2Proof.Machine
end

