-- ==== Sys2Proof/Machine/Sha1.lean ====
section
/-! DEFINITION. The SHA-1 digest unit and the command `SHA1` (43_sha1.md, constants and padding 30_encoding.md R86, R87). -/

namespace Sys2Proof.Machine

/-- `ROTL_n` on 32 bits (00_scope.md R11). -/
def rotl (n : Nat) (x : W32) : W32 := x.rotateLeft n

/-- `be32` of four bytes, high byte first (R165). -/
def be32 (b0 b1 b2 b3 : Byte) : W32 := b0 ++ b1 ++ b2 ++ b3

/-- Byte `j` of a 32-bit word, byte 0 the most significant (R172). -/
def wordByte (w : W32) (j : Nat) : Byte := w.extractLsb' (24 - 8 * j) 8

/-- The initial chaining value (R86). -/
def shaIV : Chain :=
  { h0 := 0x67452301, h1 := 0xEFCDAB89, h2 := 0x98BADCFE, h3 := 0x10325476, h4 := 0xC3D2E1F0 }

/-- The round constant `K(t)` (R86). -/
def shaK (t : Nat) : W32 :=
  if t ≤ 19 then 0x5A827999 else if t ≤ 39 then 0x6ED9EBA1 else if t ≤ 59 then 0x8F1BBCDC else 0xCA62C1D6

/-- The function `f` of round `t` (R167). -/
def shaF (t : Nat) (b c d : W32) : W32 :=
  if t ≤ 19 then (b &&& c) ||| (~~~b &&& d)
  else if t ≤ 39 then b ^^^ c ^^^ d
  else if t ≤ 59 then (b &&& c) ||| (b &&& d) ||| (c &&& d)
  else b ^^^ c ^^^ d

/-- Word `t` of the schedule's first 16, from a block's bytes (R165). -/
def blockWord (blk : List Byte) (t : Nat) : W32 :=
  be32 (blk.getD (4 * t) 0) (blk.getD (4 * t + 1) 0) (blk.getD (4 * t + 2) 0) (blk.getD (4 * t + 3) 0)

/-- `n` more schedule words (R166), the list latest first, so that `W[t-3]`, `W[t-8]`, `W[t-14]`, `W[t-16]` stand at
positions 2, 7, 13 and 15. -/
def extendSchedule : Nat → List W32 → List W32
  | 0, w => w
  | n + 1, w => extendSchedule n (rotl 1 (w.getD 2 0 ^^^ w.getD 7 0 ^^^ w.getD 13 0 ^^^ w.getD 15 0) :: w)

/-- The message schedule `W[0..79]` of a block (R165, R166). -/
def schedule (blk : List Byte) : List W32 :=
  (extendSchedule 64 ((List.range 16).map (blockWord blk)).reverse).reverse

/-- One round of `compress`; the working variables `a, b, c, d, e` are the fields of a Chain in order (R167). -/
def shaRound (t : Nat) (w : W32) (v : Chain) : Chain :=
  { h0 := rotl 5 v.h0 + shaF t v.h1 v.h2 v.h3 + v.h4 + shaK t + w
    h1 := v.h0, h2 := rotl 30 v.h1, h3 := v.h2, h4 := v.h3 }

/-- The rounds over a schedule, from round `t` on (R167). -/
def shaRounds : Nat → List W32 → Chain → Chain
  | _, [], v => v
  | t, w :: ws, v => shaRounds (t + 1) ws (shaRound t w v)

/-- Word by word addition modulo 2^32 (R167). -/
def addChain (x y : Chain) : Chain :=
  { h0 := x.h0 + y.h0, h1 := x.h1 + y.h1, h2 := x.h2 + y.h2, h3 := x.h3 + y.h3, h4 := x.h4 + y.h4 }

/-- `compress(H, BLK)` (R167). -/
def compress (h : Chain) (blk : List Byte) : Chain := addChain h (shaRounds 0 (schedule blk) h)

/-- Init, in the accept step of `SHA1` and `ACCEPT` (R163); `BLK` keeps its bytes. -/
def shaInit (u : ShaUnit) : ShaUnit := { u with h := shaIV, bfill := 0, mlen := 0 }

/-- `pad(b)`: `absorb(b)` without changing `MLEN` (R168). -/
def shaPad (b : Byte) (u : ShaUnit) : ShaUnit :=
  let blk := u.blk.setIfInBounds u.bfill.toNat b
  if u.bfill + 1 = 64 then { u with h := compress u.h blk.toList, blk := blk, bfill := 0 }
  else { u with blk := blk, bfill := u.bfill + 1 }

/-- `absorb(b)` (R164). -/
def absorb (b : Byte) (u : ShaUnit) : ShaUnit := { shaPad b u with mlen := u.mlen + 1 }

/-- `absorb` of several bytes in order. -/
def absorbAll : List Byte → ShaUnit → ShaUnit
  | [], u => u
  | b :: bs, u => absorbAll bs (absorb b u)

/-- `pad` of several bytes in order. -/
def shaPadAll : List Byte → ShaUnit → ShaUnit
  | [], u => u
  | b :: bs, u => shaPadAll bs (shaPad b u)

/-- `while BFILL != 56: pad(0x00)` (R168). From any `BFILL` below 64 it ends within 63 rounds, so the fuel of 64 that
`shaFinish` gives never runs out in a run. -/
def padTo56 : Nat → ShaUnit → ShaUnit
  | 0, u => u
  | fuel + 1, u => if u.bfill = 56 then u else padTo56 fuel (shaPad 0x00 u)

/-- `be64`: eight bytes, high byte first (R168, R87). -/
def be64 (w : W64) : List Byte :=
  [w.extractLsb' 56 8, w.extractLsb' 48 8, w.extractLsb' 40 8, w.extractLsb' 32 8,
   w.extractLsb' 24 8, w.extractLsb' 16 8, w.extractLsb' 8 8, w.extractLsb' 0 8]

/-- `finish()` (R168): 0x80, zeros up to `BFILL` = 56, then the bit length `8 L` in 64 bits. -/
def shaFinish (u : ShaUnit) : ShaUnit := shaPadAll (be64 (8 * u.mlen)) (padTo56 64 (shaPad 0x80 u))

/-- `H[i]`, for `i` in 0..4. -/
def Chain.word (h : Chain) (i : Nat) : W32 :=
  if i = 0 then h.h0 else if i = 1 then h.h1 else if i = 2 then h.h2 else if i = 3 then h.h3 else h.h4

/-- `digest_byte(j)` (R172). -/
def digestByte (h : Chain) (j : Nat) : Byte := wordByte (h.word (j / 4)) (j % 4)

/-- Phase `S_ABS` (R161): absorb one message byte, or go on. -/
def sAbsStep (s : State) : Result :=
  if s.idx = s.len then .next { s with phase := .sFin }
  else takeHin s fun b s => .next { s with sha := absorb b s.sha, idx := s.idx + 1 }

/-- Phase `S_FIN` (R161): neither `In` nor `Out`. -/
def sFinStep (s : State) : Result := .next { s with sha := shaFinish s.sha, idx := 0, phase := .sOut }

/-- Phase `S_OUT` (R161): put out one digest byte, or complete. -/
def sOutStep (s : State) : Result :=
  if s.idx = 20 then .next (complete s)
  else .next { outHout (digestByte s.sha.h s.idx.toNat) s with idx := s.idx + 1 }

/-- The running `SHA1`, by phase (R26). -/
def sha1Running (s : State) : Result :=
  match s.phase with
  | .sAbs => sAbsStep s
  | .sFin => sFinStep s
  | .sOut => sOutStep s
  | _ => .fault .brokenPhase

/-- `SHA1 n` (R161); `KEY` of the word is ignored (R72). -/
def execSha1 (len _key : W32) (s : State) : Result :=
  commandTurn 0x04 (fun s => takeCommand 0x04 len .sAbs { s with sha := shaInit s.sha }) sha1Running s

end Sys2Proof.Machine
end

