-- ==== Sys2Proof/Machine/Accept.lean ====
section
/-! DEFINITION. The handshake key derivation, command `ACCEPT` (45_accept.md). -/

namespace Sys2Proof.Machine

/-- The handshake constant `GUID`, 36 ASCII bytes (30_encoding.md R85). -/
def guid : List Byte :=
  [0x32, 0x35, 0x38, 0x45, 0x41, 0x46, 0x41, 0x35, 0x2D, 0x45, 0x39, 0x31, 0x34, 0x2D, 0x34, 0x37, 0x44, 0x41, 0x2D,
   0x39, 0x35, 0x43, 0x41, 0x2D, 0x43, 0x35, 0x41, 0x42, 0x30, 0x44, 0x43, 0x38, 0x35, 0x42, 0x31, 0x31]

/-- The 20 digest bytes in output order (43_sha1.md R172). -/
def digestBytes (h : Chain) : List Byte := (List.range 20).map (digestByte h)

/-- Phase `A_TOK` (R206): absorb one token byte, or go on. -/
def aTokStep (s : State) : Result :=
  if s.idx = s.len then .next { s with phase := .aGuid }
  else takeHin s fun b s => .next { s with sha := absorb b s.sha, idx := s.idx + 1 }

/-- Phase `A_GUID` (R206, R209): the 36 constant bytes, in one step. -/
def aGuidStep (s : State) : Result := .next { s with sha := absorbAll guid s.sha, phase := .aFin }

/-- Phase `A_FIN` (R206). -/
def aFinStep (s : State) : Result := .next { s with sha := shaFinish s.sha, phase := .aOut }

/-- Phase `A_OUT` (R206): the digest through the base64 unit, the tail, complete, in one step. -/
def aOutStep (s : State) : Result :=
  let r := b64FeedAll (digestBytes s.sha.h) (b64Init s.b64)
  .next (complete (outsHout (r.2 ++ b64Tail r.1) { s with b64 := r.1 }))

/-- The running `ACCEPT`, by phase (R26). -/
def acceptRunning (s : State) : Result :=
  match s.phase with
  | .aTok => aTokStep s
  | .aGuid => aGuidStep s
  | .aFin => aFinStep s
  | .aOut => aOutStep s
  | _ => .fault .brokenPhase

/-- `ACCEPT n` (R206); `KEY` of the word is ignored (R72). -/
def execAccept (len _key : W32) (s : State) : Result :=
  commandTurn 0x06 (fun s => takeCommand 0x06 len .aTok { s with sha := shaInit s.sha }) acceptRunning s

end Sys2Proof.Machine
end

