-- ==== Sys2Proof/Machine/Encoder.lean ====
section
/-! DEFINITION. The frame encoder, command `ENCODE` (41_frame_encoder.md R131). -/

namespace Sys2Proof.Machine

/-- Phase `E_HDR` (R131 to R135, 30_encoding.md R83): the form is chosen by `LEN` alone; a length above 65535 faults
before any `Out` and before any `In`. -/
def eHdrStep (s : State) : Result :=
  if s.len.toNat > Config.plenMax then .next (raise .eSize s)
  else if s.len.toNat ≤ Config.len7Max then execFrameOut7 (s.len.setWidth 7) s
  else execFrameOut16 (s.len.setWidth 16) s

/-- Phase `E_PAY` (R136): one payload byte copied, or complete. -/
def ePayStep (s : State) : Result :=
  if s.idx = s.len then .next (complete s)
  else takeHin s fun b s => .next { outTx b s with idx := s.idx + 1 }

/-- The running `ENCODE`, by phase (R26). -/
def encodeRunning (s : State) : Result :=
  match s.phase with
  | .eHdr => eHdrStep s
  | .ePay => ePayStep s
  | _ => .fault .brokenPhase

/-- `ENCODE n` (R131); `KEY` of the word is ignored (R72). -/
def execEncode (len _key : W32) (s : State) : Result :=
  commandTurn 0x02 (takeCommand 0x02 len .eHdr) encodeRunning s

end Sys2Proof.Machine
end

