-- ==== Sys2Proof/Machine/Illegal.lean ====
section
/-! DEFINITION. The illegal command words (30_encoding.md R73, 60_exceptions.md R225): taken like any command, then the
first step raises `E_ILLEGAL_OP` in phase `P_IDLE`, touching no port. -/

namespace Sys2Proof.Machine

/-- The running illegal command: its one phase is `P_IDLE` (R24, R26). -/
def illegalRunning (s : State) : Result :=
  match s.phase with
  | .pIdle => .next (raise .eIllegalOp s)
  | _ => .fault .brokenPhase

/-- A command word with an illegal opcode (R225); `OP` and `LEN` hold its fields, `KEY` is not latched. -/
def execIllegal (op : Byte) (len _key : W32) (s : State) : Result :=
  commandTurn op (takeCommand op len .pIdle) illegalRunning s

end Sys2Proof.Machine
end

