-- ==== Sys2Proof/Machine/MaskEngine.lean ====
section
/-! DEFINITION. The XOR mask/unmask engine and the command `MASK`, alias `UNMASK` (42_mask_engine.md). -/

namespace Sys2Proof.Machine

/-- `xor_mask(key, i, b) = b XOR key[i mod 4]` (R150), `i mod 4` being `IDX[1:0]`. -/
def xorMask (key : Key) (idx : W32) (b : Byte) : Byte := b ^^^ key.byte (idxLow idx)

/-- Phase `M_PAY` (R151): one byte through the engine, or complete. -/
def mPayStep (s : State) : Result :=
  if s.idx = s.len then .next (complete s)
  else takeHin s fun b s => .next { outHout (xorMask s.key s.idx b) s with idx := s.idx + 1 }

/-- The running `MASK`, by phase (R26). -/
def maskRunning (s : State) : Result :=
  match s.phase with
  | .mPay => mPayStep s
  | _ => .fault .brokenPhase

/-- `MASK n, k0 k1 k2 k3` (R151); the one command that latches `KEY` at accept (R24). -/
def execMask (len key : W32) (s : State) : Result :=
  commandTurn 0x03 (fun s => takeCommand 0x03 len .mPay { s with key := Key.ofWord key }) maskRunning s

end Sys2Proof.Machine
end

