-- ==== Sys2Proof/Machine/Parser.lean ====
section
/-! DEFINITION. The frame parser, command `DECODE` (40_frame_parser.md R101): one definition per phase. -/

namespace Sys2Proof.Machine

/-- Phase `D_HDR0` (R102, R104, R105): byte 0 latched whole; examined only under `STRICT_HDR`. -/
def dHdr0Step (s : State) : Result :=
  takeRx s fun b s =>
    if s.strictHdr && !strictOk b then .next (raise .eHdr { s with hdr0 := b })
    else .next { s with hdr0 := b, phase := .dHdr1 }

/-- Phase `D_HDR1` (R103): byte 1 latched whole, then the header form it completes is executed (R106 to R108); the
16-bit form is not complete yet and clears `PLEN`. -/
def dHdr1Step (s : State) : Result :=
  takeRx s fun b s =>
    match inForm b with
    | .unmasked ind => execFrameInUnmasked s.hdr0 ind { s with hdr1 := b }
    | .short ind => execFrameIn7 s.hdr0 ind { s with hdr1 := b }
    | .ext16 => .next { s with hdr1 := b, plen := 0, phase := .dExt0 }
    | .ext64 => execFrameIn64 s.hdr0 { s with hdr1 := b }

/-- Phase `D_EXT0` (R109): the high length byte. -/
def dExt0Step (s : State) : Result :=
  takeRx s fun b s => .next { s with plen := setHi s.plen b, phase := .dExt1 }

/-- Phase `D_EXT1` (R109): the low length byte, which completes the 16-bit form. It is `execFrameIn16` of the header
wherever `HDR1` holds 0xFE, as it does in every run. -/
def dExt1Step (s : State) : Result :=
  takeRx s fun b s => .next { s with plen := setLo s.plen b, phase := .dKey0 }

/-- Phase `D_KEY0` (R110). -/
def dKey0Step (s : State) : Result :=
  takeRx s fun b s => .next { s with key := { s.key with k0 := b }, phase := .dKey1 }

/-- Phase `D_KEY1` (R110). -/
def dKey1Step (s : State) : Result :=
  takeRx s fun b s => .next { s with key := { s.key with k1 := b }, phase := .dKey2 }

/-- Phase `D_KEY2` (R110). -/
def dKey2Step (s : State) : Result :=
  takeRx s fun b s => .next { s with key := { s.key with k2 := b }, phase := .dKey3 }

/-- Phase `D_KEY3` (R110). -/
def dKey3Step (s : State) : Result :=
  takeRx s fun b s => .next { s with key := { s.key with k3 := b }, phase := .dPay }

/-- Phase `D_PAY` (R111, R112): one payload byte unmasked and put out, or complete. -/
def dPayStep (s : State) : Result :=
  if s.idx = s.plen.setWidth 32 then .next (complete s)
  else takeRx s fun b s => .next { outHout (xorMask s.key s.idx b) s with idx := s.idx + 1 }

/-- The running `DECODE`, by phase (R26). -/
def decodeRunning (s : State) : Result :=
  match s.phase with
  | .dHdr0 => dHdr0Step s
  | .dHdr1 => dHdr1Step s
  | .dExt0 => dExt0Step s
  | .dExt1 => dExt1Step s
  | .dKey0 => dKey0Step s
  | .dKey1 => dKey1Step s
  | .dKey2 => dKey2Step s
  | .dKey3 => dKey3Step s
  | .dPay => dPayStep s
  | _ => .fault .brokenPhase

/-- `DECODE` (R101). `LEN` is latched and otherwise ignored, `KEY` of the word is ignored (R72). -/
def execDecode (len _key : W32) (s : State) : Result :=
  commandTurn 0x01 (takeCommand 0x01 len .dHdr0) decodeRunning s

end Sys2Proof.Machine
end

