-- ==== Sys2Proof/Machine/Dispatch.lean ====
section
/-! DEFINITION. The dispatch: one arm per constructor of Instr, each a direct call of its meaning. -/

namespace Sys2Proof.Machine

-- One step of the instruction: a command is taken when STATE = IDLE and runs its phase's step when STATE = BUSY.
def exec (i : Instr) (s : State) : Host.Outcome State Fault Refusal :=
  match i with
  | .decode len key => Sys2Proof.Machine.execDecode len key s
  | .encode len key => Sys2Proof.Machine.execEncode len key s
  | .mask len key => Sys2Proof.Machine.execMask len key s
  | .sha1 len key => Sys2Proof.Machine.execSha1 len key s
  | .b64 len key => Sys2Proof.Machine.execB64 len key s
  | .accept len key => Sys2Proof.Machine.execAccept len key s
  | .illegal op len key => Sys2Proof.Machine.execIllegal op len key s
  | .frameIn7 hdr0 ind => Sys2Proof.Machine.execFrameIn7 hdr0 ind s
  | .frameIn16 hdr0 plen => Sys2Proof.Machine.execFrameIn16 hdr0 plen s
  | .frameIn64 hdr0 => Sys2Proof.Machine.execFrameIn64 hdr0 s
  | .frameInUnmasked hdr0 ind => Sys2Proof.Machine.execFrameInUnmasked hdr0 ind s
  | .frameOut7 n => Sys2Proof.Machine.execFrameOut7 n s
  | .frameOut16 n => Sys2Proof.Machine.execFrameOut16 n s

end Sys2Proof.Machine
end

