-- ==== Sys2Proof/Machine/Sequencer.lean ====
section
/-! DEFINITION. The sequencer: the block's turn, and whose turn is next (00_scope.md R16; 10_state.md R23, R24;
DESIGN CHOICE, log 2, safe). -/

namespace Sys2Proof.Machine

/-- The block's turn (10_state.md R23, R24): idle, it takes the oldest waiting command word, or rests when there is
none (R263 d); busy, it takes one small step of the command in `OP`, `LEN`, `KEY`, or holds; in `FAULT` it takes no
step (60_exceptions.md R229). Resting and holding leave the state as it is (DESIGN CHOICE, log 8, safe). -/
def blockStep (s : State) : Result :=
  match s.state with
  | .idle =>
    match s.cmds with
    | [] => .next s
    | w :: rest => exec (decodeWord w) { s with cmds := rest }
  | .busy => exec (decodeWord (runningWord s)) s
  | .fault => .next s

/-- The next scheduled turn; the block's when none is scheduled. -/
def takeTurn (s : State) : Result :=
  match s.sched with
  | [] => blockStep s
  | .block :: rest => blockStep { s with sched := rest }
  | m :: rest => .next (agentMove m { s with sched := rest })

end Sys2Proof.Machine
end

