-- ==== Sys2Proof/Machine/Step.lean ====
section
/-! DEFINITION. One step of the machine, and how an instruction is placed for the next step. -/

namespace Sys2Proof.Machine

/-- One step: the turn that is next (Sequencer.lean). -/
def step (s : State) : Host.Outcome State Fault Refusal := takeTurn s

/-- `s` with the instruction that spec/opcode_table.json numbers `w` (`nbits` wide) placed so that the very next step
runs it. A command word is presented first on the command channel of an idle block; an inbound header is placed in a
parser that has latched all but its last byte; an outbound header is placed as the length of an encoder in `E_HDR`
(DEDUCED, log 12, safe). Where no row matches nothing is placed. -/
def State.withFetchWord (s : State) (nbits w : Nat) : State :=
  match decodeTableWord nbits w with
  | some i => placeInstr i (BitVec.ofNat 72 w) s
  | none => s

end Sys2Proof.Machine
end

