-- ==== Sys2Proof/Machine/BigStep.lean ====
section
/-! DEFINITION. The big-step semantics (00_scope.md R14): for each command, a function from the command word and the whole
input the command consumes to a status, the bytes taken and the bytes put out. The step function does not use this file;
the statements say that the two semantics agree. -/

namespace Sys2Proof.Machine

/-- How a command ends (40_frame_parser.md R113): completed, in `FAULT` with a code, or holding for ever. -/
inductive Ending where
  | ok
  | faulted (e : Err)
  | holds
deriving DecidableEq, Repr

/-- One command's run: its ending, the number of bytes taken from its input port, the bytes put out on its output port,
and the steps of the block after the accept step, the faulting step counted (95_test_vectors.md, conventions). -/
structure BigRun where
  ending : Ending
  taken  : Nat
  out    : List Byte
  steps  : Nat
deriving DecidableEq, Repr

/-- `xor_mask_seq(key, p)`, counting from index `i` (42_mask_engine.md R150). -/
def xorMaskFrom (key : Key) : Nat → List Byte → List Byte
  | _, [] => []
  | i, b :: bs => (b ^^^ key.byte (BitVec.ofNat 2 i)) :: xorMaskFrom key (i + 1) bs

/-- `xor_mask_seq(key, p)` (R150). -/
def xorMaskSeq (key : Key) (p : List Byte) : List Byte := xorMaskFrom key 0 p

/-- Byte `i` of a sequence, 0 beyond its end. -/
def byteAt (s : List Byte) (i : Nat) : Byte := s.getD i 0

/-- `hlen` of R113: 4 in the 16-bit form, else 2. -/
def headerLen (s : List Byte) : Nat := if (indOf (byteAt s 1)).toNat = Config.ind16 then 4 else 2

/-- `n` of R113. -/
def payloadLen (s : List Byte) : Nat :=
  if (indOf (byteAt s 1)).toNat = Config.ind16 then (be16 (byteAt s 2) (byteAt s 3)).toNat else (indOf (byteAt s 1)).toNat

/-- The payload bytes of the frame at the head of `s`, unmasked, as far as they are there (R113). -/
def unmaskedPayload (s : List Byte) : List Byte :=
  let h := headerLen s
  let key : Key := { k0 := byteAt s h, k1 := byteAt s (h + 1), k2 := byteAt s (h + 2), k3 := byteAt s (h + 3) }
  xorMaskSeq key ((s.drop (h + 4)).take (payloadLen s))

/-- `decode(S)` (40_frame_parser.md R113), `S` being all the bytes that will ever be on `RX`. -/
def decodeBig (strict closed : Bool) (s : List Byte) : BigRun :=
  let need := headerLen s + 4 + payloadLen s
  if strict = true ∧ 1 ≤ s.length ∧ strictOk (byteAt s 0) = false then
    { ending := .faulted .eHdr, taken := 1, out := [], steps := 1 }
  else if 2 ≤ s.length ∧ maskBit (byteAt s 1) = false then
    { ending := .faulted .eUnmasked, taken := 2, out := [], steps := 2 }
  else if 2 ≤ s.length ∧ (indOf (byteAt s 1)).toNat = Config.ind64 then
    { ending := .faulted .eSize, taken := 2, out := [], steps := 2 }
  else if need ≤ s.length then
    { ending := .ok, taken := need, out := unmaskedPayload s, steps := need + 1 }
  else if closed then
    { ending := .faulted .eShort, taken := s.length, out := unmaskedPayload s, steps := s.length + 1 }
  else { ending := .holds, taken := s.length, out := unmaskedPayload s, steps := s.length }

/-- The header of an outbound frame of `n` payload bytes (41_frame_encoder.md R138). -/
def outHeader (n : W32) : List Byte :=
  if n.toNat ≤ Config.len7Max then [Config.textByte0, n.setWidth 8]
  else [Config.textByte0, 0x7E, n.extractLsb' 8 8, n.setWidth 8]

/-- `encode(n, P)` (R138). -/
def encodeBig (n : W32) (closed : Bool) (p : List Byte) : BigRun :=
  if n.toNat > Config.plenMax then { ending := .faulted .eSize, taken := 0, out := [], steps := 1 }
  else if n.toNat ≤ p.length then
    { ending := .ok, taken := n.toNat, out := outHeader n ++ p.take n.toNat, steps := n.toNat + 2 }
  else if closed then
    { ending := .faulted .eShort, taken := p.length, out := outHeader n ++ p, steps := p.length + 2 }
  else { ending := .holds, taken := p.length, out := outHeader n ++ p, steps := p.length + 1 }

/-- The shape shared by the commands that take `LEN` bytes from `HIN`: what is put out when all are there and when they
run short, and the steps after the last byte is taken. -/
def hinBig (n : W32) (closed : Bool) (p okOut shortOut : List Byte) (tailSteps : Nat) : BigRun :=
  if n.toNat ≤ p.length then
    { ending := .ok, taken := n.toNat, out := okOut, steps := n.toNat + tailSteps }
  else if closed then
    { ending := .faulted .eShort, taken := p.length, out := shortOut, steps := p.length + 1 }
  else { ending := .holds, taken := p.length, out := shortOut, steps := p.length }

/-- `mask(n, key, P)` (42_mask_engine.md R151). -/
def maskBig (n : W32) (key : Key) (closed : Bool) (p : List Byte) : BigRun :=
  hinBig n closed p (xorMaskSeq key (p.take n.toNat)) (xorMaskSeq key p) 1

/-- A message padded to whole blocks (30_encoding.md R87). -/
def shaPadded (m : List Byte) : List Byte :=
  m ++ [0x80] ++ List.replicate ((119 - m.length % 64) % 64) 0 ++ be64 (BitVec.ofNat 64 (8 * m.length))

/-- The first `n` blocks of 64 bytes (43_sha1.md R162). -/
def blocks64 : Nat → List Byte → List (List Byte)
  | 0, _ => []
  | n + 1, m => m.take 64 :: blocks64 n (m.drop 64)

/-- `sha1(M)` (R162). -/
def sha1 (m : List Byte) : List Byte :=
  digestBytes ((blocks64 ((shaPadded m).length / 64) (shaPadded m)).foldl compress shaIV)

/-- The `SHA1` command (43_sha1.md R161). -/
def sha1Big (n : W32) (closed : Bool) (p : List Byte) : BigRun := hinBig n closed p (sha1 (p.take n.toNat)) [] 23

/-- `b64(D)` (44_base64.md R196). -/
def b64 : List Byte → List Byte
  | [] => []
  | [a] => tailChars1 a
  | [a, b] => tailChars2 a b
  | a :: b :: c :: rest => groupChars a b c ++ b64 rest

/-- The `B64` command (R191): on a short input, the whole groups only. -/
def b64Big (n : W32) (closed : Bool) (p : List Byte) : BigRun :=
  hinBig n closed p (b64 (p.take n.toNat)) (b64 (p.take (3 * (p.length / 3)))) 2

/-- `accept(T) = b64(sha1(T ‖ GUID))` (45_accept.md R207). -/
def acceptToken (token : List Byte) : List Byte := b64 (sha1 (token ++ guid))

/-- The `ACCEPT` command (R207). -/
def acceptBig (n : W32) (closed : Bool) (p : List Byte) : BigRun :=
  hinBig n closed p (acceptToken (p.take n.toNat)) [] 4

/-- The test harness's `remask(F, K)` of 90_conflicts.md C6 on an outbound frame: bit 7 of byte 1 set, the key after the
length bytes, the payload masked. Not a behaviour of the block. -/
def remask (key : Key) (f : List Byte) : List Byte :=
  let h := if byteAt f 1 = 0x7E then 4 else 2
  [byteAt f 0, byteAt f 1 ||| 0x80] ++ (f.take h).drop 2 ++ [key.k0, key.k1, key.k2, key.k3] ++ xorMaskSeq key (f.drop h)

end Sys2Proof.Machine
end

