-- ==== Sys2Proof/Safety.lean ====
section
/-! DEFINITION. The terms in which claims about runs are stated: how a run has ended (70_reset_and_hazards.md R264), when
the block waits (R263), what a state on a run satisfies (Inv), and how a run agrees with the big-step semantics. -/

namespace Sys2Proof.Machine

/-- The command words that the scheduled turns of the host still issue, in order (00_scope.md R19). -/
def wordsToIssue : List Move → List W72
  | [] => []
  | .issue w :: rest => w :: wordsToIssue rest
  | _ :: rest => wordsToIssue rest

/-- The host has no further command: none waits on the channel and none is still to be issued (R264). -/
def NoFurtherCommand (s : State) : Prop := s.cmds = [] ∧ wordsToIssue s.sched = []

/-- A run from `s` to `t` (R264): its first turn is a reset, which is taken, no later turn is a reset, and the commands are
those waiting on the channel and those the schedule issues. -/
def IsRun (s t : State) : Prop :=
  ∃ strap rest k, s.sched = .reset strap :: rest ∧ (∀ level, Move.reset level ∉ rest) ∧
    Host.Core.run core (k + 1) s = .next t

/-- The run has ended well (R264): no further command, `STATE = IDLE`, `ERR = 0`. -/
def EndedWell (s : State) : Prop := NoFurtherCommand s ∧ s.state = .idle ∧ s.err = .none

/-- The run has ended badly (R264). -/
def EndedBadly (s : State) : Prop := s.state = .fault

/-- The run has not ended (R264). -/
def NotEnded (s : State) : Prop := s.state = .busy

/-- What the host reads back at the end of a run (R264): the contents of `TX` and `HOUT`, and the eleven status registers
by index. -/
structure Reading where
  tx     : List Byte
  hout   : List Byte
  status : List W32
deriving DecidableEq, Repr

/-- The reading of a state (R264, R21). -/
def readBack (s : State) : Reading :=
  { tx := s.tx, hout := s.hout, status := (List.range 11).map fun i => statusRead s (BitVec.ofNat 4 i) }

/-- The block is executing the command with opcode `op` and is in phase `p`. -/
def Running (op : Byte) (p : Phase) (s : State) : Prop := s.state = .busy ∧ s.op = op ∧ s.phase = p

/-- The phases of each command, in order (10_state.md R26); an illegal command's one phase is `P_IDLE` (R24). -/
def phasesOf (op : Byte) : List Phase :=
  if op = 0x01 then [.dHdr0, .dHdr1, .dExt0, .dExt1, .dKey0, .dKey1, .dKey2, .dKey3, .dPay]
  else if op = 0x02 then [.eHdr, .ePay]
  else if op = 0x03 then [.mPay]
  else if op = 0x04 then [.sAbs, .sFin, .sOut]
  else if op = 0x05 then [.bAbs, .bFin]
  else if op = 0x06 then [.aTok, .aGuid, .aFin, .aOut]
  else [.pIdle]

/-- The first phase of a command (R24, R26). -/
def firstPhase (op : Byte) : Phase :=
  if op = 0x01 then .dHdr0 else if op = 0x02 then .eHdr else if op = 0x03 then .mPay else if op = 0x04 then .sAbs
  else if op = 0x05 then .bAbs else if op = 0x06 then .aTok else .pIdle

/-- The step of this phase needs a byte from `RX` (40_frame_parser.md R101). -/
def needsRx (s : State) : Bool :=
  match s.phase with
  | .dHdr0 | .dHdr1 | .dExt0 | .dExt1 | .dKey0 | .dKey1 | .dKey2 | .dKey3 => true
  | .dPay => s.idx != s.plen.setWidth 32
  | _ => false

/-- The step of this phase needs a byte from `HIN` (R131, R151, R161, R191, R206). -/
def needsHin (s : State) : Bool :=
  match s.phase with
  | .ePay | .mPay | .sAbs | .bAbs | .aTok => s.idx != s.len
  | _ => false

/-- The block makes no progress (R263): (a) it needs a byte from a port that is empty and open, (c) `FAULT`, (d) idle
with no command. Case (b), an output receiver that is never ready, does not show in the model
(DESIGN CHOICE, log 13, unsafe for progress). -/
def Waiting (s : State) : Prop :=
  (s.state = .busy ∧ ((needsRx s = true ∧ s.rx.queue = [] ∧ s.rx.closed = false) ∨
    (needsHin s = true ∧ s.hin.queue = [] ∧ s.hin.closed = false))) ∨
  s.state = .fault ∨ (s.state = .idle ∧ s.cmds = [])

/-- How far the running command has got, phase by phase: the counters agree with each other (10_state.md R22, R27, R28). -/
def Progress (s : State) : Prop :=
  match s.phase with
  | .pIdle | .dHdr0 | .dHdr1 | .dKey0 | .dKey1 | .dKey2 | .dKey3 | .eHdr => s.idx = 0 ∧ s.ocnt = 0
  | .dExt0 | .dExt1 => s.idx = 0 ∧ s.ocnt = 0 ∧ s.hdr1 = 0xFE
  | .dPay => s.idx.toNat ≤ s.plen.toNat ∧ s.ocnt = s.idx
  | .ePay => s.idx.toNat ≤ s.len.toNat ∧ s.len.toNat ≤ Config.plenMax ∧
      s.ocnt.toNat = s.idx.toNat + (if s.len.toNat ≤ Config.len7Max then 2 else 4)
  | .mPay => s.idx.toNat ≤ s.len.toNat ∧ s.ocnt = s.idx
  | .sAbs | .aTok => s.idx.toNat ≤ s.len.toNat ∧ s.ocnt = 0 ∧ s.sha.mlen.toNat = s.idx.toNat ∧
      s.sha.bfill.toNat = s.idx.toNat % 64
  | .sFin | .aGuid => s.idx = s.len ∧ s.ocnt = 0 ∧ s.sha.mlen.toNat = s.len.toNat ∧
      s.sha.bfill.toNat = s.len.toNat % 64
  | .aFin => s.idx = s.len ∧ s.ocnt = 0 ∧ s.sha.mlen.toNat = s.len.toNat + 36 ∧
      s.sha.bfill.toNat = (s.len.toNat + 36) % 64
  | .sOut => s.idx.toNat ≤ Config.digestLen ∧ s.ocnt = s.idx ∧ s.sha.bfill = 0
  | .bAbs => s.idx.toNat ≤ s.len.toNat ∧ s.b64.gfill.toNat = s.idx.toNat % 3 ∧
      s.ocnt = BitVec.ofNat 32 (4 * (s.idx.toNat / 3))
  | .bFin => s.idx = s.len ∧ s.b64.gfill.toNat = s.idx.toNat % 3 ∧ s.ocnt = BitVec.ofNat 32 (4 * (s.idx.toNat / 3))
  | .aOut => s.idx = s.len ∧ s.ocnt = 0 ∧ s.sha.bfill = 0

/-- What every state of a run from reset satisfies. -/
structure Inv (s : State) : Prop where
  /-- `ERR ≠ 0` if and only if `STATE = FAULT` (R32). -/
  err_none_iff : s.err = .none ↔ s.state ≠ .fault
  /-- An idle block is in `P_IDLE` (R25, R43). -/
  idle_phase : s.state = .idle → s.phase = .pIdle
  /-- The phase is one of the command's (R26). -/
  phase_of_op : s.state ≠ .idle → s.phase ∈ phasesOf s.op
  /-- Between steps the block buffer is not full (R164). -/
  bfill_lt : s.sha.bfill.toNat < 64
  /-- `GFILL` is in 0..2 (R35). -/
  gfill_le : s.b64.gfill.toNat ≤ 2
  /-- The counters of a running command agree. -/
  progress : s.state = .busy → Progress s

/-- `KEY[i mod 4]` (42_mask_engine.md R150). -/
def keyAt (key : Key) (i : Nat) : Byte := [key.k0, key.k1, key.k2, key.k3].getD (i % 4) 0

/-- The turn is the block's, and `s0` is the state in which it takes it: `s` with that turn used up. -/
def BlockTurn (s s0 : State) : Prop :=
  (s.sched = [] ∧ s0 = s) ∨ (∃ rest, s.sched = .block :: rest ∧ s0 = { s with sched := rest })

/-- A function on states applied to a next state; a stop stays the stop. -/
def mapNext (f : State → State) : Result → Result
  | .next s => .next (f s)
  | .fault r => .fault r
  | .refused r => .refused r

/-- The block is idle and fault-free, the host's next command word is `w` with `rest` behind it, and every turn is the
block's. -/
def Ready (w : W72) (rest : List W72) (s : State) : Prop :=
  s.state = .idle ∧ s.err = .none ∧ s.cmds = w :: rest ∧ s.sched = []

/-- The end state `t` shows the ending of a big-step run; a hold is a state the step does not leave. -/
def Shows (e : Ending) (t : State) : Prop :=
  match e with
  | .ok => t.state = .idle ∧ t.phase = .pIdle ∧ t.err = .none
  | .faulted f => t.state = .fault ∧ t.err = f
  | .holds => t.state = .busy ∧ t.err = .none ∧ step t = .next t

/-- A run from `s` to `t` moved exactly the bytes of `r` from `RX` to `HOUT`, and touched nothing of the other ports. -/
def MovedRxHout (r : BigRun) (s t : State) : Prop :=
  t.rx = { s.rx with queue := s.rx.queue.drop r.taken } ∧ t.hout = s.hout ++ r.out ∧ t.hin = s.hin ∧ t.tx = s.tx

/-- The same from `HIN` to `TX`. -/
def MovedHinTx (r : BigRun) (s t : State) : Prop :=
  t.hin = { s.hin with queue := s.hin.queue.drop r.taken } ∧ t.tx = s.tx ++ r.out ∧ t.rx = s.rx ∧ t.hout = s.hout

/-- The same from `HIN` to `HOUT`. -/
def MovedHinHout (r : BigRun) (s t : State) : Prop :=
  t.hin = { s.hin with queue := s.hin.queue.drop r.taken } ∧ t.hout = s.hout ++ r.out ∧ t.rx = s.rx ∧ t.tx = s.tx

end Sys2Proof.Machine
end

