-- ==== Sys2Proof/Certificates/Slice0/Obligations.lean ====
section
/-! DEFINITION. The statements about the model, for the provers. Each docstring names the rules of spec/ it formalises. -/

open Sys2Proof Sys2Proof.Machine

/-- Words written out from 30_encoding.md R75 and R79, R80 decode to the instructions they stand for. -/
def Obligations.WordsOfTheNotationDecode : Prop :=
  decodeWord 0x010000000000000000 = .decode 0 0 ∧
  decodeWord 0x020000007D00000000 = .encode 125 0 ∧
  decodeWord 0x030000000537FA213D = .mask 5 0x37FA213D ∧
  decodeWord 0x040000000300000000 = .sha1 3 0 ∧
  decodeWord 0x050000001400000000 = .b64 20 0 ∧
  decodeWord 0x060000001800000000 = .accept 24 0 ∧
  decodeWord 0xFF00000000FFFFFFFF = .illegal 0xFF 0 0xFFFFFFFF ∧
  decode (.inbound [0x81, 0x85, 0x37]) = .ok (.frameIn7 0x81 5) [0x37] ∧
  decode (.inbound [0x81, 0xFE, 0x00, 0x7E]) = .ok (.frameIn16 0x81 126) [] ∧
  decode (.inbound [0x81, 0xFF]) = .ok (.frameIn64 0x81) [] ∧
  decode (.inbound [0x81, 0x7F]) = .ok (.frameInUnmasked 0x81 127) [] ∧
  decode (.outbound [0x81, 0x7D]) = .ok (.frameOut7 125) [] ∧
  decode (.outbound [0x81, 0x7E, 0x01, 0x00]) = .ok (.frameOut16 256) []

/-- Decoding undoes encoding, for every well-formed instruction and every operand, and reads no byte past it. -/
def Obligations.EncodedInstructionDecodesToItself : Prop :=
  ∀ i : Instr, WellFormed i = true →
    decode (encode i) = .ok i [] ∧
    (∀ bs more, encode i = .inbound bs → decode (.inbound (bs ++ more)) = .ok i more) ∧
    (∀ bs more, encode i = .outbound bs → decode (.outbound (bs ++ more)) = .ok i more)

/-- Whatever decodes to an instruction is that instruction's encoding with the rest behind it, and the instruction is
well formed but for an outbound 16-bit form below 126 (log 11). -/
def Obligations.DecodedInstructionEncodesBack : Prop :=
  ∀ (c : Code) (i : Instr) (rest : List Byte), decode c = .ok i rest →
    (match encode i with
      | .word w => c = .word w ∧ rest = []
      | .inbound bs => c = .inbound (bs ++ rest)
      | .outbound bs => c = .outbound (bs ++ rest)) ∧
    (WellFormed i = true ∨ ∃ n : W16, i = .frameOut16 n ∧ n.toNat < 126)

/-- 30_encoding.md R70: the three fields of the command word, the key bytes in `KEY`, and the opcode table on them. -/
def Obligations.CommandWordFields : Prop :=
  (∀ w : W72, w = cmdOp w ++ cmdLen w ++ cmdKey w) ∧
  (∀ k0 k1 k2 k3 : Byte, Key.ofWord (k0 ++ k1 ++ k2 ++ k3) = { k0 := k0, k1 := k1, k2 := k2, k3 := k3 }) ∧
  (∀ (op : Byte) (len key : W32), decodeWord (op ++ len ++ key) =
    if op = 1 then .decode len key else if op = 2 then .encode len key else if op = 3 then .mask len key
    else if op = 4 then .sha1 len key else if op = 5 then .b64 len key else if op = 6 then .accept len key
    else .illegal op len key)

/-- In a turn of the block, a step is `exec` of the instruction the command word decodes to: of the word at the head of
the channel when idle, of the running command when busy. In `FAULT`, and idle with no word waiting, the state stays. -/
def Obligations.StepRunsTheDecodedCommand : Prop :=
  ∀ s s0 : State, BlockTurn s s0 →
    (∀ w rest i, s0.state = .idle → s0.cmds = w :: rest → decode (.word w) = .ok i [] →
      step s = exec i { s0 with cmds := rest }) ∧
    (∀ i, s0.state = .busy → decode (.word (cmdWord s0.op s0.len s0.key.toWord)) = .ok i [] → step s = exec i s0) ∧
    (s0.state = .fault → step s = .next s0) ∧
    (s0.state = .idle → s0.cmds = [] → step s = .next s0)

/-- A step of the parser that takes the last byte of a frame header, and the step of the encoder that puts one out, are
`exec` of the header form that the bytes decode to. -/
def Obligations.StepRunsTheDecodedHeader : Prop :=
  (∀ (s : State) (b : Byte) (rest : List Byte) (i : Instr), s.sched = [] → Running 0x01 .dHdr1 s →
    s.rx.queue = b :: rest → decode (.inbound [s.hdr0, b]) = .ok i [] →
    step s = exec i { leaveRx rest s with hdr1 := b }) ∧
  (∀ (s : State) (b : Byte) (rest : List Byte) (i : Instr), s.sched = [] → Running 0x01 .dExt1 s → s.hdr1 = 0xFE →
    s.rx.queue = b :: rest → decode (.inbound [s.hdr0, s.hdr1, hi8 s.plen, b]) = .ok i [] →
    step s = exec i (leaveRx rest s)) ∧
  (∀ (s : State) (i : Instr), s.sched = [] → Running 0x02 .eHdr s → s.len.toNat ≤ 65535 →
    decode (.outbound (outHeader s.len)) = .ok i [] → step s = exec i s)

/-- The moves of the host and the peer (00_scope.md section 7): what each changes, the block's registers never, but for
reset. A move that is not allowed changes nothing (model's choice, log 7). -/
def Obligations.EnvironmentMoves : Prop :=
  ∀ (s : State) (m : Move) (rest : List Move), s.sched = m :: rest →
    (∀ w, m = .issue w → step s = .next { s with cmds := s.cmds ++ [w], sched := rest }) ∧
    (∀ b, m = .pushRx b → s.rx.closed = false →
      step s = .next { s with rx := { queue := s.rx.queue ++ [b], closed := false }, sched := rest }) ∧
    (∀ b, m = .pushHin b → s.hin.closed = false →
      step s = .next { s with hin := { queue := s.hin.queue ++ [b], closed := false }, sched := rest }) ∧
    (∀ b, m = .pushRx b → s.rx.closed = true → step s = .next { s with sched := rest }) ∧
    (∀ b, m = .pushHin b → s.hin.closed = true → step s = .next { s with sched := rest }) ∧
    (m = .closeRx → step s = .next { s with rx := { queue := s.rx.queue, closed := true }, sched := rest }) ∧
    (m = .closeHin → step s = .next { s with hin := { queue := s.hin.queue, closed := true }, sched := rest }) ∧
    (∀ b q, m = .popTx → s.tx = b :: q → step s = .next { s with tx := q, sched := rest }) ∧
    (∀ b q, m = .popHout → s.hout = b :: q → step s = .next { s with hout := q, sched := rest }) ∧
    (m = .popTx → s.tx = [] → step s = .next { s with sched := rest }) ∧
    (m = .popHout → s.hout = [] → step s = .next { s with sched := rest }) ∧
    (∀ i, m = .readStatus i → step s = .next { s with sched := rest })

/-- 10_state.md R24, command accept, for all six commands and the illegal words: the whole next state; and a busy or
faulted block takes no command word. The SHA-1 init (43_sha1.md R163) and `GFILL <- 0` (44_base64.md R192) are part of the
accept step of their commands. -/
def Obligations.CommandAcceptLatches : Prop :=
  (∀ (i : Instr) (w : W72) (s : State), WellFormed i = true → encode i = .word w → s.state = .idle →
    exec i s = .next { s with
      op := cmdOp w, len := cmdLen w, key := if cmdOp w = 0x03 then Key.ofWord (cmdKey w) else s.key,
      idx := 0, ocnt := 0, state := .busy, phase := firstPhase (cmdOp w),
      sha := if cmdOp w = 0x04 ∨ cmdOp w = 0x06 then
          { s.sha with
            h := { h0 := 0x67452301, h1 := 0xEFCDAB89, h2 := 0x98BADCFE, h3 := 0x10325476, h4 := 0xC3D2E1F0 },
            bfill := 0, mlen := 0 }
        else s.sha,
      b64 := if cmdOp w = 0x05 then { s.b64 with gfill := 0 } else s.b64 }) ∧
  (∀ (s t : State) (w : W72) (rest : List W72), s.sched = [] → s.state = .idle → s.cmds = w :: rest →
    step s = .next t → t.cmds = rest ∧ t.state = .busy) ∧
  (∀ s t : State, s.sched = [] → s.state ≠ .idle → step s = .next t → t.cmds = s.cmds)

/-- While one command runs, a command word with another opcode waits: executed in that state it changes nothing (10_state.md
section 2; model's choice of what executing it then means, log 1). -/
def Obligations.CommandWaitsWhileAnotherRuns : Prop :=
  ∀ (i : Instr) (w : W72) (s : State), encode i = .word w → s.state = .busy → s.op ≠ cmdOp w → exec i s = .next s

/-- 40_frame_parser.md R102, R105, phase `D_HDR0`: byte 0 is latched whole; under `STRICT_HDR` anything but `FIN` = 1,
bits 6:4 = 0, `OPCODE` = 0x1 faults `E_HDR` with one byte taken and nothing put out. -/
def Obligations.ByteZeroIsLatchedAndStrictlyTested : Prop :=
  ∀ (len key : W32) (s : State) (b : Byte) (rest : List Byte), Running 0x01 .dHdr0 s → s.rx.queue = b :: rest →
    (s.strictHdr = false →
      exec (.decode len key) s = .next { leaveRx rest s with hdr0 := b, phase := .dHdr1 }) ∧
    (s.strictHdr = true → b.getLsbD 7 = true → b.extractLsb' 4 3 = 0 → b.extractLsb' 0 4 = 1 →
      exec (.decode len key) s = .next { leaveRx rest s with hdr0 := b, phase := .dHdr1 }) ∧
    (s.strictHdr = true → (b.getLsbD 7 = false ∨ b.extractLsb' 4 3 ≠ 0 ∨ b.extractLsb' 0 4 ≠ 1) →
      exec (.decode len key) s = .next { leaveRx rest s with hdr0 := b, err := .eHdr, state := .fault })

/-- R103, R107, R108, phase `D_HDR1`: byte 1 is latched whole, then the mask bit, then the indicator against 125
and 126, then what is left; with the mask bit set only 0xFF is left. -/
def Obligations.ByteOneSelectsTheForm : Prop :=
  (∀ (len key : W32) (s : State) (b : Byte) (rest : List Byte), Running 0x01 .dHdr1 s → s.rx.queue = b :: rest →
    exec (.decode len key) s = .next (
      if b.getLsbD 7 = false then { leaveRx rest s with hdr1 := b, err := .eUnmasked, state := .fault }
      else if (b.extractLsb' 0 7).toNat ≤ 125 then
        { leaveRx rest s with hdr1 := b, plen := (b.extractLsb' 0 7).setWidth 16, phase := .dKey0 }
      else if (b.extractLsb' 0 7).toNat = 126 then { leaveRx rest s with hdr1 := b, plen := 0, phase := .dExt0 }
      else { leaveRx rest s with hdr1 := b, err := .eSize, state := .fault })) ∧
  (∀ b : Byte, b.getLsbD 7 = true → ((b.extractLsb' 0 7).toNat = 127 ↔ b = 0xFF))

/-- R106 and 30_encoding.md R81: an indicator of at most 125 is the payload length; at 126 the next two bytes are, as an
unsigned big-endian number, whatever it is. -/
def Obligations.LengthIndicatorGivesThePayloadLength : Prop :=
  ∀ (s : State) (b : Byte) (rest : List Byte), s.sched = [] → Running 0x01 .dHdr1 s → s.rx.queue = b :: rest →
    b.getLsbD 7 = true →
    ((b.extractLsb' 0 7).toNat ≤ 125 →
      ∃ t, step s = .next t ∧ t.phase = .dKey0 ∧ t.plen.toNat = (b.extractLsb' 0 7).toNat ∧ t.rx.queue = rest) ∧
    ((b.extractLsb' 0 7).toNat = 126 → ∀ (h l : Byte) (rest' : List Byte), rest = h :: l :: rest' →
      ∃ t, Host.Core.run core 3 s = .next t ∧ t.phase = .dKey0 ∧ t.plen.toNat = 256 * h.toNat + l.toNat ∧
        t.rx.queue = rest')

/-- R109, phases `D_EXT0` and `D_EXT1`: the two length bytes, high byte first, every value accepted; and the two phases
are entered only through `D_HDR1` with the indicator 126. -/
def Obligations.ExtendedLengthIsBigEndian : Prop :=
  (∀ (len key : W32) (s : State) (b : Byte) (rest : List Byte), Running 0x01 .dExt0 s → s.rx.queue = b :: rest →
    exec (.decode len key) s =
      .next { leaveRx rest s with plen := b ++ s.plen.extractLsb' 0 8, phase := .dExt1 }) ∧
  (∀ (len key : W32) (s : State) (b : Byte) (rest : List Byte), Running 0x01 .dExt1 s → s.rx.queue = b :: rest →
    exec (.decode len key) s =
      .next { leaveRx rest s with plen := s.plen.extractLsb' 8 8 ++ b, phase := .dKey0 }) ∧
  (∀ s t : State, s.sched = [] → step s = .next t → s.phase ≠ .dExt0 → t.phase = .dExt0 →
    Running 0x01 .dHdr1 s ∧ t.hdr1.getLsbD 7 = true ∧ (t.hdr1.extractLsb' 0 7).toNat = 126) ∧
  (∀ s t : State, s.sched = [] → step s = .next t → s.phase ≠ .dExt1 → t.phase = .dExt1 → Running 0x01 .dExt0 s)

/-- R110, phases `D_KEY0` to `D_KEY3`: the four key bytes, the first taken being `KEY[0]`, whatever `PLEN` and the bytes
are. -/
def Obligations.KeyBytesAreTakenInOrder : Prop :=
  ∀ (len key : W32) (s : State) (b : Byte) (rest : List Byte), s.rx.queue = b :: rest →
    (Running 0x01 .dKey0 s →
      exec (.decode len key) s = .next { leaveRx rest s with key := { s.key with k0 := b }, phase := .dKey1 }) ∧
    (Running 0x01 .dKey1 s →
      exec (.decode len key) s = .next { leaveRx rest s with key := { s.key with k1 := b }, phase := .dKey2 }) ∧
    (Running 0x01 .dKey2 s →
      exec (.decode len key) s = .next { leaveRx rest s with key := { s.key with k2 := b }, phase := .dKey3 }) ∧
    (Running 0x01 .dKey3 s →
      exec (.decode len key) s = .next { leaveRx rest s with key := { s.key with k3 := b }, phase := .dPay })

/-- R111, phase `D_PAY`: payload byte `i`, counted by `IDX`, is taken, XORed with `KEY[i mod 4]` and put on `HOUT`. -/
def Obligations.PayloadByteIsUnmaskedAtOnce : Prop :=
  ∀ (len key : W32) (s : State) (b : Byte) (rest : List Byte), Running 0x01 .dPay s → s.idx ≠ s.plen.setWidth 32 →
    s.rx.queue = b :: rest →
    exec (.decode len key) s = .next { leaveRx rest s with
      hout := s.hout ++ [b ^^^ keyAt s.key s.idx.toNat], ocnt := s.ocnt + 1, idx := s.idx + 1 }

/-- 10_state.md R25: completing sets `STATE <- IDLE` and `PHASE <- P_IDLE`; in `DECODE`, `ENCODE`, `MASK`, `SHA1` the step
that finds the count reached does nothing else; in `B64` and `ACCEPT` the step also puts out the last characters. -/
def Obligations.CompletionKeepsEveryOtherRegister : Prop :=
  ∀ (len key : W32) (s : State),
    (Running 0x01 .dPay s → s.idx = s.plen.setWidth 32 →
      exec (.decode len key) s = .next { s with state := .idle, phase := .pIdle }) ∧
    (Running 0x02 .ePay s → s.idx = s.len →
      exec (.encode len key) s = .next { s with state := .idle, phase := .pIdle }) ∧
    (Running 0x03 .mPay s → s.idx = s.len →
      exec (.mask len key) s = .next { s with state := .idle, phase := .pIdle }) ∧
    (Running 0x04 .sOut s → s.idx = 20 →
      exec (.sha1 len key) s = .next { s with state := .idle, phase := .pIdle }) ∧
    (Running 0x05 .bFin s → ∃ out : List Byte,
      exec (.b64 len key) s = .next { s with
        hout := s.hout ++ out, ocnt := s.ocnt + BitVec.ofNat 32 out.length, state := .idle, phase := .pIdle }) ∧
    (Running 0x06 .aOut s → ∃ (out : List Byte) (u : B64Unit),
      exec (.accept len key) s = .next { s with
        hout := s.hout ++ out, ocnt := s.ocnt + BitVec.ofNat 32 out.length, b64 := u, state := .idle, phase := .pIdle })

/-- The frame of `DECODE` (40_frame_parser.md section 6): what it never touches, which register it writes in which phase,
and that it does not read `LEN`. -/
def Obligations.DecodeFrame : Prop :=
  ∀ (len key : W32) (s t : State), exec (.decode len key) s = .next t →
    t.tx = s.tx ∧ t.hin = s.hin ∧ t.sha = s.sha ∧ t.b64 = s.b64 ∧ t.strictHdr = s.strictHdr ∧ t.cmds = s.cmds ∧
    t.sched = s.sched ∧ t.rx.closed = s.rx.closed ∧
    (∃ taken, s.rx.queue = taken ++ t.rx.queue ∧ taken.length ≤ 1) ∧
    (s.state ≠ .busy → t.rx = s.rx ∧ t.hout = s.hout ∧ t.key = s.key ∧ t.hdr0 = s.hdr0 ∧ t.hdr1 = s.hdr1 ∧
      t.plen = s.plen ∧ t.err = s.err) ∧
    (s.state ≠ .idle → t.len = s.len ∧ t.op = s.op) ∧
    (s.state = .busy → s.phase ≠ .dHdr0 → t.hdr0 = s.hdr0) ∧
    (s.state = .busy → s.phase ≠ .dHdr1 → t.hdr1 = s.hdr1) ∧
    (s.state = .busy → s.phase ≠ .dHdr1 → s.phase ≠ .dExt0 → s.phase ≠ .dExt1 → t.plen = s.plen) ∧
    (s.state = .busy → s.phase ≠ .dKey0 → s.phase ≠ .dKey1 → s.phase ≠ .dKey2 → s.phase ≠ .dKey3 → t.key = s.key) ∧
    (s.state = .busy → s.phase ≠ .dPay → t.hout = s.hout ∧ t.idx = s.idx ∧ t.ocnt = s.ocnt) ∧
    (s.state = .busy → ∀ x : W32, exec (.decode len key) { s with len := x } = .next { t with len := x })

/-- `DECODE`: the steps of the machine and the big-step function of 40_frame_parser.md section 4 agree, for every content
of `RX`, open or closed, and both settings of the strap: same ending, bytes taken, bytes put out, number of steps; and on
completion the registers describe the frame. -/
def Obligations.DecodeAgreesWithBigStep : Prop :=
  ∀ (s : State) (w : W72) (rest : List W72), Ready w rest s → cmdOp w = 0x01 →
    let r := decodeBig s.strictHdr s.rx.closed s.rx.queue
    ∃ t, Host.Core.run core (r.steps + 1) s = .next t ∧ Shows r.ending t ∧ MovedRxHout r s t ∧ t.cmds = rest ∧
      t.ocnt = BitVec.ofNat 32 r.out.length ∧
      (r.ending = .ok →
        t.hdr0 = byteAt s.rx.queue 0 ∧ t.hdr1 = byteAt s.rx.queue 1 ∧ t.plen.toNat = payloadLen s.rx.queue ∧
        t.idx.toNat = payloadLen s.rx.queue ∧
        t.key.k0 = byteAt s.rx.queue (headerLen s.rx.queue) ∧ t.key.k1 = byteAt s.rx.queue (headerLen s.rx.queue + 1) ∧
        t.key.k2 = byteAt s.rx.queue (headerLen s.rx.queue + 2) ∧ t.key.k3 = byteAt s.rx.queue (headerLen s.rx.queue + 3))

/-- 20_memory.md R53, `In` on either port, for every command and phase that needs a byte: the head byte is taken if there
is one; else `E_SHORT` if the port is closed; else a hold, which changes no state and lasts as long as the environment does
nothing. -/
def Obligations.InTakesFaultsOrHolds : Prop :=
  ∀ s : State, s.sched = [] → s.state = .busy → s.phase ∈ phasesOf s.op →
    (needsRx s = true →
      (∀ b rest, s.rx.queue = b :: rest →
        ∃ t, step s = .next t ∧ t.rx = { s.rx with queue := rest } ∧ t.hin = s.hin) ∧
      (s.rx.queue = [] → s.rx.closed = true → step s = .next { s with err := .eShort, state := .fault }) ∧
      (s.rx.queue = [] → s.rx.closed = false → ∀ k, Host.Core.run core k s = .next s)) ∧
    (needsHin s = true →
      (∀ b rest, s.hin.queue = b :: rest →
        ∃ t, step s = .next t ∧ t.hin = { s.hin with queue := rest } ∧ t.rx = s.rx) ∧
      (s.hin.queue = [] → s.hin.closed = true → step s = .next { s with err := .eShort, state := .fault }) ∧
      (s.hin.queue = [] → s.hin.closed = false → ∀ k, Host.Core.run core k s = .next s)) ∧
    (needsRx s = false → needsHin s = false → ∀ t, step s = .next t → t.rx = s.rx ∧ t.hin = s.hin)

/-- 20_memory.md R54, `Out`: bytes are appended at the tail of `TX` or `HOUT` and each adds 1 to `OCNT` modulo 2^32, `TX`
by `ENCODE` alone. -/
def Obligations.OutAppendsAndCounts : Prop :=
  ∀ s t : State, s.sched = [] → s.state = .busy → step s = .next t →
    ∃ a b : List Byte, t.tx = s.tx ++ a ∧ t.hout = s.hout ++ b ∧
      t.ocnt = s.ocnt + BitVec.ofNat 32 (a.length + b.length) ∧ (s.op ≠ 0x02 → a = []) ∧ (s.op = 0x02 → b = [])

/-- 30_encoding.md R83 and 41_frame_encoder.md R132, phase `E_HDR`: the form is chosen by `LEN` alone, byte 0 is 0x81, byte
1 has bit 7 clear, and the shortest form that fits is used. -/
def Obligations.EncoderHeaderByLength : Prop :=
  ∀ (len key : W32) (s : State), Running 0x02 .eHdr s →
    (s.len.toNat ≤ 125 →
      exec (.encode len key) s = .next { s with
        tx := s.tx ++ [0x81, s.len.extractLsb' 0 8], ocnt := s.ocnt + 2, phase := .ePay } ∧
      (s.len.extractLsb' 0 8).getLsbD 7 = false) ∧
    (126 ≤ s.len.toNat → s.len.toNat ≤ 65535 →
      exec (.encode len key) s = .next { s with
        tx := s.tx ++ [0x81, 126, s.len.extractLsb' 8 8, s.len.extractLsb' 0 8], ocnt := s.ocnt + 4, phase := .ePay }) ∧
    (65536 ≤ s.len.toNat → exec (.encode len key) s = .next { s with err := .eSize, state := .fault })

/-- 41_frame_encoder.md R135: a length of 65536 or more raises `E_SIZE` in `E_HDR` before any `Out` and any `In`: from a
ready block two steps lead to `FAULT` with nothing put on `TX` and nothing taken from `HIN`. -/
def Obligations.OverlongEncodeFaultsBeforeAnyByte : Prop :=
  ∀ (s : State) (w : W72) (rest : List W72), Ready w rest s → cmdOp w = 0x02 → 65536 ≤ (cmdLen w).toNat →
    Host.Core.run core 2 s = .next { s with
      cmds := rest, op := 0x02, len := cmdLen w, idx := 0, ocnt := 0, phase := .eHdr, err := .eSize, state := .fault }

/-- 41_frame_encoder.md section 3, phase `E_PAY`: a payload byte is copied from `HIN` to `TX` unchanged. -/
def Obligations.PayloadByteIsCopied : Prop :=
  ∀ (len key : W32) (s : State) (b : Byte) (rest : List Byte), Running 0x02 .ePay s → s.idx ≠ s.len →
    s.hin.queue = b :: rest →
    exec (.encode len key) s =
      .next { leaveHin rest s with tx := s.tx ++ [b], ocnt := s.ocnt + 1, idx := s.idx + 1 }

/-- The frame of `ENCODE` (41_frame_encoder.md section 7): ports and registers it never touches, and that it reads none of
`KEY`, `HDR0`, `HDR1`, `PLEN`, `RX`. -/
def Obligations.EncodeFrame : Prop :=
  ∀ (len key : W32) (s t : State), exec (.encode len key) s = .next t →
    t.rx = s.rx ∧ t.hout = s.hout ∧ t.key = s.key ∧ t.hdr0 = s.hdr0 ∧ t.hdr1 = s.hdr1 ∧ t.plen = s.plen ∧
    t.sha = s.sha ∧ t.b64 = s.b64 ∧ t.strictHdr = s.strictHdr ∧ t.cmds = s.cmds ∧ t.sched = s.sched ∧
    t.hin.closed = s.hin.closed ∧ (∃ taken, s.hin.queue = taken ++ t.hin.queue ∧ taken.length ≤ 1) ∧
    (∃ out, t.tx = s.tx ++ out) ∧
    (s.state ≠ .idle → t.len = s.len ∧ t.op = s.op) ∧
    (s.state ≠ .busy → t.hin = s.hin ∧ t.tx = s.tx ∧ t.err = s.err) ∧
    (∀ (k : Key) (a b : Byte) (n : W16) (p : InPort),
      exec (.encode len key) { s with key := k, hdr0 := a, hdr1 := b, plen := n, rx := p } =
        .next { t with key := k, hdr0 := a, hdr1 := b, plen := n, rx := p })

/-- 41_frame_encoder.md R133, R134, R136: the frame put out is the header by length, then the payload bytes as they are; the
steps of the machine and the big-step function of section 4 agree, for every `LEN` and every content of `HIN`, open or
closed. -/
def Obligations.EncodeAgreesWithBigStep : Prop :=
  ∀ (s : State) (w : W72) (rest : List W72), Ready w rest s → cmdOp w = 0x02 →
    let r := encodeBig (cmdLen w) s.hin.closed s.hin.queue
    ∃ t, Host.Core.run core (r.steps + 1) s = .next t ∧ Shows r.ending t ∧ MovedHinTx r s t ∧ t.cmds = rest ∧
      t.ocnt = BitVec.ofNat 32 r.out.length ∧ (r.ending = .ok → t.idx = cmdLen w)

/-- 42_mask_engine.md R150: `xor_mask` and `xor_mask_seq`, and a step of `MASK` puts out the byte the function gives. -/
def Obligations.MaskStepXorsWithKeyByte : Prop :=
  (∀ (key : Key) (p : List Byte), (xorMaskSeq key p).length = p.length) ∧
  (∀ (key : Key) (p : List Byte) (i : Nat) (b : Byte), p[i]? = some b →
    (xorMaskSeq key p)[i]? = some (b ^^^ keyAt key i)) ∧
  (∀ (len key : W32) (s : State) (b : Byte) (rest : List Byte), Running 0x03 .mPay s → s.idx ≠ s.len →
    s.hin.queue = b :: rest →
    exec (.mask len key) s = .next { leaveHin rest s with
      hout := s.hout ++ [b ^^^ keyAt s.key s.idx.toNat], ocnt := s.ocnt + 1, idx := s.idx + 1 })

/-- `MASK`: the steps of the machine and the big-step function of 42_mask_engine.md section 1 agree, for every `LEN`, key
and content of `HIN`, open or closed. -/
def Obligations.MaskAgreesWithBigStep : Prop :=
  ∀ (s : State) (w : W72) (rest : List W72), Ready w rest s → cmdOp w = 0x03 →
    let r := maskBig (cmdLen w) (Key.ofWord (cmdKey w)) s.hin.closed s.hin.queue
    ∃ t, Host.Core.run core (r.steps + 1) s = .next t ∧ Shows r.ending t ∧ MovedHinHout r s t ∧ t.cmds = rest ∧
      t.ocnt = BitVec.ofNat 32 r.out.length ∧ t.key = Key.ofWord (cmdKey w) ∧ (r.ending = .ok → t.idx = cmdLen w)

/-- 42_mask_engine.md R152: masking is self-inverse, as a function and on the machine: a `MASK` command over what a `MASK`
command with the same word put out puts out the first one's input. -/
def Obligations.MaskIsSelfInverse : Prop :=
  (∀ (key : Key) (p : List Byte), xorMaskSeq key (xorMaskSeq key p) = p) ∧
  (∀ (s : State) (w : W72) (rest : List W72) (p : List Byte), Ready w rest s → cmdOp w = 0x03 → s.hin.queue = p →
    (cmdLen w).toNat = p.length →
    ∃ (t : State) (c : List Byte), Host.Core.run core (p.length + 2) s = .next t ∧ t.state = .idle ∧
      t.hout = s.hout ++ c ∧ c.length = p.length ∧
      ∀ (s' : State) (rest' : List W72), Ready w rest' s' → s'.hin.queue = c →
        ∃ t', Host.Core.run core (p.length + 2) s' = .next t' ∧ t'.state = .idle ∧ t'.hout = s'.hout ++ p)

/-- 43_sha1.md R165, R166: the message schedule's first 16 words are the block's bytes, high byte first, and the words 16
to 79 follow the recurrence with its rotate by 1. 43_sha1.md R167 and 30_encoding.md R86: the initial chaining value; and
`compress` over that schedule, the working variables `a` to `e` (the fields of `v t` in order) after each of the 80 rounds
written out, with the four ranges of `f` and of `K(t)`, then the word by word addition to `H`. -/
def Obligations.MessageScheduleRecurrence : Prop :=
  shaIV = { h0 := 0x67452301, h1 := 0xEFCDAB89, h2 := 0x98BADCFE, h3 := 0x10325476, h4 := 0xC3D2E1F0 } ∧
  ∀ blk : List Byte,
    (∀ h : Chain, ∃ v : Nat → Chain,
      v 0 = h ∧
      (∀ (t : Nat) (f k : W32), t < 80 →
        f = (if t ≤ 19 then ((v t).h1 &&& (v t).h2) ||| (~~~(v t).h1 &&& (v t).h3)
          else if t ≤ 39 then (v t).h1 ^^^ (v t).h2 ^^^ (v t).h3
          else if t ≤ 59 then ((v t).h1 &&& (v t).h2) ||| ((v t).h1 &&& (v t).h3) ||| ((v t).h2 &&& (v t).h3)
          else (v t).h1 ^^^ (v t).h2 ^^^ (v t).h3) →
        k = (if t ≤ 19 then 0x5A827999 else if t ≤ 39 then 0x6ED9EBA1 else if t ≤ 59 then 0x8F1BBCDC
          else 0xCA62C1D6) →
        v (t + 1) =
          { h0 := (((v t).h0 <<< 5) ||| ((v t).h0 >>> 27)) + f + (v t).h4 + k + (schedule blk).getD t 0
            h1 := (v t).h0
            h2 := ((v t).h1 <<< 30) ||| ((v t).h1 >>> 2)
            h3 := (v t).h2
            h4 := (v t).h3 }) ∧
      compress h blk =
        { h0 := h.h0 + (v 80).h0, h1 := h.h1 + (v 80).h1, h2 := h.h2 + (v 80).h2, h3 := h.h3 + (v 80).h3,
          h4 := h.h4 + (v 80).h4 }) ∧
    (schedule blk).length = 80 ∧
    (∀ t, t < 16 → (schedule blk)[t]? = some (
      ((byteAt blk (4 * t)).setWidth 32 <<< 24) ||| ((byteAt blk (4 * t + 1)).setWidth 32 <<< 16) |||
      ((byteAt blk (4 * t + 2)).setWidth 32 <<< 8) ||| (byteAt blk (4 * t + 3)).setWidth 32)) ∧
    (∀ t, 16 ≤ t → t < 80 → ∃ x : W32,
      x = (schedule blk).getD (t - 3) 0 ^^^ (schedule blk).getD (t - 8) 0 ^^^ (schedule blk).getD (t - 14) 0 ^^^
        (schedule blk).getD (t - 16) 0 ∧
      (schedule blk)[t]? = some ((x <<< 1) ||| (x >>> 31)))

/-- 30_encoding.md R87: the padded message is the message, 0x80, the least number of zeros that leaves 56 modulo 64, and
the bit length in 8 bytes; its length is 64 (floor((L + 8) / 64) + 1). -/
def Obligations.PaddingFillsWholeBlocks : Prop :=
  ∀ m : List Byte,
    (shaPadded m).length = 64 * ((m.length + 8) / 64 + 1) ∧
    ∃ z : Nat, (m.length + 1 + z) % 64 = 56 ∧ (∀ z', (m.length + 1 + z') % 64 = 56 → z ≤ z') ∧
      shaPadded m = m ++ [0x80] ++ List.replicate z 0 ++
        (List.range 8).map (fun j => (BitVec.ofNat 64 (8 * m.length)).extractLsb' (56 - 8 * j) 8)

/-- 43_sha1.md R164, `absorb(b)`, in the absorbing phases of `SHA1` and `ACCEPT`: the byte goes to `BLK[BFILL]`, the counts
go up by one, and the 64th byte of a block makes the same step compress it. -/
def Obligations.AbsorbFillsTheBlock : Prop :=
  ∀ (len key : W32) (s : State) (b : Byte) (rest : List Byte) (blk : Vector Byte 64) (u : ShaUnit),
    s.sha.bfill.toNat < 64 → blk = s.sha.blk.setIfInBounds s.sha.bfill.toNat b →
    u = (if s.sha.bfill = 63 then
        { h := compress s.sha.h blk.toList, blk := blk, bfill := 0, mlen := s.sha.mlen + 1 }
      else { h := s.sha.h, blk := blk, bfill := s.sha.bfill + 1, mlen := s.sha.mlen + 1 }) →
    s.idx ≠ s.len → s.hin.queue = b :: rest →
    (Running 0x04 .sAbs s →
      exec (.sha1 len key) s = .next { leaveHin rest s with sha := u, idx := s.idx + 1 }) ∧
    (Running 0x06 .aTok s →
      exec (.accept len key) s = .next { leaveHin rest s with sha := u, idx := s.idx + 1 })

/-- 43_sha1.md R168, `finish()`, in `S_FIN` and `A_FIN`: afterwards `BFILL` = 0 and `H` is the chaining value after one
compression if `BFILL` was at most 55, after two if it was 56 to 63, of the bytes that R168 lays out. -/
def Obligations.FinishCompressesOneOrTwoBlocks : Prop :=
  ∀ (len key : W32) (s : State) (head lenBytes : List Byte) (u : ShaUnit), s.sha.bfill.toNat < 64 →
    head = s.sha.blk.toList.take s.sha.bfill.toNat ++ [0x80] →
    lenBytes = (List.range 8).map (fun j => (8 * s.sha.mlen).extractLsb' (56 - 8 * j) 8) →
    u = shaFinish s.sha →
    u.bfill = 0 ∧ u.mlen = s.sha.mlen ∧
    (s.sha.bfill.toNat ≤ 55 →
      u.h = compress s.sha.h (head ++ List.replicate (55 - s.sha.bfill.toNat) 0 ++ lenBytes)) ∧
    (56 ≤ s.sha.bfill.toNat →
      u.h = compress (compress s.sha.h (head ++ List.replicate (63 - s.sha.bfill.toNat) 0))
        (List.replicate 56 0 ++ lenBytes)) ∧
    (Running 0x04 .sFin s →
      exec (.sha1 len key) s = .next { s with sha := u, idx := 0, phase := .sOut }) ∧
    (Running 0x06 .aFin s →
      exec (.accept len key) s = .next { s with sha := u, phase := .aOut })

/-- 43_sha1.md R172, phase `S_OUT`: the digest leaves as `H[0]` to `H[4]`, each word high byte first. -/
def Obligations.DigestLeavesHighByteFirst : Prop :=
  ∀ (len key : W32) (s : State) (w : W32), Running 0x04 .sOut s → s.idx.toNat < 20 →
    [s.sha.h.h0, s.sha.h.h1, s.sha.h.h2, s.sha.h.h3, s.sha.h.h4][s.idx.toNat / 4]? = some w →
    exec (.sha1 len key) s = .next { s with
      hout := s.hout ++ [w.extractLsb' (24 - 8 * (s.idx.toNat % 4)) 8], ocnt := s.ocnt + 1, idx := s.idx + 1 }

/-- 43_sha1.md R162: the small-step machine computes `sha1`: for every message on `HIN`, open or closed, the run of `SHA1`
ends as the big-step form says with the digest on `HOUT`. -/
def Obligations.Sha1MachineComputesSha1 : Prop :=
  ∀ (s : State) (w : W72) (rest : List W72), Ready w rest s → cmdOp w = 0x04 →
    let r := sha1Big (cmdLen w) s.hin.closed s.hin.queue
    ∃ t, Host.Core.run core (r.steps + 1) s = .next t ∧ Shows r.ending t ∧ MovedHinHout r s t ∧ t.cmds = rest ∧
      t.ocnt = BitVec.ofNat 32 r.out.length ∧ (r.ending = .ok → t.idx = 20)

/-- 44_base64.md R193, phase `B_ABS`: the first two bytes of a group are stored, the third puts out the four characters
of the 24-bit value, most significant first. -/
def Obligations.ThirdByteEmitsTheGroup : Prop :=
  ∀ (len key : W32) (s : State) (b : Byte) (rest : List Byte), Running 0x05 .bAbs s → s.idx ≠ s.len →
    s.hin.queue = b :: rest →
    (s.b64.gfill = 0 → exec (.b64 len key) s =
      .next { leaveHin rest s with b64 := { s.b64 with g0 := b, gfill := 1 }, idx := s.idx + 1 }) ∧
    (s.b64.gfill = 1 → exec (.b64 len key) s =
      .next { leaveHin rest s with b64 := { s.b64 with g1 := b, gfill := 2 }, idx := s.idx + 1 }) ∧
    (s.b64.gfill = 2 → ∀ v : BitVec 24,
      v = (s.b64.g0.setWidth 24 <<< 16) ||| (s.b64.g1.setWidth 24 <<< 8) ||| b.setWidth 24 →
      exec (.b64 len key) s = .next { leaveHin rest s with
        b64 := { s.b64 with g2 := b, gfill := 0 }, idx := s.idx + 1,
        hout := s.hout ++ [alpha (v.extractLsb' 18 6), alpha (v.extractLsb' 12 6), alpha (v.extractLsb' 6 6),
          alpha (v.extractLsb' 0 6)],
        ocnt := s.ocnt + 4 })

/-- 44_base64.md R195, phase `B_FIN`: the tail by `GFILL`, unsupplied bits 0, padded with `=`; then the command is
complete. -/
def Obligations.TailIsPaddedAndCompletes : Prop :=
  ∀ (len key : W32) (s : State), Running 0x05 .bFin s →
    (s.b64.gfill = 0 → exec (.b64 len key) s = .next { s with state := .idle, phase := .pIdle }) ∧
    (s.b64.gfill = 1 → ∀ v : BitVec 24, v = s.b64.g0.setWidth 24 <<< 16 →
      exec (.b64 len key) s = .next { s with
        hout := s.hout ++ [alpha (v.extractLsb' 18 6), alpha (v.extractLsb' 12 6), 0x3D, 0x3D],
        ocnt := s.ocnt + 4, state := .idle, phase := .pIdle }) ∧
    (s.b64.gfill = 2 → ∀ v : BitVec 24,
      v = (s.b64.g0.setWidth 24 <<< 16) ||| (s.b64.g1.setWidth 24 <<< 8) →
      exec (.b64 len key) s = .next { s with
        hout := s.hout ++ [alpha (v.extractLsb' 18 6), alpha (v.extractLsb' 12 6), alpha (v.extractLsb' 6 6), 0x3D],
        ocnt := s.ocnt + 4, state := .idle, phase := .pIdle })

/-- 44_base64.md R196: the small-step machine computes `b64`, for every input on `HIN`, open or closed; on a short input
only whole groups are put out. -/
def Obligations.B64MachineComputesB64 : Prop :=
  ∀ (s : State) (w : W72) (rest : List W72), Ready w rest s → cmdOp w = 0x05 →
    let r := b64Big (cmdLen w) s.hin.closed s.hin.queue
    ∃ t, Host.Core.run core (r.steps + 1) s = .next t ∧ Shows r.ending t ∧ MovedHinHout r s t ∧ t.cmds = rest ∧
      t.ocnt = BitVec.ofNat 32 r.out.length ∧ (r.ending = .ok → t.idx = cmdLen w)

/-- 44_base64.md R194: the output length is 4 ceil(n / 3), 28 for the 20-byte digest. -/
def Obligations.Base64OutputLength : Prop :=
  ∀ d : List Byte, (b64 d).length = 4 * ((d.length + 2) / 3) ∧ (d.length = 20 → (b64 d).length = 28)

/-- 30_encoding.md R88: the alphabet, and no character of it is the padding. -/
def Obligations.Base64Alphabet : Prop :=
  ∀ v : BitVec 6,
    (alpha v).toNat =
      (if v.toNat ≤ 25 then 0x41 + v.toNat else if v.toNat ≤ 51 then 0x61 + (v.toNat - 26)
        else if v.toNat ≤ 61 then 0x30 + (v.toNat - 52) else if v.toNat = 62 then 0x2B else 0x2F) ∧
    padChar = 0x3D ∧ alpha v ≠ padChar

/-- `ACCEPT`'s phases without `In` (45_accept.md section 2): the token count reached, the 36 bytes of the constant after
the token with nothing between (30_encoding.md R85), and the output step, which completes with exactly 28 characters, the
base64 text of the digest. -/
def Obligations.AcceptPhasesRun : Prop :=
  guid = "258EAFA5-E914-47DA-95CA-C5AB0DC85B11".toList.map (fun c => BitVec.ofNat 8 c.toNat) ∧
  ∀ (len key : W32) (s : State),
    (Running 0x06 .aTok s → s.idx = s.len → exec (.accept len key) s = .next { s with phase := .aGuid }) ∧
    (Running 0x06 .aGuid s →
      exec (.accept len key) s = .next { s with sha := guid.foldl (fun u b => absorb b u) s.sha, phase := .aFin }) ∧
    (Running 0x06 .aOut s → ∃ u : B64Unit,
      exec (.accept len key) s = .next { s with
        hout := s.hout ++ b64 (digestBytes s.sha.h), ocnt := s.ocnt + 28, b64 := u, state := .idle, phase := .pIdle } ∧
      (b64 (digestBytes s.sha.h)).length = 28)

/-- 45_accept.md R205: for every token on `HIN`, open or closed, the run of `ACCEPT` ends as the big-step form says, with
the base64 text of the SHA-1 digest of the token and the constant on `HOUT`; and with the token fully supplied it
completes, whatever the token. -/
def Obligations.AcceptMachineComputesTheToken : Prop :=
  ∀ (s : State) (w : W72) (rest : List W72), Ready w rest s → cmdOp w = 0x06 →
    let r := acceptBig (cmdLen w) s.hin.closed s.hin.queue
    (∃ t, Host.Core.run core (r.steps + 1) s = .next t ∧ Shows r.ending t ∧ MovedHinHout r s t ∧ t.cmds = rest ∧
      t.ocnt = BitVec.ofNat 32 r.out.length ∧ (r.ending = .ok → t.idx = cmdLen w)) ∧
    ((cmdLen w).toNat ≤ s.hin.queue.length →
      r.ending = .ok ∧ r.out = b64 (sha1 (s.hin.queue.take (cmdLen w).toNat ++ guid)))

/-- `ACCEPT` on a token puts out what `SHA1` on token and constant and then `B64` on the digest put out (45_accept.md
section 3). -/
def Obligations.AcceptEqualsSha1ThenB64 : Prop :=
  ∀ (token : List Byte) (sa ss : State) (wa ws : W72) (ra rs : List W72), token.length + 36 < 2 ^ 32 →
    Ready wa ra sa → cmdOp wa = 0x06 → (cmdLen wa).toNat = token.length → sa.hin.queue = token →
    Ready ws rs ss → cmdOp ws = 0x04 → (cmdLen ws).toNat = token.length + 36 → ss.hin.queue = token ++ guid →
    ∃ (ta ts : State) (out digest : List Byte),
      Host.Core.run core (token.length + 5) sa = .next ta ∧ ta.state = .idle ∧ ta.hout = sa.hout ++ out ∧
      Host.Core.run core (token.length + 60) ss = .next ts ∧ ts.state = .idle ∧ ts.hout = ss.hout ++ digest ∧
      digest.length = 20 ∧ out.length = 28 ∧
      ∀ (sb : State) (wb : W72) (rb : List W72), Ready wb rb sb → cmdOp wb = 0x05 → cmdLen wb = 20 →
        sb.hin.queue = digest →
        ∃ tb, Host.Core.run core 23 sb = .next tb ∧ tb.state = .idle ∧ tb.hout = sb.hout ++ out

/-- `SHA1` and `B64` go on when the count is reached (43_sha1.md section 2, 44_base64.md section 2). -/
def Obligations.AbsorbingEndsAtTheCount : Prop :=
  ∀ (len key : W32) (s : State), s.idx = s.len →
    (Running 0x04 .sAbs s → exec (.sha1 len key) s = .next { s with phase := .sFin }) ∧
    (Running 0x05 .bAbs s → exec (.b64 len key) s = .next { s with phase := .bFin })

/-- 60_exceptions.md R225: a command word with an illegal opcode is accepted and its first step raises `E_ILLEGAL_OP`; no
port is touched and `OP` and `LEN` hold the word's fields. -/
def Obligations.IllegalOpcodeFaultsInItsFirstStep : Prop :=
  ∀ (op : Byte) (len key : W32) (s : State), (op = 0 ∨ 7 ≤ op.toNat) →
    (Running op .pIdle s →
      exec (.illegal op len key) s = .next { s with err := .eIllegalOp, state := .fault }) ∧
    (∀ rest, Ready (cmdWord op len key) rest s →
      Host.Core.run core 2 s = .next { s with
        cmds := rest, op := op, len := len, idx := 0, ocnt := 0, phase := .pIdle, err := .eIllegalOp,
        state := .fault })

/-- The four inbound header forms in the phase that completes them (30_encoding.md section 3, 40_frame_parser.md section
3), and that a form changes nothing in any other state (log 10). -/
def Obligations.InboundFormsExecute : Prop :=
  ∀ (hdr0 : Byte) (ind : BitVec 7) (plen : W16) (s : State),
    (s.state = .busy → s.phase = .dHdr1 →
      (ind.toNat ≤ 125 → exec (.frameIn7 hdr0 ind) s = .next { s with
        hdr0 := hdr0, hdr1 := 0x80 ||| ind.setWidth 8, plen := ind.setWidth 16, phase := .dKey0 }) ∧
      exec (.frameIn64 hdr0) s = .next { s with hdr0 := hdr0, hdr1 := 0xFF, err := .eSize, state := .fault } ∧
      exec (.frameInUnmasked hdr0 ind) s = .next { s with
        hdr0 := hdr0, hdr1 := ind.setWidth 8, err := .eUnmasked, state := .fault }) ∧
    (s.state = .busy → s.phase = .dExt1 →
      exec (.frameIn16 hdr0 plen) s = .next { s with hdr0 := hdr0, hdr1 := 0xFE, plen := plen, phase := .dKey0 }) ∧
    (¬(s.state = .busy ∧ s.phase = .dHdr1) →
      exec (.frameIn7 hdr0 ind) s = .next s ∧ exec (.frameIn64 hdr0) s = .next s ∧
      exec (.frameInUnmasked hdr0 ind) s = .next s) ∧
    (¬(s.state = .busy ∧ s.phase = .dExt1) → exec (.frameIn16 hdr0 plen) s = .next s)

/-- The two outbound header forms in phase `E_HDR`: the bytes put on `TX` are the form's encoding (30_encoding.md section
3); and a form changes nothing in any other state (log 10). -/
def Obligations.OutboundFormsExecute : Prop :=
  ∀ (i : Instr) (bs : List Byte) (s : State), WellFormed i = true → encode i = .outbound bs →
    (s.state = .busy → s.phase = .eHdr →
      exec i s = .next { s with tx := s.tx ++ bs, ocnt := s.ocnt + BitVec.ofNat 32 bs.length, phase := .ePay }) ∧
    (¬(s.state = .busy ∧ s.phase = .eHdr) → exec i s = .next s)

/-- The frame of `MASK`, `SHA1`, `B64` and `ACCEPT`: ports and registers they never touch, and which of them writes `KEY`,
the SHA-1 registers and the base64 registers (10_state.md sections 3 and 4). -/
def Obligations.HostSideCommandsFrame : Prop :=
  ∀ (i : Instr) (len key : W32) (s t : State),
    (i = .mask len key ∨ i = .sha1 len key ∨ i = .b64 len key ∨ i = .accept len key) → exec i s = .next t →
    t.rx = s.rx ∧ t.tx = s.tx ∧ t.hdr0 = s.hdr0 ∧ t.hdr1 = s.hdr1 ∧ t.plen = s.plen ∧ t.strictHdr = s.strictHdr ∧
    t.cmds = s.cmds ∧ t.sched = s.sched ∧ t.hin.closed = s.hin.closed ∧
    (∃ taken, s.hin.queue = taken ++ t.hin.queue ∧ taken.length ≤ 1) ∧
    (∃ out, t.hout = s.hout ++ out) ∧
    (i ≠ .mask len key → t.key = s.key) ∧ (s.state ≠ .idle → t.key = s.key ∧ t.len = s.len ∧ t.op = s.op) ∧
    ((i = .mask len key ∨ i = .b64 len key) → t.sha = s.sha) ∧
    ((i = .mask len key ∨ i = .sha1 len key) → t.b64 = s.b64) ∧
    (s.state ≠ .busy → t.hin = s.hin ∧ t.hout = s.hout ∧ t.err = s.err)

/-- 60_exceptions.md R226: taking a fault writes `ERR` and `STATE` and nothing else, but for the header byte the same step
had just taken and latched; `PHASE` and every other register and port stay. -/
def Obligations.RaiseWritesOnlyErrAndState : Prop :=
  ∀ s t : State, s.sched = [] → s.state = .busy → step s = .next t → t.state = .fault →
    t.err ≠ .none ∧
    (t = { s with err := t.err, state := .fault } ∨
      ∃ b rest, s.rx.queue = b :: rest ∧
        ((s.phase = .dHdr0 ∧ t.err = .eHdr ∧ t = { leaveRx rest s with hdr0 := b, err := .eHdr, state := .fault }) ∨
         (s.phase = .dHdr1 ∧ (t.err = .eUnmasked ∨ t.err = .eSize) ∧
          t = { leaveRx rest s with hdr1 := b, err := t.err, state := .fault })))

/-- 60_exceptions.md R229: `FAULT` is absorbing: no instruction does anything in it, and through any number of steps in
which no reset is scheduled every register keeps its value; the status port still answers. -/
def Obligations.FaultIsAbsorbing : Prop :=
  ∀ s : State, s.state = .fault →
    (∀ i : Instr, exec i s = .next s) ∧
    (∀ (k : Nat) (t : State), (∀ strap, Move.reset strap ∉ s.sched) → Host.Core.run core k s = .next t →
      t.state = .fault ∧ t.sha = s.sha ∧ t.b64 = s.b64 ∧ (∀ i, statusRead t i = statusRead s i) ∧
      (s.sched = [] → t = s))

/-- 10_state.md R23: the values of `STATE` and its transitions. -/
def Obligations.SequencerTransitions : Prop :=
  ∀ s t : State, step s = .next t →
    ((statusRead s 0).toNat = 0 ∧ s.state = .idle ∨ (statusRead s 0).toNat = 1 ∧ s.state = .busy ∨
      (statusRead s 0).toNat = 2 ∧ s.state = .fault) ∧
    (s.sched = [] → s.state = .idle → (t.state = .busy ∧ ∃ w, s.cmds = w :: t.cmds) ∨ (s.cmds = [] ∧ t = s)) ∧
    (s.sched = [] → s.state = .busy → t.state = .idle → t.phase = .pIdle ∧ t.err = s.err) ∧
    (s.sched = [] → s.state = .busy → t.state = .fault → t.err ≠ .none ∧ t.phase = s.phase) ∧
    (s.sched = [] → s.state = .fault → t.state = .fault) ∧
    (∀ m rest, s.sched = m :: rest → m ≠ .block → (∀ strap, m ≠ .reset strap) → t.state = s.state) ∧
    (∀ strap rest, s.sched = .reset strap :: rest → t.state = .idle)

/-- 60_exceptions.md R220: the codes in `ERR`, and which command raises which and when. -/
def Obligations.FaultCodesAndCauses : Prop :=
  (∀ (s : State) (n : Nat), statusRead s 1 = BitVec.ofNat 32 n ∧ n < 6 ↔
    (s.err = .none ∧ n = 0 ∨ s.err = .eSize ∧ n = 1 ∨ s.err = .eShort ∧ n = 2 ∨ s.err = .eUnmasked ∧ n = 3 ∨
      s.err = .eHdr ∧ n = 4 ∨ s.err = .eIllegalOp ∧ n = 5)) ∧
  (∀ s t : State, s.sched = [] → s.state = .busy → s.phase ∈ phasesOf s.op → step s = .next t → t.state = .fault →
    (t.err = .eSize ∧ (s.op = 0x01 ∧ t.hdr1 = 0xFF ∨ s.op = 0x02 ∧ 65536 ≤ s.len.toNat)) ∨
    (t.err = .eShort ∧ (needsRx s = true ∧ s.rx.queue = [] ∧ s.rx.closed = true ∨
      needsHin s = true ∧ s.hin.queue = [] ∧ s.hin.closed = true)) ∨
    (t.err = .eUnmasked ∧ s.op = 0x01 ∧ t.hdr1.getLsbD 7 = false) ∨
    (t.err = .eHdr ∧ s.op = 0x01 ∧ s.strictHdr = true ∧ t.hdr0 ≠ 0x81) ∨
    (t.err = .eIllegalOp ∧ (s.op = 0 ∨ 7 ≤ s.op.toNat)))

/-- 10_state.md R43 and 70_reset_and_hazards.md R250, R251, R253: reset from any state, in one step: every status register
0, the ports and their `closed` flags as they were, the strap sampled, as in no other step; and the reset state has the same registers. What
the SHA-1 and base64 working registers hold is not stated: the spec leaves it unspecified (log 4). -/
def Obligations.ResetFromAnyState : Prop :=
  (∀ (s : State) (strap : Bool) (rest : List Move), s.sched = .reset strap :: rest →
    ∃ t, step s = .next t ∧ t.state = .idle ∧ t.err = .none ∧ t.phase = .pIdle ∧ (∀ i, statusRead t i = 0) ∧
      t.strictHdr = strap ∧ t.rx = s.rx ∧ t.hin = s.hin ∧ t.tx = s.tx ∧ t.hout = s.hout) ∧
  (∀ s t : State, step s = .next t → (∀ strap rest, s.sched ≠ .reset strap :: rest) → t.strictHdr = s.strictHdr) ∧
  State.reset.state = .idle ∧ State.reset.err = .none ∧ State.reset.phase = .pIdle ∧
  (∀ i, statusRead State.reset i = 0)

/-- The status port (10_state.md sections 1, 2 and 9, 20_memory.md section 6, 60_exceptions.md section 1): which register each
index reads, zero-extended, with the codes of `STATE`, of `ERR` and of the 22 phases, and `KEY[0]` most significant; 11 to
15 read 0. -/
def Obligations.StatusPortReadsTheRegisters : Prop :=
  ∀ s : State,
    (statusRead s 0).toNat = (match s.state with | .idle => 0 | .busy => 1 | .fault => 2) ∧
    (statusRead s 1).toNat = (match s.err with
      | .none => 0 | .eSize => 1 | .eShort => 2 | .eUnmasked => 3 | .eHdr => 4 | .eIllegalOp => 5) ∧
    statusRead s 2 = s.op.setWidth 32 ∧ statusRead s 3 = s.len ∧
    (statusRead s 4).toNat =
      s.key.k0.toNat * 2 ^ 24 + s.key.k1.toNat * 2 ^ 16 + s.key.k2.toNat * 2 ^ 8 + s.key.k3.toNat ∧
    (statusRead s 5).toNat = (match s.phase with
      | .pIdle => 0 | .dHdr0 => 1 | .dHdr1 => 2 | .dExt0 => 3 | .dExt1 => 4 | .dKey0 => 5 | .dKey1 => 6 | .dKey2 => 7
      | .dKey3 => 8 | .dPay => 9 | .eHdr => 10 | .ePay => 11 | .mPay => 12 | .sAbs => 13 | .sFin => 14 | .sOut => 15
      | .bAbs => 16 | .bFin => 17 | .aTok => 18 | .aGuid => 19 | .aFin => 20 | .aOut => 21) ∧
    statusRead s 6 = s.idx ∧ statusRead s 7 = s.ocnt ∧
    (statusRead s 8).toNat = s.hdr0.toNat ∧ (statusRead s 9).toNat = s.hdr1.toNat ∧
    (statusRead s 10).toNat = s.plen.toNat ∧ (∀ i : BitVec 4, 11 ≤ i.toNat → statusRead s i = 0)

/-- The invariant holds in the reset state. That `BFILL` < 64 and `GFILL` ≤ 2 there is the model's choice (zeros, log 4); the
spec leaves these two registers unspecified after reset. -/
def Obligations.ResetMeetsTheInvariant : Prop := Inv State.reset

/-- Every step keeps the invariant, in every turn, whatever the environment does: `ERR` is 0 exactly outside `FAULT`,
`PHASE` is a phase of the command in `OP`, `BFILL` < 64, `GFILL` ≤ 2, the counters agree phase by phase. Over a turn that is
a reset, the two clauses on `BFILL` and `GFILL` rest on the model's choice of zeros (log 4); 10_state.md section 10 leaves
both registers unspecified after reset. -/
def Obligations.StepKeepsTheInvariant : Prop :=
  ∀ s t : State, Inv s → step s = .next t → Inv t

/-- From a state that meets the invariant a step always answers a next state: no fault of the model and no refusal. -/
def Obligations.InvariantNeverStops : Prop :=
  ∀ s : State, Inv s → ∃ t, step s = .next t

/-- 70_reset_and_hazards.md R263: the block makes no progress in exactly these cases: a byte is needed from an empty open
port; `FAULT`; idle with no command. The case of an output receiver that is never ready does not show (log 13). -/
def Obligations.BlockWaitsExactlyWhenItMust : Prop :=
  ∀ s : State, Inv s → s.sched = [] → (step s = .next s ↔ Waiting s)

/-- Where environment steps fall does not matter (20_memory.md section 7): a byte pushed on, or a close of, an input port
that the block's step does not find empty, and a byte popped from an output port that is not empty, commute with the
block's step; a command word issued behind a waiting one does too. -/
def Obligations.EnvironmentStepsCommute : Prop :=
  ∀ (s : State) (b : Byte) (w : W72), s.sched = [] →
    ((s.rx.queue ≠ [] ∨ needsRx s = false) →
      step (pushRx b s) = mapNext (pushRx b) (step s) ∧ step (closeRx s) = mapNext closeRx (step s)) ∧
    ((s.hin.queue ≠ [] ∨ needsHin s = false) →
      step (pushHin b s) = mapNext (pushHin b) (step s) ∧ step (closeHin s) = mapNext closeHin (step s)) ∧
    (s.tx ≠ [] → step (popTx s) = mapNext popTx (step s)) ∧
    (s.hout ≠ [] → step (popHout s) = mapNext popHout (step s)) ∧
    ((s.state ≠ .idle ∨ s.cmds ≠ []) → step (issue w s) = mapNext (issue w) (step s))

/-- No state carries from one command to the next (10_state.md section 8): two ready blocks with the same command, input
ports and strap go through the same steps and put out the same bytes, whatever their registers held. -/
def Obligations.NoStateCarriesOver : Prop :=
  ∀ (s s' t : State) (w : W72) (rest : List W72) (k : Nat), Ready w rest s → Ready w rest s' → s.rx = s'.rx →
    s.hin = s'.hin → s.strictHdr = s'.strictHdr → Host.Core.run core (k + 1) s = .next t →
    ∃ (t' : State) (a b : List Byte), Host.Core.run core (k + 1) s' = .next t' ∧
      t.state = t'.state ∧ t.err = t'.err ∧ t.phase = t'.phase ∧ t.op = t'.op ∧ t.len = t'.len ∧ t.idx = t'.idx ∧
      t.ocnt = t'.ocnt ∧ t.rx = t'.rx ∧ t.hin = t'.hin ∧ t.cmds = t'.cmds ∧
      t.tx = s.tx ++ a ∧ t'.tx = s'.tx ++ a ∧ t.hout = s.hout ++ b ∧ t'.hout = s'.hout ++ b

/-- The round trip (90_conflicts.md C6, 95_test_vectors.md V6): the frame `ENCODE` puts out for a payload of at most 65535
bytes, masked by the harness with any key, is decoded by `DECODE` to that payload, under either setting of the strap, with
no byte after the frame taken. -/
def Obligations.EncodeThenDecodeReproducesThePayload : Prop :=
  ∀ (p : List Byte) (s : State) (w : W72) (rest : List W72), p.length ≤ 65535 → Ready w rest s → cmdOp w = 0x02 →
    (cmdLen w).toNat = p.length → s.hin.queue = p →
    ∃ (t : State) (f : List Byte), Host.Core.run core (p.length + 3) s = .next t ∧ t.state = .idle ∧
      t.tx = s.tx ++ f ∧
      ∀ (key : Key) (s' : State) (w' : W72) (rest' : List W72) (more : List Byte), Ready w' rest' s' →
        cmdOp w' = 0x01 → s'.rx.queue = remask key f ++ more →
        ∃ (t' : State) (k : Nat), Host.Core.run core k s' = .next t' ∧ t'.state = .idle ∧ t'.err = .none ∧
          t'.hout = s'.hout ++ p ∧ t'.rx.queue = more
end

