-- ==== Sys2Proof/Laws/Decode.lean ====
section
/-! SUPPORT. The fields of a command word and the forms of frame byte 1, each said once. -/

namespace Sys2Proof

@[simp] theorem cmdOp_cmdWord (op : Byte) (len key : W32) : cmdOp (cmdWord op len key) = op := by
  apply BitVec.eq_of_getLsbD_eq
  intro i hi
  simp only [cmdOp, cmdWord, BitVec.getLsbD_extractLsb', BitVec.getLsbD_append]
  rw [if_neg (by omega), if_neg (by omega), show 64 + i - 32 - 32 = i by omega]
  simp [hi]

@[simp] theorem cmdLen_cmdWord (op : Byte) (len key : W32) : cmdLen (cmdWord op len key) = len := by
  apply BitVec.eq_of_getLsbD_eq
  intro i hi
  simp only [cmdLen, cmdWord, BitVec.getLsbD_extractLsb', BitVec.getLsbD_append]
  simp [hi]

@[simp] theorem cmdKey_cmdWord (op : Byte) (len key : W32) : cmdKey (cmdWord op len key) = key := by
  apply BitVec.eq_of_getLsbD_eq
  intro i hi
  simp only [cmdKey, cmdWord, BitVec.getLsbD_extractLsb', BitVec.getLsbD_append]
  simp [hi]

/-- Every command word is its three fields (30_encoding.md R70). -/
theorem cmdWord_fields (w : W72) : cmdWord (cmdOp w) (cmdLen w) (cmdKey w) = w := by
  apply BitVec.eq_of_getLsbD_eq
  intro i hi
  simp only [cmdOp, cmdLen, cmdKey, cmdWord, BitVec.getLsbD_extractLsb', BitVec.getLsbD_append]
  by_cases h1 : i < 32
  · simp [h1]
  · by_cases h2 : i - 32 < 32
    · simp [h1, h2, show 32 + (i - 32) = i by omega]
    · simp [h1, h2, show 64 + (i - 32 - 32) = i by omega, show i - 32 - 32 < 8 by omega]

/-- Decoding a word made of three fields: the table of R71 on its opcode. -/
theorem decodeWord_cmdWord (op : Byte) (len key : W32) :
    decodeWord (cmdWord op len key) =
      if op = 0x01 then .decode len key else if op = 0x02 then .encode len key else if op = 0x03 then .mask len key
      else if op = 0x04 then .sha1 len key else if op = 0x05 then .b64 len key else if op = 0x06 then .accept len key
      else .illegal op len key := by
  simp [decodeWord]

/-- Byte 1 with its mask bit clear is 0 and the indicator. -/
theorem byte1_unmasked : ∀ b : Byte, maskBit b = false → 0#1 ++ indOf b = b := by decide +kernel

/-- Byte 1 with its mask bit set is 1 and the indicator. -/
theorem byte1_masked : ∀ b : Byte, maskBit b = true → 1#1 ++ indOf b = b := by decide +kernel

@[simp] theorem hi8_be16 (h l : Byte) : hi8 (be16 h l) = h := by
  apply BitVec.eq_of_getLsbD_eq
  intro i hi
  simp only [hi8, be16, BitVec.getLsbD_append, BitVec.getLsbD_extractLsb']
  rw [if_neg (by omega), show 8 + i - 8 = i by omega]
  simp [hi]

@[simp] theorem lo8_be16 (h l : Byte) : lo8 (be16 h l) = l := by
  apply BitVec.eq_of_getLsbD_eq
  intro i hi
  simp only [lo8, be16, BitVec.getLsbD_append, BitVec.getLsbD_extractLsb']
  simp [hi]

@[simp] theorem be16_hi8_lo8 (n : W16) : be16 (hi8 n) (lo8 n) = n := by
  apply BitVec.eq_of_getLsbD_eq
  intro i hi
  simp only [hi8, lo8, be16, BitVec.getLsbD_append, BitVec.getLsbD_extractLsb']
  by_cases h : i < 8
  · simp [h]
  · simp [h, show 8 + (i - 8) = i by omega, show i - 8 < 8 by omega]

end Sys2Proof
end

