-- ==== Sys2Proof/Laws/State.lean ====
section
/-! SUPPORT. Each field of the state after each named update, true by rfl, so that no proof unfolds a record update. -/

namespace Sys2Proof.Machine

@[simp] theorem raise_state (e : Err) (s : State) : (raise e s).state = .fault := rfl
@[simp] theorem raise_err (e : Err) (s : State) : (raise e s).err = e := rfl
@[simp] theorem raise_op (e : Err) (s : State) : (raise e s).op = s.op := rfl
@[simp] theorem raise_len (e : Err) (s : State) : (raise e s).len = s.len := rfl
@[simp] theorem raise_key (e : Err) (s : State) : (raise e s).key = s.key := rfl
@[simp] theorem raise_phase (e : Err) (s : State) : (raise e s).phase = s.phase := rfl
@[simp] theorem raise_idx (e : Err) (s : State) : (raise e s).idx = s.idx := rfl
@[simp] theorem raise_ocnt (e : Err) (s : State) : (raise e s).ocnt = s.ocnt := rfl
@[simp] theorem raise_hdr0 (e : Err) (s : State) : (raise e s).hdr0 = s.hdr0 := rfl
@[simp] theorem raise_hdr1 (e : Err) (s : State) : (raise e s).hdr1 = s.hdr1 := rfl
@[simp] theorem raise_plen (e : Err) (s : State) : (raise e s).plen = s.plen := rfl
@[simp] theorem raise_sha (e : Err) (s : State) : (raise e s).sha = s.sha := rfl
@[simp] theorem raise_b64 (e : Err) (s : State) : (raise e s).b64 = s.b64 := rfl
@[simp] theorem raise_strictHdr (e : Err) (s : State) : (raise e s).strictHdr = s.strictHdr := rfl
@[simp] theorem raise_rx (e : Err) (s : State) : (raise e s).rx = s.rx := rfl
@[simp] theorem raise_hin (e : Err) (s : State) : (raise e s).hin = s.hin := rfl
@[simp] theorem raise_tx (e : Err) (s : State) : (raise e s).tx = s.tx := rfl
@[simp] theorem raise_hout (e : Err) (s : State) : (raise e s).hout = s.hout := rfl
@[simp] theorem raise_cmds (e : Err) (s : State) : (raise e s).cmds = s.cmds := rfl
@[simp] theorem raise_sched (e : Err) (s : State) : (raise e s).sched = s.sched := rfl

@[simp] theorem complete_state (s : State) : (complete s).state = .idle := rfl
@[simp] theorem complete_err (s : State) : (complete s).err = s.err := rfl
@[simp] theorem complete_op (s : State) : (complete s).op = s.op := rfl
@[simp] theorem complete_len (s : State) : (complete s).len = s.len := rfl
@[simp] theorem complete_key (s : State) : (complete s).key = s.key := rfl
@[simp] theorem complete_phase (s : State) : (complete s).phase = .pIdle := rfl
@[simp] theorem complete_idx (s : State) : (complete s).idx = s.idx := rfl
@[simp] theorem complete_ocnt (s : State) : (complete s).ocnt = s.ocnt := rfl
@[simp] theorem complete_hdr0 (s : State) : (complete s).hdr0 = s.hdr0 := rfl
@[simp] theorem complete_hdr1 (s : State) : (complete s).hdr1 = s.hdr1 := rfl
@[simp] theorem complete_plen (s : State) : (complete s).plen = s.plen := rfl
@[simp] theorem complete_sha (s : State) : (complete s).sha = s.sha := rfl
@[simp] theorem complete_b64 (s : State) : (complete s).b64 = s.b64 := rfl
@[simp] theorem complete_strictHdr (s : State) : (complete s).strictHdr = s.strictHdr := rfl
@[simp] theorem complete_rx (s : State) : (complete s).rx = s.rx := rfl
@[simp] theorem complete_hin (s : State) : (complete s).hin = s.hin := rfl
@[simp] theorem complete_tx (s : State) : (complete s).tx = s.tx := rfl
@[simp] theorem complete_hout (s : State) : (complete s).hout = s.hout := rfl
@[simp] theorem complete_cmds (s : State) : (complete s).cmds = s.cmds := rfl
@[simp] theorem complete_sched (s : State) : (complete s).sched = s.sched := rfl

@[simp] theorem outTx_state (b : Byte) (s : State) : (outTx b s).state = s.state := rfl
@[simp] theorem outTx_err (b : Byte) (s : State) : (outTx b s).err = s.err := rfl
@[simp] theorem outTx_op (b : Byte) (s : State) : (outTx b s).op = s.op := rfl
@[simp] theorem outTx_len (b : Byte) (s : State) : (outTx b s).len = s.len := rfl
@[simp] theorem outTx_key (b : Byte) (s : State) : (outTx b s).key = s.key := rfl
@[simp] theorem outTx_phase (b : Byte) (s : State) : (outTx b s).phase = s.phase := rfl
@[simp] theorem outTx_idx (b : Byte) (s : State) : (outTx b s).idx = s.idx := rfl
@[simp] theorem outTx_ocnt (b : Byte) (s : State) : (outTx b s).ocnt = s.ocnt + 1 := rfl
@[simp] theorem outTx_hdr0 (b : Byte) (s : State) : (outTx b s).hdr0 = s.hdr0 := rfl
@[simp] theorem outTx_hdr1 (b : Byte) (s : State) : (outTx b s).hdr1 = s.hdr1 := rfl
@[simp] theorem outTx_plen (b : Byte) (s : State) : (outTx b s).plen = s.plen := rfl
@[simp] theorem outTx_sha (b : Byte) (s : State) : (outTx b s).sha = s.sha := rfl
@[simp] theorem outTx_b64 (b : Byte) (s : State) : (outTx b s).b64 = s.b64 := rfl
@[simp] theorem outTx_strictHdr (b : Byte) (s : State) : (outTx b s).strictHdr = s.strictHdr := rfl
@[simp] theorem outTx_rx (b : Byte) (s : State) : (outTx b s).rx = s.rx := rfl
@[simp] theorem outTx_hin (b : Byte) (s : State) : (outTx b s).hin = s.hin := rfl
@[simp] theorem outTx_tx (b : Byte) (s : State) : (outTx b s).tx = s.tx ++ [b] := rfl
@[simp] theorem outTx_hout (b : Byte) (s : State) : (outTx b s).hout = s.hout := rfl
@[simp] theorem outTx_cmds (b : Byte) (s : State) : (outTx b s).cmds = s.cmds := rfl
@[simp] theorem outTx_sched (b : Byte) (s : State) : (outTx b s).sched = s.sched := rfl

@[simp] theorem outHout_state (b : Byte) (s : State) : (outHout b s).state = s.state := rfl
@[simp] theorem outHout_err (b : Byte) (s : State) : (outHout b s).err = s.err := rfl
@[simp] theorem outHout_op (b : Byte) (s : State) : (outHout b s).op = s.op := rfl
@[simp] theorem outHout_len (b : Byte) (s : State) : (outHout b s).len = s.len := rfl
@[simp] theorem outHout_key (b : Byte) (s : State) : (outHout b s).key = s.key := rfl
@[simp] theorem outHout_phase (b : Byte) (s : State) : (outHout b s).phase = s.phase := rfl
@[simp] theorem outHout_idx (b : Byte) (s : State) : (outHout b s).idx = s.idx := rfl
@[simp] theorem outHout_ocnt (b : Byte) (s : State) : (outHout b s).ocnt = s.ocnt + 1 := rfl
@[simp] theorem outHout_hdr0 (b : Byte) (s : State) : (outHout b s).hdr0 = s.hdr0 := rfl
@[simp] theorem outHout_hdr1 (b : Byte) (s : State) : (outHout b s).hdr1 = s.hdr1 := rfl
@[simp] theorem outHout_plen (b : Byte) (s : State) : (outHout b s).plen = s.plen := rfl
@[simp] theorem outHout_sha (b : Byte) (s : State) : (outHout b s).sha = s.sha := rfl
@[simp] theorem outHout_b64 (b : Byte) (s : State) : (outHout b s).b64 = s.b64 := rfl
@[simp] theorem outHout_strictHdr (b : Byte) (s : State) : (outHout b s).strictHdr = s.strictHdr := rfl
@[simp] theorem outHout_rx (b : Byte) (s : State) : (outHout b s).rx = s.rx := rfl
@[simp] theorem outHout_hin (b : Byte) (s : State) : (outHout b s).hin = s.hin := rfl
@[simp] theorem outHout_tx (b : Byte) (s : State) : (outHout b s).tx = s.tx := rfl
@[simp] theorem outHout_hout (b : Byte) (s : State) : (outHout b s).hout = s.hout ++ [b] := rfl
@[simp] theorem outHout_cmds (b : Byte) (s : State) : (outHout b s).cmds = s.cmds := rfl
@[simp] theorem outHout_sched (b : Byte) (s : State) : (outHout b s).sched = s.sched := rfl

@[simp] theorem leaveRx_state (rest : List Byte) (s : State) : (leaveRx rest s).state = s.state := rfl
@[simp] theorem leaveRx_err (rest : List Byte) (s : State) : (leaveRx rest s).err = s.err := rfl
@[simp] theorem leaveRx_op (rest : List Byte) (s : State) : (leaveRx rest s).op = s.op := rfl
@[simp] theorem leaveRx_len (rest : List Byte) (s : State) : (leaveRx rest s).len = s.len := rfl
@[simp] theorem leaveRx_key (rest : List Byte) (s : State) : (leaveRx rest s).key = s.key := rfl
@[simp] theorem leaveRx_phase (rest : List Byte) (s : State) : (leaveRx rest s).phase = s.phase := rfl
@[simp] theorem leaveRx_idx (rest : List Byte) (s : State) : (leaveRx rest s).idx = s.idx := rfl
@[simp] theorem leaveRx_ocnt (rest : List Byte) (s : State) : (leaveRx rest s).ocnt = s.ocnt := rfl
@[simp] theorem leaveRx_hdr0 (rest : List Byte) (s : State) : (leaveRx rest s).hdr0 = s.hdr0 := rfl
@[simp] theorem leaveRx_hdr1 (rest : List Byte) (s : State) : (leaveRx rest s).hdr1 = s.hdr1 := rfl
@[simp] theorem leaveRx_plen (rest : List Byte) (s : State) : (leaveRx rest s).plen = s.plen := rfl
@[simp] theorem leaveRx_sha (rest : List Byte) (s : State) : (leaveRx rest s).sha = s.sha := rfl
@[simp] theorem leaveRx_b64 (rest : List Byte) (s : State) : (leaveRx rest s).b64 = s.b64 := rfl
@[simp] theorem leaveRx_strictHdr (rest : List Byte) (s : State) : (leaveRx rest s).strictHdr = s.strictHdr := rfl
@[simp] theorem leaveRx_rx (rest : List Byte) (s : State) : (leaveRx rest s).rx = { s.rx with queue := rest } := rfl
@[simp] theorem leaveRx_hin (rest : List Byte) (s : State) : (leaveRx rest s).hin = s.hin := rfl
@[simp] theorem leaveRx_tx (rest : List Byte) (s : State) : (leaveRx rest s).tx = s.tx := rfl
@[simp] theorem leaveRx_hout (rest : List Byte) (s : State) : (leaveRx rest s).hout = s.hout := rfl
@[simp] theorem leaveRx_cmds (rest : List Byte) (s : State) : (leaveRx rest s).cmds = s.cmds := rfl
@[simp] theorem leaveRx_sched (rest : List Byte) (s : State) : (leaveRx rest s).sched = s.sched := rfl

@[simp] theorem leaveHin_state (rest : List Byte) (s : State) : (leaveHin rest s).state = s.state := rfl
@[simp] theorem leaveHin_err (rest : List Byte) (s : State) : (leaveHin rest s).err = s.err := rfl
@[simp] theorem leaveHin_op (rest : List Byte) (s : State) : (leaveHin rest s).op = s.op := rfl
@[simp] theorem leaveHin_len (rest : List Byte) (s : State) : (leaveHin rest s).len = s.len := rfl
@[simp] theorem leaveHin_key (rest : List Byte) (s : State) : (leaveHin rest s).key = s.key := rfl
@[simp] theorem leaveHin_phase (rest : List Byte) (s : State) : (leaveHin rest s).phase = s.phase := rfl
@[simp] theorem leaveHin_idx (rest : List Byte) (s : State) : (leaveHin rest s).idx = s.idx := rfl
@[simp] theorem leaveHin_ocnt (rest : List Byte) (s : State) : (leaveHin rest s).ocnt = s.ocnt := rfl
@[simp] theorem leaveHin_hdr0 (rest : List Byte) (s : State) : (leaveHin rest s).hdr0 = s.hdr0 := rfl
@[simp] theorem leaveHin_hdr1 (rest : List Byte) (s : State) : (leaveHin rest s).hdr1 = s.hdr1 := rfl
@[simp] theorem leaveHin_plen (rest : List Byte) (s : State) : (leaveHin rest s).plen = s.plen := rfl
@[simp] theorem leaveHin_sha (rest : List Byte) (s : State) : (leaveHin rest s).sha = s.sha := rfl
@[simp] theorem leaveHin_b64 (rest : List Byte) (s : State) : (leaveHin rest s).b64 = s.b64 := rfl
@[simp] theorem leaveHin_strictHdr (rest : List Byte) (s : State) : (leaveHin rest s).strictHdr = s.strictHdr := rfl
@[simp] theorem leaveHin_rx (rest : List Byte) (s : State) : (leaveHin rest s).rx = s.rx := rfl
@[simp] theorem leaveHin_hin (rest : List Byte) (s : State) : (leaveHin rest s).hin = { s.hin with queue := rest } := rfl
@[simp] theorem leaveHin_tx (rest : List Byte) (s : State) : (leaveHin rest s).tx = s.tx := rfl
@[simp] theorem leaveHin_hout (rest : List Byte) (s : State) : (leaveHin rest s).hout = s.hout := rfl
@[simp] theorem leaveHin_cmds (rest : List Byte) (s : State) : (leaveHin rest s).cmds = s.cmds := rfl
@[simp] theorem leaveHin_sched (rest : List Byte) (s : State) : (leaveHin rest s).sched = s.sched := rfl

@[simp] theorem takeCommand_state (op : Byte) (len : W32) (p : Phase) (s : State) : (takeCommand op len p s).state = .busy := rfl
@[simp] theorem takeCommand_err (op : Byte) (len : W32) (p : Phase) (s : State) : (takeCommand op len p s).err = s.err := rfl
@[simp] theorem takeCommand_op (op : Byte) (len : W32) (p : Phase) (s : State) : (takeCommand op len p s).op = op := rfl
@[simp] theorem takeCommand_len (op : Byte) (len : W32) (p : Phase) (s : State) : (takeCommand op len p s).len = len := rfl
@[simp] theorem takeCommand_key (op : Byte) (len : W32) (p : Phase) (s : State) : (takeCommand op len p s).key = s.key := rfl
@[simp] theorem takeCommand_phase (op : Byte) (len : W32) (p : Phase) (s : State) : (takeCommand op len p s).phase = p := rfl
@[simp] theorem takeCommand_idx (op : Byte) (len : W32) (p : Phase) (s : State) : (takeCommand op len p s).idx = 0 := rfl
@[simp] theorem takeCommand_ocnt (op : Byte) (len : W32) (p : Phase) (s : State) : (takeCommand op len p s).ocnt = 0 := rfl
@[simp] theorem takeCommand_hdr0 (op : Byte) (len : W32) (p : Phase) (s : State) : (takeCommand op len p s).hdr0 = s.hdr0 := rfl
@[simp] theorem takeCommand_hdr1 (op : Byte) (len : W32) (p : Phase) (s : State) : (takeCommand op len p s).hdr1 = s.hdr1 := rfl
@[simp] theorem takeCommand_plen (op : Byte) (len : W32) (p : Phase) (s : State) : (takeCommand op len p s).plen = s.plen := rfl
@[simp] theorem takeCommand_sha (op : Byte) (len : W32) (p : Phase) (s : State) : (takeCommand op len p s).sha = s.sha := rfl
@[simp] theorem takeCommand_b64 (op : Byte) (len : W32) (p : Phase) (s : State) : (takeCommand op len p s).b64 = s.b64 := rfl
@[simp] theorem takeCommand_strictHdr (op : Byte) (len : W32) (p : Phase) (s : State) : (takeCommand op len p s).strictHdr = s.strictHdr := rfl
@[simp] theorem takeCommand_rx (op : Byte) (len : W32) (p : Phase) (s : State) : (takeCommand op len p s).rx = s.rx := rfl
@[simp] theorem takeCommand_hin (op : Byte) (len : W32) (p : Phase) (s : State) : (takeCommand op len p s).hin = s.hin := rfl
@[simp] theorem takeCommand_tx (op : Byte) (len : W32) (p : Phase) (s : State) : (takeCommand op len p s).tx = s.tx := rfl
@[simp] theorem takeCommand_hout (op : Byte) (len : W32) (p : Phase) (s : State) : (takeCommand op len p s).hout = s.hout := rfl
@[simp] theorem takeCommand_cmds (op : Byte) (len : W32) (p : Phase) (s : State) : (takeCommand op len p s).cmds = s.cmds := rfl
@[simp] theorem takeCommand_sched (op : Byte) (len : W32) (p : Phase) (s : State) : (takeCommand op len p s).sched = s.sched := rfl

@[simp] theorem resetBlock_state (strap : Bool) (s : State) : (resetBlock strap s).state = .idle := rfl
@[simp] theorem resetBlock_err (strap : Bool) (s : State) : (resetBlock strap s).err = .none := rfl
@[simp] theorem resetBlock_op (strap : Bool) (s : State) : (resetBlock strap s).op = 0 := rfl
@[simp] theorem resetBlock_len (strap : Bool) (s : State) : (resetBlock strap s).len = 0 := rfl
@[simp] theorem resetBlock_key (strap : Bool) (s : State) : (resetBlock strap s).key = { k0 := 0, k1 := 0, k2 := 0, k3 := 0 } := rfl
@[simp] theorem resetBlock_phase (strap : Bool) (s : State) : (resetBlock strap s).phase = .pIdle := rfl
@[simp] theorem resetBlock_idx (strap : Bool) (s : State) : (resetBlock strap s).idx = 0 := rfl
@[simp] theorem resetBlock_ocnt (strap : Bool) (s : State) : (resetBlock strap s).ocnt = 0 := rfl
@[simp] theorem resetBlock_hdr0 (strap : Bool) (s : State) : (resetBlock strap s).hdr0 = 0 := rfl
@[simp] theorem resetBlock_hdr1 (strap : Bool) (s : State) : (resetBlock strap s).hdr1 = 0 := rfl
@[simp] theorem resetBlock_plen (strap : Bool) (s : State) : (resetBlock strap s).plen = 0 := rfl
@[simp] theorem resetBlock_sha (strap : Bool) (s : State) : (resetBlock strap s).sha = ShaUnit.atReset := rfl
@[simp] theorem resetBlock_b64 (strap : Bool) (s : State) : (resetBlock strap s).b64 = B64Unit.atReset := rfl
@[simp] theorem resetBlock_strictHdr (strap : Bool) (s : State) : (resetBlock strap s).strictHdr = strap := rfl
@[simp] theorem resetBlock_rx (strap : Bool) (s : State) : (resetBlock strap s).rx = s.rx := rfl
@[simp] theorem resetBlock_hin (strap : Bool) (s : State) : (resetBlock strap s).hin = s.hin := rfl
@[simp] theorem resetBlock_tx (strap : Bool) (s : State) : (resetBlock strap s).tx = s.tx := rfl
@[simp] theorem resetBlock_hout (strap : Bool) (s : State) : (resetBlock strap s).hout = s.hout := rfl
@[simp] theorem resetBlock_cmds (strap : Bool) (s : State) : (resetBlock strap s).cmds = s.cmds := rfl
@[simp] theorem resetBlock_sched (strap : Bool) (s : State) : (resetBlock strap s).sched = s.sched := rfl

end Sys2Proof.Machine
end

