-- ==== Sys2Proof/Laws/Ops.lean ====
section
/-! SUPPORT. What the shared operations can do, said once: `In` on either port, a run of `Out`, a command's turn, a frame
form's phase gate. -/

namespace Sys2Proof.Machine

theorem takeRx_cons {s : State} {b : Byte} {rest : List Byte} (h : s.rx.queue = b :: rest) (k : Byte → State → Result) :
    takeRx s k = k b (leaveRx rest s) := by
  simp [takeRx, h]

theorem takeRx_short {s : State} (hq : s.rx.queue = []) (hc : s.rx.closed = true) (k : Byte → State → Result) :
    takeRx s k = .next (raise .eShort s) := by
  simp [takeRx, hq, hc]

theorem takeRx_hold {s : State} (hq : s.rx.queue = []) (hc : s.rx.closed = false) (k : Byte → State → Result) :
    takeRx s k = .next s := by
  simp [takeRx, hq, hc]

/-- Everything `In(RX)` can do (20_memory.md R53). -/
theorem takeRx_cases (s : State) (k : Byte → State → Result) :
    (∃ b rest, s.rx.queue = b :: rest ∧ takeRx s k = k b (leaveRx rest s)) ∨
    (s.rx.queue = [] ∧ s.rx.closed = true ∧ takeRx s k = .next (raise .eShort s)) ∨
    (s.rx.queue = [] ∧ s.rx.closed = false ∧ takeRx s k = .next s) := by
  cases hq : s.rx.queue with
  | cons b rest => exact .inl ⟨b, rest, rfl, takeRx_cons hq k⟩
  | nil =>
    cases hc : s.rx.closed with
    | true => exact .inr (.inl ⟨rfl, rfl, takeRx_short hq hc k⟩)
    | false => exact .inr (.inr ⟨rfl, rfl, takeRx_hold hq hc k⟩)

theorem takeHin_cons {s : State} {b : Byte} {rest : List Byte} (h : s.hin.queue = b :: rest)
    (k : Byte → State → Result) : takeHin s k = k b (leaveHin rest s) := by
  simp [takeHin, h]

theorem takeHin_short {s : State} (hq : s.hin.queue = []) (hc : s.hin.closed = true) (k : Byte → State → Result) :
    takeHin s k = .next (raise .eShort s) := by
  simp [takeHin, hq, hc]

theorem takeHin_hold {s : State} (hq : s.hin.queue = []) (hc : s.hin.closed = false) (k : Byte → State → Result) :
    takeHin s k = .next s := by
  simp [takeHin, hq, hc]

/-- Everything `In(HIN)` can do (R53). -/
theorem takeHin_cases (s : State) (k : Byte → State → Result) :
    (∃ b rest, s.hin.queue = b :: rest ∧ takeHin s k = k b (leaveHin rest s)) ∨
    (s.hin.queue = [] ∧ s.hin.closed = true ∧ takeHin s k = .next (raise .eShort s)) ∨
    (s.hin.queue = [] ∧ s.hin.closed = false ∧ takeHin s k = .next s) := by
  cases hq : s.hin.queue with
  | cons b rest => exact .inl ⟨b, rest, rfl, takeHin_cons hq k⟩
  | nil =>
    cases hc : s.hin.closed with
    | true => exact .inr (.inl ⟨rfl, rfl, takeHin_short hq hc k⟩)
    | false => exact .inr (.inr ⟨rfl, rfl, takeHin_hold hq hc k⟩)

/-- A run of `Out(HOUT, b)` appends the bytes in order and counts them (R54). -/
theorem outsHout_eq (bs : List Byte) (s : State) :
    outsHout bs s = { s with hout := s.hout ++ bs, ocnt := s.ocnt + BitVec.ofNat 32 bs.length } := by
  induction bs generalizing s with
  | nil => simp [outsHout]
  | cons b bs ih =>
    simp only [outsHout, ih, outHout, List.append_assoc, List.singleton_append, List.length_cons]
    have : s.ocnt + 1 + BitVec.ofNat 32 bs.length = s.ocnt + BitVec.ofNat 32 (bs.length + 1) := by
      apply BitVec.eq_of_toNat_eq
      simp [BitVec.toNat_add, BitVec.toNat_ofNat]
      omega
    rw [this]

theorem commandTurn_idle {op : Byte} {taken : State → State} {running : State → Result} {s : State}
    (h : s.state = .idle) : commandTurn op taken running s = .next (taken s) := by
  simp [commandTurn, h]

theorem commandTurn_busy {op : Byte} {taken : State → State} {running : State → Result} {s : State}
    (h : s.state = .busy) (ho : s.op = op) : commandTurn op taken running s = running s := by
  simp [commandTurn, h, ho]

theorem commandTurn_waits {op : Byte} {taken : State → State} {running : State → Result} {s : State}
    (h : s.state = .busy) (ho : s.op ≠ op) : commandTurn op taken running s = .next s := by
  simp [commandTurn, h, ho]

theorem commandTurn_fault {op : Byte} {taken : State → State} {running : State → Result} {s : State}
    (h : s.state = .fault) : commandTurn op taken running s = .next s := by
  simp [commandTurn, h]

theorem inPhase_at {p : Phase} {effect : State → State} {s : State} (h : s.state = .busy) (hp : s.phase = p) :
    inPhase p effect s = .next (effect s) := by
  simp [inPhase, h, hp]

theorem inPhase_off {p : Phase} {effect : State → State} {s : State} (h : ¬(s.state = .busy ∧ s.phase = p)) :
    inPhase p effect s = .next s := by
  simp [inPhase, h]

end Sys2Proof.Machine
end

