-- ==== Sys2Proof/Laws/Transitions.lean ====
section
/-! SUPPORT. What the block's turn can do, said once: which command runs, and every transition of a busy block as one
inductive relation. Proofs about a step cite `blockStep_idle`, `blockStep_fault` and `busyStep_of_blockStep` and case on
the transition; none of them unfolds a phase again. -/

namespace Sys2Proof.Machine

theorem step_nil {s : State} (h : s.sched = []) : step s = blockStep s := by simp [step, takeTurn, h]

theorem step_block {s : State} {rest : List Move} (h : s.sched = .block :: rest) :
    step s = blockStep { s with sched := rest } := by simp [step, takeTurn, h]

theorem step_move {s : State} {m : Move} {rest : List Move} (h : s.sched = m :: rest) (hm : m ≠ .block) :
    step s = .next (agentMove m { s with sched := rest }) := by
  cases m <;> simp_all [step, takeTurn]

theorem blockStep_idle {s : State} {w : W72} {rest : List W72} (h : s.state = .idle) (hc : s.cmds = w :: rest) :
    blockStep s = exec (decodeWord w) { s with cmds := rest } := by simp [blockStep, h, hc]

theorem blockStep_rest {s : State} (h : s.state = .idle) (hc : s.cmds = []) : blockStep s = .next s := by
  simp [blockStep, h, hc]

theorem blockStep_fault {s : State} (h : s.state = .fault) : blockStep s = .next s := by simp [blockStep, h]

/-- What runs in a busy block, by the opcode in `OP`. -/
theorem blockStep_busy {s : State} (h : s.state = .busy) :
    blockStep s =
      if s.op = 0x01 then decodeRunning s else if s.op = 0x02 then encodeRunning s
      else if s.op = 0x03 then maskRunning s else if s.op = 0x04 then sha1Running s
      else if s.op = 0x05 then b64Running s else if s.op = 0x06 then acceptRunning s else illegalRunning s := by
  simp only [blockStep, h, runningWord, decodeWord_cmdWord]
  split_ifs <;>
    simp_all [exec, execDecode, execEncode, execMask, execSha1, execB64, execAccept, execIllegal, commandTurn]

/-- The transitions of a busy block. -/
inductive BusyStep (s : State) : State → Prop where
  | rxShort : needsRx s = true → s.rx.queue = [] → s.rx.closed = true → BusyStep s (raise .eShort s)
  | rxHold : needsRx s = true → s.rx.queue = [] → s.rx.closed = false → BusyStep s s
  | hinShort : needsHin s = true → s.hin.queue = [] → s.hin.closed = true → BusyStep s (raise .eShort s)
  | hinHold : needsHin s = true → s.hin.queue = [] → s.hin.closed = false → BusyStep s s
  | hdr0 (b : Byte) (rest : List Byte) : s.op = 0x01 → s.phase = .dHdr0 → s.rx.queue = b :: rest →
      (s.strictHdr = false ∨ strictOk b = true) → BusyStep s { leaveRx rest s with hdr0 := b, phase := .dHdr1 }
  | hdr0Bad (b : Byte) (rest : List Byte) : s.op = 0x01 → s.phase = .dHdr0 → s.rx.queue = b :: rest →
      s.strictHdr = true → strictOk b = false → BusyStep s (raise .eHdr { leaveRx rest s with hdr0 := b })
  | hdr1Unmasked (b : Byte) (rest : List Byte) : s.op = 0x01 → s.phase = .dHdr1 → s.rx.queue = b :: rest →
      maskBit b = false → BusyStep s (raise .eUnmasked { leaveRx rest s with hdr1 := b })
  | hdr1Short (b : Byte) (rest : List Byte) : s.op = 0x01 → s.phase = .dHdr1 → s.rx.queue = b :: rest →
      maskBit b = true → (indOf b).toNat ≤ 125 →
      BusyStep s { leaveRx rest s with hdr1 := b, plen := (indOf b).setWidth 16, phase := .dKey0 }
  | hdr1Ext (rest : List Byte) : s.op = 0x01 → s.phase = .dHdr1 → s.rx.queue = 0xFE :: rest →
      BusyStep s { leaveRx rest s with hdr1 := 0xFE, plen := 0, phase := .dExt0 }
  | hdr1Long (rest : List Byte) : s.op = 0x01 → s.phase = .dHdr1 → s.rx.queue = 0xFF :: rest →
      BusyStep s (raise .eSize { leaveRx rest s with hdr1 := 0xFF })
  | ext0 (b : Byte) (rest : List Byte) : s.op = 0x01 → s.phase = .dExt0 → s.rx.queue = b :: rest →
      BusyStep s { leaveRx rest s with plen := setHi s.plen b, phase := .dExt1 }
  | ext1 (b : Byte) (rest : List Byte) : s.op = 0x01 → s.phase = .dExt1 → s.rx.queue = b :: rest →
      BusyStep s { leaveRx rest s with plen := setLo s.plen b, phase := .dKey0 }
  | key0 (b : Byte) (rest : List Byte) : s.op = 0x01 → s.phase = .dKey0 → s.rx.queue = b :: rest →
      BusyStep s { leaveRx rest s with key := { s.key with k0 := b }, phase := .dKey1 }
  | key1 (b : Byte) (rest : List Byte) : s.op = 0x01 → s.phase = .dKey1 → s.rx.queue = b :: rest →
      BusyStep s { leaveRx rest s with key := { s.key with k1 := b }, phase := .dKey2 }
  | key2 (b : Byte) (rest : List Byte) : s.op = 0x01 → s.phase = .dKey2 → s.rx.queue = b :: rest →
      BusyStep s { leaveRx rest s with key := { s.key with k2 := b }, phase := .dKey3 }
  | key3 (b : Byte) (rest : List Byte) : s.op = 0x01 → s.phase = .dKey3 → s.rx.queue = b :: rest →
      BusyStep s { leaveRx rest s with key := { s.key with k3 := b }, phase := .dPay }
  | pay (b : Byte) (rest : List Byte) : s.op = 0x01 → s.phase = .dPay → s.idx ≠ s.plen.setWidth 32 →
      s.rx.queue = b :: rest → BusyStep s { leaveRx rest s with
        hout := s.hout ++ [xorMask s.key s.idx b], ocnt := s.ocnt + 1, idx := s.idx + 1 }
  | payDone : s.op = 0x01 → s.phase = .dPay → s.idx = s.plen.setWidth 32 → BusyStep s (complete s)
  | encTooLong : s.op = 0x02 → s.phase = .eHdr → 65535 < s.len.toNat → BusyStep s (raise .eSize s)
  | encHdr7 : s.op = 0x02 → s.phase = .eHdr → s.len.toNat ≤ 125 → BusyStep s { s with
        tx := s.tx ++ [0x81, s.len.setWidth 8], ocnt := s.ocnt + 2, phase := .ePay }
  | encHdr16 : s.op = 0x02 → s.phase = .eHdr → 125 < s.len.toNat → s.len.toNat ≤ 65535 → BusyStep s { s with
        tx := s.tx ++ [0x81, 0x7E, s.len.extractLsb' 8 8, s.len.setWidth 8], ocnt := s.ocnt + 4, phase := .ePay }
  | encPay (b : Byte) (rest : List Byte) : s.op = 0x02 → s.phase = .ePay → s.idx ≠ s.len →
      s.hin.queue = b :: rest → BusyStep s { leaveHin rest s with
        tx := s.tx ++ [b], ocnt := s.ocnt + 1, idx := s.idx + 1 }
  | encDone : s.op = 0x02 → s.phase = .ePay → s.idx = s.len → BusyStep s (complete s)
  | maskPay (b : Byte) (rest : List Byte) : s.op = 0x03 → s.phase = .mPay → s.idx ≠ s.len →
      s.hin.queue = b :: rest → BusyStep s { leaveHin rest s with
        hout := s.hout ++ [xorMask s.key s.idx b], ocnt := s.ocnt + 1, idx := s.idx + 1 }
  | maskDone : s.op = 0x03 → s.phase = .mPay → s.idx = s.len → BusyStep s (complete s)
  | shaAbs (b : Byte) (rest : List Byte) : s.op = 0x04 → s.phase = .sAbs → s.idx ≠ s.len →
      s.hin.queue = b :: rest → BusyStep s { leaveHin rest s with sha := absorb b s.sha, idx := s.idx + 1 }
  | shaEnd : s.op = 0x04 → s.phase = .sAbs → s.idx = s.len → BusyStep s { s with phase := .sFin }
  | shaFin : s.op = 0x04 → s.phase = .sFin → BusyStep s { s with sha := shaFinish s.sha, idx := 0, phase := .sOut }
  | shaOut : s.op = 0x04 → s.phase = .sOut → s.idx ≠ 20 → BusyStep s { s with
        hout := s.hout ++ [digestByte s.sha.h s.idx.toNat], ocnt := s.ocnt + 1, idx := s.idx + 1 }
  | shaDone : s.op = 0x04 → s.phase = .sOut → s.idx = 20 → BusyStep s (complete s)
  | b64Abs (b : Byte) (rest : List Byte) : s.op = 0x05 → s.phase = .bAbs → s.idx ≠ s.len →
      s.hin.queue = b :: rest → BusyStep s { leaveHin rest s with
        b64 := (b64Feed b s.b64).1, idx := s.idx + 1, hout := s.hout ++ (b64Feed b s.b64).2,
        ocnt := s.ocnt + BitVec.ofNat 32 (b64Feed b s.b64).2.length }
  | b64End : s.op = 0x05 → s.phase = .bAbs → s.idx = s.len → BusyStep s { s with phase := .bFin }
  | b64Fin : s.op = 0x05 → s.phase = .bFin → BusyStep s { s with
        hout := s.hout ++ b64Tail s.b64, ocnt := s.ocnt + BitVec.ofNat 32 (b64Tail s.b64).length,
        state := .idle, phase := .pIdle }
  | accTok (b : Byte) (rest : List Byte) : s.op = 0x06 → s.phase = .aTok → s.idx ≠ s.len →
      s.hin.queue = b :: rest → BusyStep s { leaveHin rest s with sha := absorb b s.sha, idx := s.idx + 1 }
  | accEnd : s.op = 0x06 → s.phase = .aTok → s.idx = s.len → BusyStep s { s with phase := .aGuid }
  | accGuid : s.op = 0x06 → s.phase = .aGuid → BusyStep s { s with sha := absorbAll guid s.sha, phase := .aFin }
  | accFin : s.op = 0x06 → s.phase = .aFin → BusyStep s { s with sha := shaFinish s.sha, phase := .aOut }
  | accOut (u : B64Unit) (out : List Byte) : s.op = 0x06 → s.phase = .aOut →
      u = (b64FeedAll (digestBytes s.sha.h) (b64Init s.b64)).1 →
      out = (b64FeedAll (digestBytes s.sha.h) (b64Init s.b64)).2 ++ b64Tail u → BusyStep s { s with
        b64 := u, hout := s.hout ++ out, ocnt := s.ocnt + BitVec.ofNat 32 out.length, state := .idle, phase := .pIdle }
  | illegalOp : firstPhase s.op = .pIdle → s.phase = .pIdle → BusyStep s (raise .eIllegalOp s)

theorem eq_of_next {a b : State} (h : (Host.Outcome.next a : Result) = .next b) : a = b := by injection h

theorem inForm_masked {b : Byte} (h : maskBit b = true) :
    inForm b = if (indOf b).toNat ≤ 125 then .short (indOf b) else if (indOf b).toNat = 126 then .ext16 else .ext64 := by
  unfold inForm
  rw [h]
  rfl

theorem byte1_ext16 : ∀ b : Byte, maskBit b = true → (indOf b).toNat = 126 → b = 0xFE := by decide +kernel

theorem byte1_ext64 : ∀ b : Byte, maskBit b = true → ¬(indOf b).toNat ≤ 125 → ¬(indOf b).toNat = 126 → b = 0xFF := by
  decide +kernel

theorem len7_byte {n : W32} (h : n.toNat ≤ 125) : (0#1 ++ n.setWidth 7 : Byte) = n.setWidth 8 := by
  apply BitVec.eq_of_toNat_eq
  simp only [BitVec.toNat_append, BitVec.toNat_setWidth, BitVec.toNat_ofNat]
  norm_num
  omega

theorem hi8_setWidth (n : W32) : hi8 (n.setWidth 16) = n.extractLsb' 8 8 := by
  apply BitVec.eq_of_toNat_eq
  simp only [hi8, BitVec.extractLsb'_toNat, BitVec.toNat_setWidth, Nat.shiftRight_eq_div_pow]
  omega

theorem lo8_setWidth (n : W32) : lo8 (n.setWidth 16) = n.setWidth 8 := by
  apply BitVec.eq_of_toNat_eq
  simp only [lo8, BitVec.extractLsb'_toNat, BitVec.toNat_setWidth, Nat.shiftRight_eq_div_pow]
  omega

theorem decodeRunning_cases {s t : State} (hb : s.state = .busy) (ho : s.op = 0x01) (h : decodeRunning s = .next t) :
    BusyStep s t := by
  unfold decodeRunning at h
  split at h <;> rename_i hp
  case h_1 =>
    unfold dHdr0Step at h
    rcases takeRx_cases s _ with ⟨b, rest, hq, hk⟩ | ⟨hq, hc, hk⟩ | ⟨hq, hc, hk⟩ <;> rw [hk] at h
    · by_cases hs : (s.strictHdr && !strictOk b) = true
      · have h' := eq_of_next ((if_pos hs).symm.trans h)
        rw [← h']
        simp only [Bool.and_eq_true, Bool.not_eq_true'] at hs
        exact .hdr0Bad b rest ho hp hq hs.1 hs.2
      · have h' := eq_of_next ((if_neg hs).symm.trans h)
        rw [← h']
        refine .hdr0 b rest ho hp hq ?_
        cases h1 : s.strictHdr <;> cases h2 : strictOk b <;> simp_all
    · rw [← eq_of_next h]; exact .rxShort (by simp [needsRx, hp]) hq hc
    · rw [← eq_of_next h]; exact .rxHold (by simp [needsRx, hp]) hq hc
  case h_2 =>
    unfold dHdr1Step at h
    rcases takeRx_cases s _ with ⟨b, rest, hq, hk⟩ | ⟨hq, hc, hk⟩ | ⟨hq, hc, hk⟩ <;> rw [hk] at h
    · cases hm : maskBit b with
      | false =>
        rw [show inForm b = .unmasked (indOf b) by simp [inForm, hm]] at h
        dsimp only at h
        rw [execFrameInUnmasked, inPhase_at (by exact hb) (by exact hp)] at h
        rw [← eq_of_next h, byte1_unmasked b hm]
        exact .hdr1Unmasked b rest ho hp hq hm
      | true =>
        rw [inForm_masked hm] at h
        by_cases h1 : (indOf b).toNat ≤ 125
        · rw [if_pos h1] at h
          dsimp only at h
          rw [execFrameIn7, inPhase_at (by exact hb) (by exact hp)] at h
          rw [← eq_of_next h, byte1_masked b hm]
          exact .hdr1Short b rest ho hp hq hm h1
        · by_cases h2 : (indOf b).toNat = 126
          · obtain rfl := byte1_ext16 b hm h2
            simp only [h2, if_true] at h
            simp only [show ¬ (126 : Nat) ≤ 125 by omega, if_false] at h
            rw [← eq_of_next h]
            exact .hdr1Ext rest ho hp hq
          · obtain rfl := byte1_ext64 b hm h1 h2
            rw [if_neg h1, if_neg h2] at h
            dsimp only at h
            rw [execFrameIn64, inPhase_at (by exact hb) (by exact hp)] at h
            rw [← eq_of_next h]
            exact .hdr1Long rest ho hp hq
    · rw [← eq_of_next h]; exact .rxShort (by simp [needsRx, hp]) hq hc
    · rw [← eq_of_next h]; exact .rxHold (by simp [needsRx, hp]) hq hc
  case h_3 =>
    unfold dExt0Step at h
    rcases takeRx_cases s _ with ⟨b, rest, hq, hk⟩ | ⟨hq, hc, hk⟩ | ⟨hq, hc, hk⟩ <;> rw [hk] at h <;>
      rw [← eq_of_next h]
    exacts [.ext0 b rest ho hp hq, .rxShort (by simp [needsRx, hp]) hq hc, .rxHold (by simp [needsRx, hp]) hq hc]
  case h_4 =>
    unfold dExt1Step at h
    rcases takeRx_cases s _ with ⟨b, rest, hq, hk⟩ | ⟨hq, hc, hk⟩ | ⟨hq, hc, hk⟩ <;> rw [hk] at h <;>
      rw [← eq_of_next h]
    exacts [.ext1 b rest ho hp hq, .rxShort (by simp [needsRx, hp]) hq hc, .rxHold (by simp [needsRx, hp]) hq hc]
  case h_5 =>
    unfold dKey0Step at h
    rcases takeRx_cases s _ with ⟨b, rest, hq, hk⟩ | ⟨hq, hc, hk⟩ | ⟨hq, hc, hk⟩ <;> rw [hk] at h <;>
      rw [← eq_of_next h]
    exacts [.key0 b rest ho hp hq, .rxShort (by simp [needsRx, hp]) hq hc, .rxHold (by simp [needsRx, hp]) hq hc]
  case h_6 =>
    unfold dKey1Step at h
    rcases takeRx_cases s _ with ⟨b, rest, hq, hk⟩ | ⟨hq, hc, hk⟩ | ⟨hq, hc, hk⟩ <;> rw [hk] at h <;>
      rw [← eq_of_next h]
    exacts [.key1 b rest ho hp hq, .rxShort (by simp [needsRx, hp]) hq hc, .rxHold (by simp [needsRx, hp]) hq hc]
  case h_7 =>
    unfold dKey2Step at h
    rcases takeRx_cases s _ with ⟨b, rest, hq, hk⟩ | ⟨hq, hc, hk⟩ | ⟨hq, hc, hk⟩ <;> rw [hk] at h <;>
      rw [← eq_of_next h]
    exacts [.key2 b rest ho hp hq, .rxShort (by simp [needsRx, hp]) hq hc, .rxHold (by simp [needsRx, hp]) hq hc]
  case h_8 =>
    unfold dKey3Step at h
    rcases takeRx_cases s _ with ⟨b, rest, hq, hk⟩ | ⟨hq, hc, hk⟩ | ⟨hq, hc, hk⟩ <;> rw [hk] at h <;>
      rw [← eq_of_next h]
    exacts [.key3 b rest ho hp hq, .rxShort (by simp [needsRx, hp]) hq hc, .rxHold (by simp [needsRx, hp]) hq hc]
  case h_9 =>
    unfold dPayStep at h
    split at h <;> rename_i hi
    · rw [← eq_of_next h]; exact .payDone ho hp hi
    · have hn : needsRx s = true := by simp [needsRx, hp, hi]
      rcases takeRx_cases s _ with ⟨b, rest, hq, hk⟩ | ⟨hq, hc, hk⟩ | ⟨hq, hc, hk⟩ <;> rw [hk] at h <;>
        rw [← eq_of_next h]
      exacts [.pay b rest ho hp hi hq, .rxShort hn hq hc, .rxHold hn hq hc]
  case h_10 => cases h

theorem encodeRunning_cases {s t : State} (hb : s.state = .busy) (ho : s.op = 0x02) (h : encodeRunning s = .next t) :
    BusyStep s t := by
  unfold encodeRunning at h
  split at h <;> rename_i hp
  · unfold eHdrStep at h
    by_cases hl : s.len.toNat > Config.plenMax
    · rw [if_pos hl] at h; rw [← eq_of_next h]; exact .encTooLong ho hp hl
    rw [if_neg hl] at h
    by_cases h7 : s.len.toNat ≤ Config.len7Max
    · rw [if_pos h7, execFrameOut7, inPhase_at hb hp] at h
      rw [← eq_of_next h]
      have := BusyStep.encHdr7 (s := s) ho hp h7
      simpa [outTx, Config.textByte0, len7_byte h7, add_assoc] using this
    · rw [if_neg h7, execFrameOut16, inPhase_at hb hp] at h
      rw [← eq_of_next h]
      have := BusyStep.encHdr16 (s := s) ho hp (Nat.lt_of_not_le h7) (Nat.le_of_not_lt hl)
      simpa [outTx, Config.textByte0, hi8_setWidth, lo8_setWidth, add_assoc] using this
  · unfold ePayStep at h
    split at h <;> rename_i hi
    · rw [← eq_of_next h]; exact .encDone ho hp hi
    · have hn : needsHin s = true := by simp [needsHin, hp, hi]
      rcases takeHin_cases s _ with ⟨b, rest, hq, hk⟩ | ⟨hq, hc, hk⟩ | ⟨hq, hc, hk⟩ <;> rw [hk] at h <;>
        rw [← eq_of_next h]
      exacts [.encPay b rest ho hp hi hq, .hinShort hn hq hc, .hinHold hn hq hc]
  · cases h

theorem maskRunning_cases {s t : State} (ho : s.op = 0x03) (h : maskRunning s = .next t) : BusyStep s t := by
  unfold maskRunning at h
  split at h <;> rename_i hp
  · unfold mPayStep at h
    split at h <;> rename_i hi
    · rw [← eq_of_next h]; exact .maskDone ho hp hi
    · have hn : needsHin s = true := by simp [needsHin, hp, hi]
      rcases takeHin_cases s _ with ⟨b, rest, hq, hk⟩ | ⟨hq, hc, hk⟩ | ⟨hq, hc, hk⟩ <;> rw [hk] at h <;>
        rw [← eq_of_next h]
      exacts [.maskPay b rest ho hp hi hq, .hinShort hn hq hc, .hinHold hn hq hc]
  · cases h

theorem sha1Running_cases {s t : State} (ho : s.op = 0x04) (h : sha1Running s = .next t) : BusyStep s t := by
  unfold sha1Running at h
  split at h <;> rename_i hp
  · unfold sAbsStep at h
    split at h <;> rename_i hi
    · rw [← eq_of_next h]; exact .shaEnd ho hp hi
    · have hn : needsHin s = true := by simp [needsHin, hp, hi]
      rcases takeHin_cases s _ with ⟨b, rest, hq, hk⟩ | ⟨hq, hc, hk⟩ | ⟨hq, hc, hk⟩ <;> rw [hk] at h <;>
        rw [← eq_of_next h]
      exacts [.shaAbs b rest ho hp hi hq, .hinShort hn hq hc, .hinHold hn hq hc]
  · rw [← eq_of_next h]; exact .shaFin ho hp
  · unfold sOutStep at h
    split at h <;> rename_i hi <;> rw [← eq_of_next h]
    exacts [.shaDone ho hp hi, .shaOut ho hp hi]
  · cases h

theorem b64Running_cases {s t : State} (ho : s.op = 0x05) (h : b64Running s = .next t) : BusyStep s t := by
  unfold b64Running at h
  split at h <;> rename_i hp
  · unfold bAbsStep at h
    split at h <;> rename_i hi
    · rw [← eq_of_next h]; exact .b64End ho hp hi
    · have hn : needsHin s = true := by simp [needsHin, hp, hi]
      rcases takeHin_cases s _ with ⟨b, rest, hq, hk⟩ | ⟨hq, hc, hk⟩ | ⟨hq, hc, hk⟩ <;> rw [hk] at h <;>
        rw [← eq_of_next h]
      · rw [outsHout_eq]; exact .b64Abs b rest ho hp hi hq
      exacts [.hinShort hn hq hc, .hinHold hn hq hc]
  · rw [bFinStep, outsHout_eq] at h; rw [← eq_of_next h]; exact .b64Fin ho hp
  · cases h

theorem acceptRunning_cases {s t : State} (ho : s.op = 0x06) (h : acceptRunning s = .next t) : BusyStep s t := by
  unfold acceptRunning at h
  split at h <;> rename_i hp
  · unfold aTokStep at h
    split at h <;> rename_i hi
    · rw [← eq_of_next h]; exact .accEnd ho hp hi
    · have hn : needsHin s = true := by simp [needsHin, hp, hi]
      rcases takeHin_cases s _ with ⟨b, rest, hq, hk⟩ | ⟨hq, hc, hk⟩ | ⟨hq, hc, hk⟩ <;> rw [hk] at h <;>
        rw [← eq_of_next h]
      exacts [.accTok b rest ho hp hi hq, .hinShort hn hq hc, .hinHold hn hq hc]
  · rw [← eq_of_next h]; exact .accGuid ho hp
  · rw [← eq_of_next h]; exact .accFin ho hp
  · unfold aOutStep at h
    generalize hr : b64FeedAll (digestBytes s.sha.h) (b64Init s.b64) = r at h
    dsimp only at h
    rw [outsHout_eq] at h
    rw [← eq_of_next h]
    exact .accOut r.1 (r.2 ++ b64Tail r.1) ho hp (by rw [hr]) (by rw [hr])
  · cases h

/-- Every next state of a busy block's turn is one of the transitions. -/
theorem busyStep_of_blockStep {s t : State} (hb : s.state = .busy) (h : blockStep s = .next t) : BusyStep s t := by
  rw [blockStep_busy hb] at h
  split_ifs at h with h1 h2 h3 h4 h5 h6
  · exact decodeRunning_cases hb h1 h
  · exact encodeRunning_cases hb h2 h
  · exact maskRunning_cases h3 h
  · exact sha1Running_cases h4 h
  · exact b64Running_cases h5 h
  · exact acceptRunning_cases h6 h
  · unfold illegalRunning at h
    split at h <;> rename_i hp
    · rw [← eq_of_next h]; 
      exact .illegalOp (by unfold firstPhase; rw [if_neg h1, if_neg h2, if_neg h3, if_neg h4, if_neg h5, if_neg h6]) hp
    · cases h

/-- The next state of a turn in which an idle block takes the command word `w`. -/
theorem exec_idle {s : State} (h : s.state = .idle) (w : W72) :
    exec (decodeWord w) s = .next { s with
      op := cmdOp w, len := cmdLen w, key := if cmdOp w = 0x03 then Key.ofWord (cmdKey w) else s.key,
      idx := 0, ocnt := 0, state := .busy, phase := firstPhase (cmdOp w),
      sha := if cmdOp w = 0x04 ∨ cmdOp w = 0x06 then shaInit s.sha else s.sha,
      b64 := if cmdOp w = 0x05 then b64Init s.b64 else s.b64 } := by
  unfold decodeWord firstPhase
  split_ifs <;>
    simp_all [exec, execDecode, execEncode, execMask, execSha1, execB64, execAccept, execIllegal, commandTurn, takeCommand]

end Sys2Proof.Machine
end

