-- ==== Sys2Proof/Laws/Forward.lean ====
section
/-! SUPPORT. The other direction of Transitions.lean: every transition is what the block's turn does, so a run is built step
by step from transitions; and how runs compose. -/

namespace Sys2Proof.Machine

/-- The first step of a run, of any machine. -/
theorem core_run_succ (M : Host.Core) {s t : M.State} (h : M.step s = .next t) (k : Nat) :
    M.run (k + 1) s = M.run k t := by
  rw [Host.Core.run, h]

/-- A run in two parts, of any machine. -/
theorem core_run_add (M : Host.Core) {s t : M.State} {j : Nat} (h : M.run j s = .next t) (k : Nat) :
    M.run (j + k) s = M.run k t := by
  induction j generalizing s with
  | zero =>
    rw [Host.Core.run] at h
    injection h with h
    rw [h, Nat.zero_add]
  | succ j ih =>
    rw [Host.Core.run] at h
    split at h
    · rename_i u hs
      rw [show j + 1 + k = j + k + 1 by omega, core_run_succ M hs, ih h]
    · cases h
    · cases h

/-- The first step of a run. -/
theorem run_succ {s t : State} (h : step s = .next t) (k : Nat) :
    Host.Core.run core (k + 1) s = Host.Core.run core k t := core_run_succ core h k

/-- A run in two parts. -/
theorem run_add {s t : State} {j : Nat} (h : Host.Core.run core j s = .next t) (k : Nat) :
    Host.Core.run core (j + k) s = Host.Core.run core k t := core_run_add core h k

/-- A state the step does not leave is not left by any run. -/
theorem run_stays {s : State} (h : step s = .next s) (k : Nat) : Host.Core.run core k s = .next s := by
  induction k with
  | zero => rfl
  | succ k ih => rw [run_succ h, ih]

/-- What no transition of a busy block changes. -/
theorem busyStep_keeps {s t : State} (h : BusyStep s t) :
    t.sched = s.sched ∧ t.cmds = s.cmds ∧ t.strictHdr = s.strictHdr ∧ t.op = s.op ∧ t.len = s.len ∧
      t.rx.closed = s.rx.closed ∧ t.hin.closed = s.hin.closed := by
  cases h <;> exact ⟨rfl, rfl, rfl, rfl, rfl, rfl, rfl⟩

/-- The command a phase belongs to. -/
theorem op_of_phase (p : Phase) : ∀ op : Byte, p ∈ phasesOf op →
    match p with
      | .pIdle => firstPhase op = .pIdle
      | .dHdr0 | .dHdr1 | .dExt0 | .dExt1 | .dKey0 | .dKey1 | .dKey2 | .dKey3 | .dPay => op = 0x01
      | .eHdr | .ePay => op = 0x02
      | .mPay => op = 0x03
      | .sAbs | .sFin | .sOut => op = 0x04
      | .bAbs | .bFin => op = 0x05
      | .aTok | .aGuid | .aFin | .aOut => op = 0x06 := by
  cases p <;> decide +kernel

theorem blockStep_decode {s : State} (hb : s.state = .busy) (ho : s.op = 0x01) : blockStep s = decodeRunning s := by
  rw [blockStep_busy hb, if_pos ho]

theorem blockStep_encode {s : State} (hb : s.state = .busy) (ho : s.op = 0x02) : blockStep s = encodeRunning s := by
  rw [blockStep_busy hb, ho]; rfl

theorem blockStep_mask {s : State} (hb : s.state = .busy) (ho : s.op = 0x03) : blockStep s = maskRunning s := by
  rw [blockStep_busy hb, ho]; rfl

theorem blockStep_sha1 {s : State} (hb : s.state = .busy) (ho : s.op = 0x04) : blockStep s = sha1Running s := by
  rw [blockStep_busy hb, ho]; rfl

theorem blockStep_b64 {s : State} (hb : s.state = .busy) (ho : s.op = 0x05) : blockStep s = b64Running s := by
  rw [blockStep_busy hb, ho]; rfl

theorem blockStep_accept {s : State} (hb : s.state = .busy) (ho : s.op = 0x06) : blockStep s = acceptRunning s := by
  rw [blockStep_busy hb, ho]; rfl

/-- `In(RX)`, seen from the phase that needs it. -/
theorem blockStep_needsRx {s : State} (hb : s.state = .busy) (hp : s.phase ∈ phasesOf s.op) (hn : needsRx s = true) :
    ∃ k, blockStep s = takeRx s k := by
  have ho := op_of_phase _ _ hp
  unfold needsRx at hn
  cases h : s.phase <;> rw [h] at hn ho <;> try (exact absurd hn Bool.false_ne_true)
  all_goals
    rw [blockStep_decode hb ho, decodeRunning, h]
    dsimp only
    first
      | exact ⟨_, rfl⟩
      | (refine ⟨_, if_neg ?_⟩
         simpa using hn)

/-- `In(HIN)`, seen from the phase that needs it. -/
theorem blockStep_needsHin {s : State} (hb : s.state = .busy) (hp : s.phase ∈ phasesOf s.op) (hn : needsHin s = true) :
    ∃ k, blockStep s = takeHin s k := by
  have ho := op_of_phase _ _ hp
  unfold needsHin at hn
  cases h : s.phase <;> rw [h] at hn ho <;> try (exact absurd hn Bool.false_ne_true)
  all_goals simp only [bne_iff_ne] at hn
  · exact ⟨_, by rw [blockStep_encode hb ho, encodeRunning, h]; exact if_neg hn⟩
  · exact ⟨_, by rw [blockStep_mask hb ho, maskRunning, h]; exact if_neg hn⟩
  · exact ⟨_, by rw [blockStep_sha1 hb ho, sha1Running, h]; exact if_neg hn⟩
  · exact ⟨_, by rw [blockStep_b64 hb ho, b64Running, h]; exact if_neg hn⟩
  · exact ⟨_, by rw [blockStep_accept hb ho, acceptRunning, h]; exact if_neg hn⟩

/-- Every transition of a busy block in a phase of its command is what its turn does. -/
theorem blockStep_of_busyStep {s t : State} (hb : s.state = .busy) (hp0 : s.phase ∈ phasesOf s.op) (h : BusyStep s t) :
    blockStep s = .next t := by
  cases h with
  | rxShort hn hq hc => obtain ⟨k, hk⟩ := blockStep_needsRx hb hp0 hn; rw [hk, takeRx_short hq hc]
  | rxHold hn hq hc => obtain ⟨k, hk⟩ := blockStep_needsRx hb hp0 hn; rw [hk, takeRx_hold hq hc]
  | hinShort hn hq hc => obtain ⟨k, hk⟩ := blockStep_needsHin hb hp0 hn; rw [hk, takeHin_short hq hc]
  | hinHold hn hq hc => obtain ⟨k, hk⟩ := blockStep_needsHin hb hp0 hn; rw [hk, takeHin_hold hq hc]
  | hdr0 b rest ho hp hq hs =>
    rw [blockStep_decode hb ho, decodeRunning, hp]; dsimp only
    rw [dHdr0Step, takeRx_cons hq, if_neg]
    simp only [leaveRx_strictHdr, Bool.and_eq_true, Bool.not_eq_true', not_and, Bool.not_eq_false]
    intro h; rcases hs with hs | hs
    · rw [h] at hs; cases hs
    · exact hs
  | hdr0Bad b rest ho hp hq hs hn =>
    rw [blockStep_decode hb ho, decodeRunning, hp]; dsimp only
    rw [dHdr0Step, takeRx_cons hq, if_pos]
    simp [hs, hn]
  | hdr1Unmasked b rest ho hp hq hm =>
    rw [blockStep_decode hb ho, decodeRunning, hp]; dsimp only
    rw [dHdr1Step, takeRx_cons hq, show inForm b = .unmasked (indOf b) by unfold inForm; rw [if_pos hm]]
    dsimp only
    rw [execFrameInUnmasked, inPhase_at (by exact hb) (by exact hp), byte1_unmasked b hm]
  | hdr1Short b rest ho hp hq hm h1 =>
    rw [blockStep_decode hb ho, decodeRunning, hp]; dsimp only
    rw [dHdr1Step, takeRx_cons hq, inForm_masked hm, if_pos h1]
    dsimp only
    rw [execFrameIn7, inPhase_at (by exact hb) (by exact hp), byte1_masked b hm]
  | hdr1Ext rest ho hp hq =>
    rw [blockStep_decode hb ho, decodeRunning, hp]; dsimp only
    rw [dHdr1Step, takeRx_cons hq]; rfl
  | hdr1Long rest ho hp hq =>
    rw [blockStep_decode hb ho, decodeRunning, hp]; dsimp only
    rw [dHdr1Step, takeRx_cons hq, show inForm 0xFF = .ext64 from rfl]
    dsimp only
    rw [execFrameIn64, inPhase_at (by exact hb) (by exact hp)]
  | ext0 b rest ho hp hq =>
    rw [blockStep_decode hb ho, decodeRunning, hp]; dsimp only; rw [dExt0Step, takeRx_cons hq]; rfl
  | ext1 b rest ho hp hq =>
    rw [blockStep_decode hb ho, decodeRunning, hp]; dsimp only; rw [dExt1Step, takeRx_cons hq]; rfl
  | key0 b rest ho hp hq =>
    rw [blockStep_decode hb ho, decodeRunning, hp]; dsimp only; rw [dKey0Step, takeRx_cons hq]; rfl
  | key1 b rest ho hp hq =>
    rw [blockStep_decode hb ho, decodeRunning, hp]; dsimp only; rw [dKey1Step, takeRx_cons hq]; rfl
  | key2 b rest ho hp hq =>
    rw [blockStep_decode hb ho, decodeRunning, hp]; dsimp only; rw [dKey2Step, takeRx_cons hq]; rfl
  | key3 b rest ho hp hq =>
    rw [blockStep_decode hb ho, decodeRunning, hp]; dsimp only; rw [dKey3Step, takeRx_cons hq]; rfl
  | pay b rest ho hp hn hq =>
    rw [blockStep_decode hb ho, decodeRunning, hp]; dsimp only; rw [dPayStep, if_neg hn, takeRx_cons hq]; rfl
  | payDone ho hp hn =>
    rw [blockStep_decode hb ho, decodeRunning, hp]; dsimp only; rw [dPayStep, if_pos hn]
  | encTooLong ho hp hl =>
    rw [blockStep_encode hb ho, encodeRunning, hp]; dsimp only; rw [eHdrStep, if_pos hl]
  | encHdr7 ho hp hl =>
    rw [blockStep_encode hb ho, encodeRunning, hp]; dsimp only
    rw [eHdrStep, if_neg (by simp only [Config.plenMax]; omega), if_pos hl, execFrameOut7, inPhase_at hb hp, len7_byte hl]
    simp [outTx, Config.textByte0, add_assoc]
  | encHdr16 ho hp hl hl' =>
    rw [blockStep_encode hb ho, encodeRunning, hp]; dsimp only
    rw [eHdrStep, if_neg (Nat.not_lt.mpr hl'), if_neg (Nat.not_le.mpr hl), execFrameOut16, inPhase_at hb hp, hi8_setWidth,
      lo8_setWidth]
    simp [outTx, Config.textByte0, add_assoc]
  | encPay b rest ho hp hn hq =>
    rw [blockStep_encode hb ho, encodeRunning, hp]; dsimp only; rw [ePayStep, if_neg hn, takeHin_cons hq]; rfl
  | encDone ho hp hn =>
    rw [blockStep_encode hb ho, encodeRunning, hp]; dsimp only; rw [ePayStep, if_pos hn]
  | maskPay b rest ho hp hn hq =>
    rw [blockStep_mask hb ho, maskRunning, hp]; dsimp only; rw [mPayStep, if_neg hn, takeHin_cons hq]; rfl
  | maskDone ho hp hn =>
    rw [blockStep_mask hb ho, maskRunning, hp]; dsimp only; rw [mPayStep, if_pos hn]
  | shaAbs b rest ho hp hn hq =>
    rw [blockStep_sha1 hb ho, sha1Running, hp]; dsimp only; rw [sAbsStep, if_neg hn, takeHin_cons hq]; rfl
  | shaEnd ho hp hn =>
    rw [blockStep_sha1 hb ho, sha1Running, hp]; dsimp only; rw [sAbsStep, if_pos hn]
  | shaFin ho hp =>
    rw [blockStep_sha1 hb ho, sha1Running, hp]; dsimp only; rw [sFinStep]
  | shaOut ho hp hn =>
    rw [blockStep_sha1 hb ho, sha1Running, hp]; dsimp only; rw [sOutStep, if_neg hn, ← hp]; rfl
  | shaDone ho hp hn =>
    rw [blockStep_sha1 hb ho, sha1Running, hp]; dsimp only; rw [sOutStep, if_pos hn]
  | b64Abs b rest ho hp hn hq =>
    rw [blockStep_b64 hb ho, b64Running, hp]; dsimp only; rw [bAbsStep, if_neg hn, takeHin_cons hq, outsHout_eq]; rfl
  | b64End ho hp hn =>
    rw [blockStep_b64 hb ho, b64Running, hp]; dsimp only; rw [bAbsStep, if_pos hn]
  | b64Fin ho hp =>
    rw [blockStep_b64 hb ho, b64Running, hp]; dsimp only; rw [bFinStep, outsHout_eq]; rfl
  | accTok b rest ho hp hn hq =>
    rw [blockStep_accept hb ho, acceptRunning, hp]; dsimp only; rw [aTokStep, if_neg hn, takeHin_cons hq]; rfl
  | accEnd ho hp hn =>
    rw [blockStep_accept hb ho, acceptRunning, hp]; dsimp only; rw [aTokStep, if_pos hn]
  | accGuid ho hp =>
    rw [blockStep_accept hb ho, acceptRunning, hp]; dsimp only; rw [aGuidStep]
  | accFin ho hp =>
    rw [blockStep_accept hb ho, acceptRunning, hp]; dsimp only; rw [aFinStep]
  | accOut u out ho hp hu hout =>
    rw [blockStep_accept hb ho, acceptRunning, hp]; dsimp only
    rw [hout, hu, aOutStep]
    generalize b64FeedAll (digestBytes s.sha.h) (b64Init s.b64) = r
    rw [outsHout_eq]; rfl
  | illegalOp ho hp =>
    rw [blockStep_busy hb]
    unfold firstPhase at ho
    split_ifs at ho with h1 h2 h3 h4 h5 h6
    rw [if_neg h1, if_neg h2, if_neg h3, if_neg h4, if_neg h5, if_neg h6, illegalRunning, hp]

/-- The same for a step with no turn scheduled. -/
theorem step_of_busyStep {s t : State} (hs : s.sched = []) (hb : s.state = .busy) (hp : s.phase ∈ phasesOf s.op)
    (h : BusyStep s t) : step s = .next t := (step_nil hs).trans (blockStep_of_busyStep hb hp h)

end Sys2Proof.Machine
end

