-- ==== Sys2Proof/Laws/Ending.lean ====
section
/-! SUPPORT. The end of a run (70_reset_and_hazards.md R264): the three ways a run stands exclude each other, cover a run
that has no further command, and an end is not left. -/

namespace Sys2Proof.Machine

/-- A run is its reset step and then a finite number of steps without a reset (R264, R250). -/
theorem isRun_cases {s t : State} (h : IsRun s t) :
    ∃ strap rest k, s.sched = .reset strap :: rest ∧ (∀ level, Move.reset level ∉ rest) ∧
      step s = .next (resetBlock strap { s with sched := rest }) ∧
      Host.Core.run core k (resetBlock strap { s with sched := rest }) = .next t := by
  obtain ⟨strap, rest, k, hs, hr, hk⟩ := h
  have hst : step s = .next (resetBlock strap { s with sched := rest }) := step_move hs (by simp)
  exact ⟨strap, rest, k, hs, hr, hst, by rwa [run_succ hst] at hk⟩

theorem wordsToIssue_tail {m : Move} {rest : List Move} (h : wordsToIssue (m :: rest) = []) : wordsToIssue rest = [] := by
  cases m <;> first | exact h | exact absurd h (List.cons_ne_nil _ _)

/-- With nothing further to issue, no scheduled turn issues a word. -/
theorem issue_not_mem {sched : List Move} (h : wordsToIssue sched = []) (w : W72) : Move.issue w ∉ sched := by
  induction sched with
  | nil => simp
  | cons m rest ih =>
    rw [List.mem_cons, not_or]
    exact ⟨fun hm => by subst hm; exact List.cons_ne_nil _ _ h, ih (wordsToIssue_tail h)⟩

theorem not_endedBadly_of_endedWell {s : State} (h : EndedWell s) : ¬EndedBadly s := fun hb =>
  Seq.noConfusion (h.2.1.symm.trans hb)

theorem not_notEnded_of_endedWell {s : State} (h : EndedWell s) : ¬NotEnded s := fun hb =>
  Seq.noConfusion (h.2.1.symm.trans hb)

/-- A run with no further command has ended well, ended badly or not ended. -/
theorem ended_cases {s : State} (hi : Inv s) (h : NoFurtherCommand s) : EndedWell s ∨ EndedBadly s ∨ NotEnded s := by
  cases hs : s.state with
  | idle => exact .inl ⟨h, hs, hi.err_none_iff.mpr (by rw [hs]; decide)⟩
  | busy => exact .inr (.inr hs)
  | fault => exact .inr (.inl hs)

/-- A run that has ended well stays so, whatever turns remain. -/
theorem endedWell_step {s t : State} (h : EndedWell s) (hst : step s = .next t) : EndedWell t := by
  obtain ⟨⟨hc, hw⟩, hi, he⟩ := h
  cases hs : s.sched with
  | nil =>
    rw [step_nil hs, blockStep_rest hi hc] at hst
    rw [← eq_of_next hst]
    exact ⟨⟨hc, hw⟩, hi, he⟩
  | cons m rest =>
    rw [hs] at hw
    have hw' := wordsToIssue_tail hw
    by_cases hm : m = .block
    · subst hm
      rw [step_block hs, blockStep_rest (by exact hi) (by exact hc)] at hst
      rw [← eq_of_next hst]
      exact ⟨⟨hc, hw'⟩, hi, he⟩
    · rw [step_move hs hm] at hst
      rw [← eq_of_next hst]
      cases m with
      | issue w => exact absurd hw (List.cons_ne_nil _ _)
      | reset strap => exact ⟨⟨hc, hw'⟩, rfl, rfl⟩
      | _ => exact ⟨⟨hc, hw'⟩, hi, he⟩

end Sys2Proof.Machine
end

