-- ==== Sys2Proof/Laws/PerInstr.lean ====
section
/-! SUPPORT. A law of each instruction as syntax: the encoding of a well-formed instruction matches its row's fixed bits
(spec/opcode_table.json, match and mask). -/

namespace Sys2Proof.Laws

/-- A code has the fixed bits of a row: the masked bits of its first word or bytes equal the row's match, read as one
number. -/
def hasFixedBits (mask value : Nat) : Code → Prop
  | .word w => w.toNat &&& mask = value
  | .inbound bs => bs.foldl (fun n b => 256 * n + b.toNat) 0 &&& mask = value
  | .outbound bs => bs.foldl (fun n b => 256 * n + b.toNat) 0 &&& mask = value

/-- The row's match and mask; the illegal row fixes no bit. -/
def rowFixed : Instr → Nat × Nat
  | .decode _ _ => (0xFF0000000000000000, 0x010000000000000000)
  | .encode _ _ => (0xFF0000000000000000, 0x020000000000000000)
  | .mask _ _ => (0xFF0000000000000000, 0x030000000000000000)
  | .sha1 _ _ => (0xFF0000000000000000, 0x040000000000000000)
  | .b64 _ _ => (0xFF0000000000000000, 0x050000000000000000)
  | .accept _ _ => (0xFF0000000000000000, 0x060000000000000000)
  | .illegal _ _ _ => (0, 0)
  | .frameIn7 _ _ => (0x0080, 0x0080)
  | .frameIn16 _ _ => (0x00FF0000, 0x00FE0000)
  | .frameIn64 _ => (0x00FF, 0x00FF)
  | .frameInUnmasked _ _ => (0x0080, 0x0000)
  | .frameOut7 _ => (0xFF80, 0x8100)
  | .frameOut16 _ => (0xFFFF0000, 0x817E0000)

end Sys2Proof.Laws

/-- The law of this family: a well-formed instruction's encoding has its row's fixed bits. -/
def Sys2Proof.Laws.FixedBits.Statement (i : Sys2Proof.Instr) : Prop :=
  Sys2Proof.WellFormed i = true →
    Sys2Proof.Laws.hasFixedBits (Sys2Proof.Laws.rowFixed i).1 (Sys2Proof.Laws.rowFixed i).2 (Sys2Proof.encode i)

namespace Sys2Proof.Laws.FixedBits

/-- The top byte of a command word is its opcode. -/
theorem cmdWord_top (op : Byte) (len key : W32) :
    (cmdWord op len key).toNat &&& 0xFF0000000000000000 = op.toNat * 2 ^ 64 := by
  have hw : (cmdWord op len key).toNat = op.toNat * 2 ^ 64 + (len.toNat * 2 ^ 32 + key.toNat) := by
    simp only [cmdWord, BitVec.toNat_append, Nat.shiftLeft_eq]
    rw [Nat.mul_comm (_ ||| _), ← Nat.two_pow_add_eq_or_of_lt key.isLt, Nat.mul_comm op.toNat,
      ← Nat.two_pow_add_eq_or_of_lt len.isLt]
    ring
  have hlow : len.toNat * 2 ^ 32 + key.toNat < 2 ^ 64 := by have := len.isLt; have := key.isLt; omega
  rw [hw]
  apply Nat.eq_of_testBit_eq
  intro i
  rw [Nat.testBit_and, show (0xFF0000000000000000 : Nat) = (2 ^ 8 - 1) * 2 ^ 64 by norm_num,
    show op.toNat * 2 ^ 64 + (len.toNat * 2 ^ 32 + key.toNat) = 2 ^ 64 * op.toNat + (len.toNat * 2 ^ 32 + key.toNat) by ring,
    Nat.testBit_two_pow_mul_add _ hlow, Nat.testBit_mul_two_pow, Nat.testBit_mul_two_pow, Nat.testBit_two_pow_sub_one]
  by_cases h : i < 64
  · simp [h, show ¬ 64 ≤ i by omega]
  · simp only [h, if_false, show 64 ≤ i by omega, decide_true, Bool.true_and]
    by_cases h8 : i - 64 < 8
    · simp [h8]
    · have : op.toNat.testBit (i - 64) = false :=
        Nat.testBit_lt_two_pow (lt_of_lt_of_le op.isLt (Nat.pow_le_pow_right (by norm_num) (by omega)))
      simp [h8, this]

theorem decode (len key : W32) : Statement (.decode len key) := fun _ => cmdWord_top 0x01 len key
theorem encode (len key : W32) : Statement (.encode len key) := fun _ => cmdWord_top 0x02 len key
theorem mask (len key : W32) : Statement (.mask len key) := fun _ => cmdWord_top 0x03 len key
theorem sha1 (len key : W32) : Statement (.sha1 len key) := fun _ => cmdWord_top 0x04 len key
theorem b64 (len key : W32) : Statement (.b64 len key) := fun _ => cmdWord_top 0x05 len key
theorem accept (len key : W32) : Statement (.accept len key) := fun _ => cmdWord_top 0x06 len key

/-- Masking a number byte by byte. -/
theorem and_bytes (a m : Nat) {b k : Nat} (hb : b < 256) (hk : k < 256) :
    (256 * a + b) &&& (256 * m + k) = 256 * (a &&& m) + (b &&& k) := by
  have hbk : b &&& k < 2 ^ 8 := lt_of_le_of_lt Nat.and_le_left hb
  apply Nat.eq_of_testBit_eq
  intro i
  rw [Nat.testBit_and, show (256 : Nat) = 2 ^ 8 by norm_num, Nat.testBit_two_pow_mul_add _ hb,
    Nat.testBit_two_pow_mul_add _ hk, Nat.testBit_two_pow_mul_add _ hbk]
  by_cases h : i < 8 <;> simp [h, Nat.testBit_and]

theorem byte1_in (b : Bool) : ∀ n : BitVec 7,
    (BitVec.ofBool b ++ n : Byte).toNat &&& 0x80 = if b then 0x80 else 0 := by
  cases b <;> decide +kernel

theorem illegal (op : Byte) (len key : W32) : Statement (.illegal op len key) := fun _ => Nat.and_zero _

theorem frameIn7 (hdr0 : Byte) (ind : BitVec 7) : Statement (.frameIn7 hdr0 ind) := fun _ => by
  simp only [Sys2Proof.encode, rowFixed, hasFixedBits, List.foldl_cons, List.foldl_nil]
  rw [show (0x0080 : Nat) = 256 * 0 + 0x80 by norm_num, and_bytes _ _ (1#1 ++ ind : Byte).isLt (by norm_num)]
  simpa using byte1_in true ind

theorem frameInUnmasked (hdr0 : Byte) (ind : BitVec 7) : Statement (.frameInUnmasked hdr0 ind) := fun _ => by
  simp only [Sys2Proof.encode, rowFixed, hasFixedBits, List.foldl_cons, List.foldl_nil]
  rw [show (0x0080 : Nat) = 256 * 0 + 0x80 by norm_num, and_bytes _ _ (0#1 ++ ind : Byte).isLt (by norm_num)]
  simpa using byte1_in false ind

theorem frameIn64 (hdr0 : Byte) : Statement (.frameIn64 hdr0) := fun _ => by
  simp only [Sys2Proof.encode, rowFixed, hasFixedBits, List.foldl_cons, List.foldl_nil]
  rw [show (0x00FF : Nat) = 256 * 0 + 0xFF by norm_num, and_bytes _ _ (0xFF : Byte).isLt (by norm_num)]
  simp

theorem frameIn16 (hdr0 : Byte) (plen : W16) : Statement (.frameIn16 hdr0 plen) := fun _ => by
  simp only [Sys2Proof.encode, rowFixed, hasFixedBits, List.foldl_cons, List.foldl_nil]
  rw [show (0x00FF0000 : Nat) = 256 * (256 * (256 * 0 + 0xFF) + 0) + 0 by norm_num,
    and_bytes _ _ (lo8 plen).isLt (by norm_num), and_bytes _ _ (hi8 plen).isLt (by norm_num),
    and_bytes _ _ (0xFE : Byte).isLt (by norm_num)]
  simp

theorem frameOut7 (n : BitVec 7) : Statement (.frameOut7 n) := fun _ => by
  simp only [Sys2Proof.encode, rowFixed, hasFixedBits, List.foldl_cons, List.foldl_nil]
  rw [show (0xFF80 : Nat) = 256 * 0xFF + 0x80 by norm_num, and_bytes _ _ (0#1 ++ n : Byte).isLt (by norm_num)]
  have := byte1_in false n
  simp [Config.textByte0] at this ⊢
  exact this

theorem frameOut16 (n : W16) : Statement (.frameOut16 n) := fun _ => by
  simp only [Sys2Proof.encode, rowFixed, hasFixedBits, List.foldl_cons, List.foldl_nil]
  rw [show (0xFFFF0000 : Nat) = 256 * (256 * 0xFFFF + 0) + 0 by norm_num,
    and_bytes _ _ (lo8 n).isLt (by norm_num), and_bytes _ _ (hi8 n).isLt (by norm_num)]
  simp [Config.textByte0]

end Sys2Proof.Laws.FixedBits
end

