-- ==== Sys2Proof/Laws/Units.lean ====
section
/-! SUPPORT. How the SHA-1 and base64 units count: `BFILL`, `MLEN`, `GFILL` and the number of characters put out, after
each operation of the two units. Proofs about a counter cite these and never unfold a compression. -/

namespace Sys2Proof.Machine

@[simp] theorem shaInit_bfill (u : ShaUnit) : (shaInit u).bfill = 0 := rfl
@[simp] theorem shaInit_mlen (u : ShaUnit) : (shaInit u).mlen = 0 := rfl
@[simp] theorem shaInit_h (u : ShaUnit) : (shaInit u).h = shaIV := rfl
@[simp] theorem shaInit_blk (u : ShaUnit) : (shaInit u).blk = u.blk := rfl

/-- One byte moves `BFILL` on by one, and back to 0 from 63. -/
theorem shaPad_bfill (b : Byte) {u : ShaUnit} (h : u.bfill.toNat < 64) :
    (shaPad b u).bfill.toNat = (u.bfill.toNat + 1) % 64 := by
  have h1 : (u.bfill + 1).toNat = u.bfill.toNat + 1 := by
    rw [BitVec.toNat_add, show (1 : BitVec 7).toNat = 1 from rfl]; omega
  unfold shaPad
  by_cases hf : u.bfill + 1 = 64
  · rw [if_pos hf]
    rw [hf, show (64 : BitVec 7).toNat = 64 from rfl] at h1
    show 0 = _
    omega
  · rw [if_neg hf]
    have : (u.bfill + 1).toNat ≠ 64 := fun he => hf (BitVec.eq_of_toNat_eq he)
    show (u.bfill + 1).toNat = _
    omega

@[simp] theorem shaPad_mlen (b : Byte) (u : ShaUnit) : (shaPad b u).mlen = u.mlen := by
  unfold shaPad; split <;> rfl

theorem absorb_bfill (b : Byte) {u : ShaUnit} (h : u.bfill.toNat < 64) :
    (absorb b u).bfill.toNat = (u.bfill.toNat + 1) % 64 := shaPad_bfill b h

@[simp] theorem absorb_mlen (b : Byte) (u : ShaUnit) : (absorb b u).mlen = u.mlen + 1 := rfl

theorem absorbAll_bfill (bs : List Byte) {u : ShaUnit} (h : u.bfill.toNat < 64) :
    (absorbAll bs u).bfill.toNat = (u.bfill.toNat + bs.length) % 64 := by
  induction bs generalizing u with
  | nil => exact (Nat.mod_eq_of_lt h).symm
  | cons b bs ih =>
    have hb := absorb_bfill b h
    rw [absorbAll, ih (by omega), hb, List.length_cons]
    omega

theorem absorbAll_mlen (bs : List Byte) (u : ShaUnit) :
    (absorbAll bs u).mlen = u.mlen + BitVec.ofNat 64 bs.length := by
  induction bs generalizing u with
  | nil => simp [absorbAll]
  | cons b bs ih =>
    apply BitVec.eq_of_toNat_eq
    simp only [absorbAll, ih, absorb_mlen, List.length_cons, BitVec.toNat_add, BitVec.toNat_ofNat,
      show (1 : W64).toNat = 1 from rfl]
    omega

theorem shaPadAll_bfill (bs : List Byte) {u : ShaUnit} (h : u.bfill.toNat < 64) :
    (shaPadAll bs u).bfill.toNat = (u.bfill.toNat + bs.length) % 64 := by
  induction bs generalizing u with
  | nil => exact (Nat.mod_eq_of_lt h).symm
  | cons b bs ih =>
    have hb := shaPad_bfill b h
    rw [shaPadAll, ih (by omega), hb, List.length_cons]
    omega

@[simp] theorem shaPadAll_mlen (bs : List Byte) (u : ShaUnit) : (shaPadAll bs u).mlen = u.mlen := by
  induction bs generalizing u with
  | nil => rfl
  | cons b bs ih => rw [shaPadAll, ih, shaPad_mlen]

/-- With fuel enough, the zero padding stops at `BFILL` = 56. -/
theorem padTo56_bfill (fuel : Nat) {u : ShaUnit} (h : u.bfill.toNat < 64) (hf : (120 - u.bfill.toNat) % 64 ≤ fuel) :
    (padTo56 fuel u).bfill = 56 := by
  induction fuel generalizing u with
  | zero =>
    apply BitVec.eq_of_toNat_eq
    rw [padTo56, show (56 : BitVec 7).toNat = 56 from rfl]
    omega
  | succ fuel ih =>
    rw [padTo56]
    by_cases he : u.bfill = 56
    · rw [if_pos he, he]
    · rw [if_neg he]
      have hn : u.bfill.toNat ≠ 56 := fun hn => he (BitVec.eq_of_toNat_eq hn)
      have hp := shaPad_bfill 0x00 h
      exact ih (by omega) (by omega)

@[simp] theorem padTo56_mlen (fuel : Nat) (u : ShaUnit) : (padTo56 fuel u).mlen = u.mlen := by
  induction fuel generalizing u with
  | zero => rfl
  | succ fuel ih =>
    rw [padTo56]
    by_cases he : u.bfill = 56
    · rw [if_pos he]
    · rw [if_neg he, ih, shaPad_mlen]

/-- `finish()` leaves the block buffer empty (43_sha1.md R168). -/
theorem shaFinish_bfill {u : ShaUnit} (h : u.bfill.toNat < 64) : (shaFinish u).bfill = 0 := by
  have h1 := shaPad_bfill 0x80 h
  have h2 := padTo56_bfill 64 (u := shaPad 0x80 u) (by omega) (by omega)
  apply BitVec.eq_of_toNat_eq
  rw [shaFinish, shaPadAll_bfill _ (by rw [h2]; decide), h2]
  simp [be64]

@[simp] theorem shaFinish_mlen (u : ShaUnit) : (shaFinish u).mlen = u.mlen := by
  simp [shaFinish]

@[simp] theorem b64Init_gfill (u : B64Unit) : (b64Init u).gfill = 0 := rfl

theorem b64Put_gfill (b : Byte) (u : B64Unit) : (b64Put b u).gfill = u.gfill + 1 := by
  unfold b64Put; split_ifs <;> rfl

/-- One byte moves `GFILL` on by one, and back to 0 when the group is full. -/
theorem b64Feed_gfill (b : Byte) {u : B64Unit} (h : u.gfill.toNat ≤ 2) :
    (b64Feed b u).1.gfill.toNat = (u.gfill.toNat + 1) % 3 := by
  have h1 : (b64Put b u).gfill.toNat = u.gfill.toNat + 1 := by
    rw [b64Put_gfill, BitVec.toNat_add, show (1 : BitVec 2).toNat = 1 from rfl]; omega
  unfold b64Feed
  by_cases hf : (b64Put b u).gfill = 3
  · rw [hf, show (3 : BitVec 2).toNat = 3 from rfl] at h1
    simp only [hf, if_true]
    show 0 = _
    omega
  · have : (b64Put b u).gfill.toNat ≠ 3 := fun he => hf (BitVec.eq_of_toNat_eq he)
    simp only [hf, if_false]
    omega

@[simp] theorem groupChars_length (a b c : Byte) : (groupChars a b c).length = 4 := rfl
@[simp] theorem tailChars1_length (a : Byte) : (tailChars1 a).length = 4 := rfl
@[simp] theorem tailChars2_length (a b : Byte) : (tailChars2 a b).length = 4 := rfl

/-- Every third byte puts out four characters. -/
theorem b64Feed_length (b : Byte) (u : B64Unit) :
    (b64Feed b u).2.length = if u.gfill = 2 then 4 else 0 := by
  unfold b64Feed
  by_cases hf : (b64Put b u).gfill = 3
  · have hu : u.gfill = 2 := by rw [b64Put_gfill] at hf; revert hf; generalize u.gfill = g; revert g; decide
    simp only [hf, hu, if_true, groupChars_length]
  · have hu : u.gfill ≠ 2 := by rw [b64Put_gfill] at hf; intro he; rw [he] at hf; exact hf rfl
    simp only [hf, hu, if_false, List.length_nil]

theorem b64FeedAll_gfill (bs : List Byte) {u : B64Unit} (h : u.gfill.toNat ≤ 2) :
    (b64FeedAll bs u).1.gfill.toNat = (u.gfill.toNat + bs.length) % 3 := by
  induction bs generalizing u with
  | nil => rw [List.length_nil, Nat.add_zero, Nat.mod_eq_of_lt (Nat.lt_succ_of_le h), b64FeedAll]
  | cons b bs ih =>
    have hb := b64Feed_gfill b h
    rw [b64FeedAll, ih (by omega), hb, List.length_cons]
    omega

theorem b64FeedAll_length (bs : List Byte) {u : B64Unit} (h : u.gfill.toNat ≤ 2) :
    (b64FeedAll bs u).2.length = 4 * ((u.gfill.toNat + bs.length) / 3) := by
  induction bs generalizing u with
  | nil => simp only [b64FeedAll, List.length_nil]; omega
  | cons b bs ih =>
    have hb := b64Feed_gfill b h
    have hl := b64Feed_length b u
    rw [b64FeedAll, List.length_append, ih (by omega), hb, hl, List.length_cons]
    by_cases hu : u.gfill = 2
    · rw [if_pos hu, hu, show (2 : BitVec 2).toNat = 2 from rfl]; omega
    · have : u.gfill.toNat ≠ 2 := fun he => hu (BitVec.eq_of_toNat_eq he)
      rw [if_neg hu]; omega

theorem b64Tail_length (u : B64Unit) :
    (b64Tail u).length = if u.gfill = 1 ∨ u.gfill = 2 then 4 else 0 := by
  unfold b64Tail
  by_cases h1 : u.gfill = 1
  · rw [if_pos h1, if_pos (.inl h1), tailChars1_length]
  · by_cases h2 : u.gfill = 2
    · rw [if_neg h1, if_pos h2, if_pos (.inr h2), tailChars2_length]
    · rw [if_neg h1, if_neg h2, if_neg (not_or.mpr ⟨h1, h2⟩), List.length_nil]

@[simp] theorem digestBytes_length (h : Chain) : (digestBytes h).length = 20 := by simp [digestBytes]

@[simp] theorem guid_length : guid.length = 36 := rfl

end Sys2Proof.Machine
end

