-- ==== Sys2Proof/Tests/Slice0.lean ====
section
/-! SUPPORT. Tests: ill-formed terms refused, words written out bit by bit from the encoding tables, one step of each
instruction against spec/95_test_vectors.md, the placing of an instruction, and for every statement that has hypotheses a
witness `witness_<its name>` that meets them. -/

namespace Sys2Proof.Tests

open Sys2Proof.Machine

/-- The next state of a result. -/
def after (r : Result) : Option State :=
  match r with
  | .next t => some t
  | _ => none

/-- A block from reset that is running the command `op` in phase `p`. -/
def at1 (op : Byte) (p : Phase) : State := { State.reset with state := .busy, op := op, phase := p }

/-- A state with these bytes on `RX`. -/
def onRx (bs : List Byte) (s : State) : State := { s with rx := { queue := bs, closed := false } }

/-- A state with these bytes on `HIN`. -/
def onHin (bs : List Byte) (s : State) : State := { s with hin := { queue := bs, closed := false } }

/-- A block from reset with one command word presented. -/
def told (w : W72) : State := { State.reset with cmds := [w] }

/-- The key of the spec's examples (95_test_vectors.md). -/
def exampleKey : Key := { k0 := 0x37, k1 := 0xFA, k2 := 0x21, k3 := 0x3D }

/-! ### Well-formedness: for each check a term it refuses, and the boundary term it admits -/

theorem test_wf_illegal_op : WellFormed (.illegal 0x01 0 0) = false ∧ WellFormed (.illegal 0x06 0 0) = false ∧
    WellFormed (.illegal 0x00 0 0) = true ∧ WellFormed (.illegal 0x07 0 0) = true := by decide

theorem test_wf_frame_in7 : WellFormed (.frameIn7 0x81 126) = false ∧ WellFormed (.frameIn7 0x81 127) = false ∧
    WellFormed (.frameIn7 0x81 125) = true := by decide

theorem test_wf_frame_out7 : WellFormed (.frameOut7 126) = false ∧ WellFormed (.frameOut7 125) = true := by decide

theorem test_wf_frame_out16 : WellFormed (.frameOut16 125) = false ∧ WellFormed (.frameOut16 126) = true ∧
    WellFormed (.frameOut16 65535) = true := by decide

/-! ### Decoding: words written out from the spec's encoding -/

-- 30_encoding.md R70, R71: OP in bits 71:64, LEN in 63:32, KEY in 31:0; the opcode bits of each command, one by one.
theorem test_decode_command_bits :
    decodeWord (0b00000001#8 ++ 0#32 ++ 0#32) = .decode 0 0 ∧
    decodeWord (0b00000010#8 ++ 0#16 ++ 0b0000000001111110#16 ++ 0#32) = .encode 126 0 ∧
    decodeWord (0b00000100#8 ++ 0#28 ++ 0b0011#4 ++ 0#32) = .sha1 3 0 ∧
    decodeWord (0b00000101#8 ++ 0#24 ++ 0b00010100#8 ++ 0#32) = .b64 20 0 ∧
    decodeWord (0b00000110#8 ++ 0#24 ++ 0b00011000#8 ++ 0#32) = .accept 24 0 := by decide

-- R70: KEY[0] in bits 31:24, KEY[3] in bits 7:0, of the word of V3, 030000000537FA213D.
theorem test_decode_mask_bits :
    decodeWord (0b00000011#8 ++ 0#29 ++ 0b101#3 ++ 0b00110111#8 ++ 0b11111010#8 ++ 0b00100001#8 ++ 0b00111101#8) =
      .mask 5 0x37FA213D ∧
    Key.ofWord 0x37FA213D = exampleKey := by decide

-- R73: the two boundary opcodes around the legal ones, and 0xFF with junk in KEY (T80, T81, T82).
theorem test_decode_illegal_bits :
    decodeWord 0x000000000000000000 = .illegal 0x00 0 0 ∧ decodeWord 0x070000000500000000 = .illegal 0x07 5 0 ∧
    decodeWord 0xFF00000000FFFFFFFF = .illegal 0xFF 0 0xFFFFFFFF := by decide

-- R76, R79: byte 0 = FIN, three bits, OPCODE; byte 1 = MASK, IND. Frame T1 and the longest 7-bit form.
theorem test_decode_frame_in7_bits :
    decode (.inbound [0b10000001, 0b10000101, 0x37]) = .ok (.frameIn7 0x81 5) [0x37] ∧
    decode (.inbound [0b10000001, 0b11111101]) = .ok (.frameIn7 0x81 125) [] := by decide

-- R79, R81: IND = 126, then the length, high byte first (the n = 256 row of 95_test_vectors.md section 2.1).
theorem test_decode_frame_in16_bits :
    decode (.inbound [0b10000001, 0b11111110, 0x01, 0x00, 0x37]) = .ok (.frameIn16 0x81 256) [0x37] ∧
    decode (.inbound [0x81, 0xFE, 0x01]) = .reject .needMore := by decide

-- R108, R107: IND = 127 with MASK = 1 (T85); MASK = 0 whatever IND is (T83, T84).
theorem test_decode_frame_refused_bits :
    decode (.inbound [0b10000001, 0b11111111, 0x00]) = .ok (.frameIn64 0x81) [0x00] ∧
    decode (.inbound [0b10000001, 0b00000101]) = .ok (.frameInUnmasked 0x81 5) [] ∧
    decode (.inbound [0b10000001, 0b01111111]) = .ok (.frameInUnmasked 0x81 127) [] := by decide

-- R80: 0x81, then the length with bit 7 clear; 126 and the big-endian length (V2).
theorem test_decode_frame_out_bits :
    decode (.outbound [0b10000001, 0b01111101, 0x01]) = .ok (.frameOut7 125) [0x01] ∧
    decode (.outbound [0b10000001, 0b01111110, 0x00, 0x7E]) = .ok (.frameOut16 126) [] ∧
    decode (.outbound [0x82, 0x05]) = .reject .notTextFrame ∧
    decode (.outbound [0x81, 0x7F]) = .reject .notServerLength := by decide

-- The table's own numbers: match values of spec/opcode_table.json and the rows they belong to.
theorem test_decode_table_words :
    decodeTableWord 72 0x030000000000000000 = some (.mask 0 0) ∧ decodeTableWord 72 0 = some (.illegal 0 0 0) ∧
    decodeTableWord 16 0x0080 = some (.frameIn7 0 0) ∧ decodeTableWord 16 0x00FF = some (.frameIn64 0) ∧
    decodeTableWord 16 0x0000 = some (.frameInUnmasked 0 0) ∧ decodeTableWord 16 0x8100 = some (.frameOut7 0) ∧
    decodeTableWord 32 0x00FE0000 = some (.frameIn16 0 0) ∧ decodeTableWord 32 0x817E0000 = some (.frameOut16 0) := by
  decide +kernel

/-! ### One step of each instruction, expected values from 95_test_vectors.md -/

-- T1, step 11: byte 58 with key index 0 again gives 6F, and the step count of IDX and OCNT.
theorem test_decode_payload_byte :
    (after (exec (.decode 0 0) (onRx [0x58] { at1 0x01 .dPay with key := exampleKey, plen := 5, idx := 4, ocnt := 4 }))).map
      (fun t => (t.hout, t.idx, t.ocnt, t.rx.queue)) = some ([0x6F], 5, 5, []) := by decide

-- T84: unmasked is tested before the indicator 127; the byte is latched and the rest stays on RX.
theorem test_decode_unmasked_first :
    (after (exec (.decode 0 0) (onRx [0x7F, 0x01, 0x02] { at1 0x01 .dHdr1 with hdr0 := 0x81 }))).map
      (fun t => (t.state, t.err, t.phase, t.hdr1, t.rx.queue)) = some (.fault, .eUnmasked, .dHdr1, 0x7F, [0x01, 0x02]) := by
  decide

-- V2: n = 126 puts out 81 7E 00 7E; n = 125 puts out 81 7D.
theorem test_encode_header :
    (after (exec (.encode 126 0) { at1 0x02 .eHdr with len := 126 })).map (fun t => (t.tx, t.ocnt, t.phase)) =
      some ([0x81, 0x7E, 0x00, 0x7E], 4, .ePay) ∧
    (after (exec (.encode 125 0) { at1 0x02 .eHdr with len := 125 })).map (fun t => (t.tx, t.ocnt, t.phase)) =
      some ([0x81, 0x7D], 2, .ePay) := by decide

-- T94: n = 65536 faults with no byte put out and none taken; 65535 does not.
theorem test_encode_too_long :
    (after (exec (.encode 65536 0) (onHin [1, 2, 3] { at1 0x02 .eHdr with len := 65536 }))).map
      (fun t => (t.state, t.err, t.tx, t.hin.queue, t.phase)) = some (.fault, .eSize, [], [1, 2, 3], .eHdr) ∧
    (after (exec (.encode 65535 0) { at1 0x02 .eHdr with len := 65535 })).map (fun t => t.tx) =
      some [0x81, 0x7E, 0xFF, 0xFF] := by decide

-- V3: index 4 uses key byte 0 again, 6F ^ 37 = 58.
theorem test_mask_wraps_to_key_zero :
    (after (exec (.mask 5 0) (onHin [0x6F] { at1 0x03 .mPay with len := 5, key := exampleKey, idx := 4, ocnt := 4 }))).map
      (fun t => (t.hout, t.idx)) = some ([0x58], 5) := by decide

-- T96: the port is closed two bytes short: E_SHORT in M_PAY, IDX = 2.
theorem test_mask_short :
    (after (exec (.mask 5 0) { at1 0x03 .mPay with len := 5, idx := 2, hin := { queue := [], closed := true } })).map
      (fun t => (t.state, t.err, t.phase, t.idx)) = some (.fault, .eShort, .mPay, 2) := by decide

-- T41: the digest of "abc" after S_FIN, all 20 bytes.
theorem test_sha1_abc :
    (after (exec (.sha1 3 0) { at1 0x04 .sFin with
        len := 3, idx := 3, sha := absorbAll [0x61, 0x62, 0x63] (shaInit State.reset.sha) })).map
      (fun t => (digestBytes t.sha.h, t.idx, t.phase)) =
    some ([0xA9, 0x99, 0x3E, 0x36, 0x47, 0x06, 0x81, 0x6A, 0xBA, 0x3E, 0x25, 0x71, 0x78, 0x50, 0xC2, 0x6C, 0x9C, 0xD0,
      0xD8, 0x9D], 0, .sOut) := by decide +kernel

-- T43: 56 bytes need a second block; the first and last digest bytes.
theorem test_sha1_two_blocks :
    ((sha1 (List.replicate 56 0x61)).take 2, (sha1 (List.replicate 56 0x61)).drop 18) = ([0xC2, 0xDB], [0xE6, 0x99]) := by
  decide +kernel

-- T53: the third byte of "foo" puts out Zm9v and empties the group.
theorem test_b64_group :
    (after (exec (.b64 3 0) (onHin [0x6F] { at1 0x05 .bAbs with
        len := 3, idx := 2, b64 := { g0 := 0x66, g1 := 0x6F, g2 := 0, gfill := 2 } }))).map
      (fun t => (t.hout, t.ocnt, t.b64.gfill)) = some ([0x5A, 0x6D, 0x39, 0x76], 4, 0) := by decide

-- T59: the tail FB FF gives +/8= and the command is complete.
theorem test_b64_tail :
    (after (exec (.b64 2 0) { at1 0x05 .bFin with
        len := 2, idx := 2, b64 := { g0 := 0xFB, g1 := 0xFF, g2 := 0x55, gfill := 2 } })).map
      (fun t => (t.hout, t.state, t.phase)) = some ([0x2B, 0x2F, 0x38, 0x3D], .idle, .pIdle) := by decide

-- V1: A_OUT on the digest b37a4f2c c0624f16 90f64606 cf385945 b2bec4ea puts out the document's token.
theorem test_accept_output :
    (after (exec (.accept 24 0) { at1 0x06 .aOut with
        len := 24, idx := 24,
        sha := { State.reset.sha with h :=
          { h0 := 0xB37A4F2C, h1 := 0xC0624F16, h2 := 0x90F64606, h3 := 0xCF385945, h4 := 0xB2BEC4EA } } })).map
      (fun t => (t.hout, t.ocnt, t.state)) =
    some ([0x73, 0x33, 0x70, 0x50, 0x4C, 0x4D, 0x42, 0x69, 0x54, 0x78, 0x61, 0x51, 0x39, 0x6B, 0x59, 0x47, 0x7A, 0x7A,
      0x68, 0x5A, 0x52, 0x62, 0x4B, 0x2B, 0x78, 0x4F, 0x6F, 0x3D], 28, .idle) := by decide +kernel

-- T71: the empty token gives Kfh9QIsMVZcl6xEPYxPHzW8SZ8w=; the first four characters and the last.
theorem test_accept_empty_token :
    ((acceptToken []).take 4, (acceptToken []).drop 27) = ([0x4B, 0x66, 0x68, 0x39], [0x3D]) := by decide +kernel

-- T80: the first step of an accepted 0x07 word.
theorem test_illegal_step :
    (after (exec (.illegal 0x07 5 0) { at1 0x07 .pIdle with len := 5 })).map
      (fun t => (t.state, t.err, t.op, t.len, t.phase)) = some (.fault, .eIllegalOp, 0x07, 5, .pIdle) := by decide

-- T82: accepted with OP = 0xFF, KEY not loaded.
theorem test_illegal_accept :
    (after (step (told 0xFF00000000FFFFFFFF))).map (fun t => (t.state, t.op, t.key.toWord, t.phase)) =
      some (.busy, 0xFF, 0, .pIdle) := by decide

-- T5 (16-bit form) and T1 (7-bit form): the registers after the header.
theorem test_frame_in_forms :
    (after (exec (.frameIn7 0x81 5) (at1 0x01 .dHdr1))).map (fun t => (t.hdr0, t.hdr1, t.plen, t.phase)) =
      some (0x81, 0x85, 5, .dKey0) ∧
    (after (exec (.frameIn16 0x81 5) (at1 0x01 .dExt1))).map (fun t => (t.hdr0, t.hdr1, t.plen, t.phase)) =
      some (0x81, 0xFE, 5, .dKey0) := by decide

-- T85 and T83: the two forms that fault.
theorem test_frame_in_faults :
    (after (exec (.frameIn64 0x81) (at1 0x01 .dHdr1))).map (fun t => (t.hdr1, t.err, t.state)) =
      some (0xFF, .eSize, .fault) ∧
    (after (exec (.frameInUnmasked 0x81 5) (at1 0x01 .dHdr1))).map (fun t => (t.hdr1, t.err, t.state)) =
      some (0x05, .eUnmasked, .fault) := by decide

-- T20 and the n = 256 row of section 2.2: the header bytes on TX.
theorem test_frame_out_forms :
    (after (exec (.frameOut7 5) (at1 0x02 .eHdr))).map (fun t => (t.tx, t.ocnt)) = some ([0x81, 0x05], 2) ∧
    (after (exec (.frameOut16 256) (at1 0x02 .eHdr))).map (fun t => (t.tx, t.ocnt)) =
      some ([0x81, 0x7E, 0x01, 0x00], 4) := by decide

-- 10_state.md R43: the reset state on the status port; and after T88, reset keeps the ports.
theorem test_reset_ports_stay :
    (after (step { at1 0x01 .dPay with
        state := .fault, err := .eShort, hout := [0x48, 0x65], rx := { queue := [], closed := true },
        sched := [.reset false] })).map (fun t => (t.state, t.err, t.hout, t.rx.closed)) =
      some (.idle, .none, [0x48, 0x65], true) := by decide

-- 70_reset_and_hazards.md R264: an idle block whose host still issues a command, now or in a later turn, has not ended.
theorem test_ended_well :
    EndedWell { State.reset with sched := [.block, .popTx] } ∧ ¬EndedWell { State.reset with sched := [.block, .issue 0] } ∧
    ¬EndedWell (told 0) := by
  unfold EndedWell NoFurtherCommand; decide

-- R264: a run of a reset and one MASK 0 command, and what the host reads back: OP = 03 and KEY at their indices (T36).
theorem test_run_and_reading :
    ∃ t, IsRun { State.reset with sched := [.reset false, .issue 0x030000000037FA213D, .block, .block] } t ∧ EndedWell t ∧
      (readBack t).status = [0, 0, 0x03, 0, 0x37FA213D, 0, 0, 0, 0, 0, 0] := by
  refine ⟨_, ⟨false, _, 3, rfl, by decide, rfl⟩, ?_, ?_⟩
  · unfold EndedWell NoFurtherCommand; decide
  · decide

-- R264: a block in FAULT whose reset is still to come is no run of its own; the run that follows has ended well.
theorem test_run_takes_its_reset :
    let s : State := { State.reset with state := .fault, err := .eSize, sched := [.reset false] }
    ¬IsRun s s ∧ ∃ t, IsRun s t ∧ EndedWell t := by
  intro s
  refine ⟨fun h => ?_, State.reset, ⟨false, [], 0, rfl, by simp, rfl⟩, ?_⟩
  · obtain ⟨strap, rest, k, hs, -, -, hk⟩ := isRun_cases h
    cases (show [Move.reset false] = _ from hs)
    rw [run_stays rfl k] at hk
    injection hk with hk
    exact absurd (congrArg State.state hk) (by decide)
  · unfold EndedWell NoFurtherCommand; decide

/-! ### An instruction placed for the next step (log 12) -/

theorem test_place_command :
    (after (step (State.reset.withFetchWord 72 0x030000000537FA213D))).map (fun t => (t.state, t.len, t.key, t.phase)) =
      some (.busy, 5, exampleKey, .mPay) := by decide +kernel

theorem test_place_inbound :
    (after (step (State.reset.withFetchWord 32 0x81FE007E))).map (fun t => (t.hdr0, t.hdr1, t.plen, t.phase)) =
      some (0x81, 0xFE, 126, .dKey0) ∧
    (after (step (State.reset.withFetchWord 16 0x8185))).map (fun t => (t.hdr0, t.hdr1, t.plen, t.phase)) =
      some (0x81, 0x85, 5, .dKey0) := by decide +kernel

theorem test_place_refused_inbound :
    (after (step (State.reset.withFetchWord 16 0x81FF))).map (fun t => (t.hdr1, t.err)) = some (0xFF, .eSize) ∧
    (after (step (State.reset.withFetchWord 16 0x0205))).map (fun t => (t.hdr1, t.err)) = some (0x05, .eUnmasked) := by
  decide +kernel

theorem test_place_outbound :
    (after (step (State.reset.withFetchWord 16 0x817D))).map (fun t => (t.tx, t.phase)) = some ([0x81, 0x7D], .ePay) ∧
    (after (step (State.reset.withFetchWord 32 0x817E0100))).map (fun t => (t.tx, t.phase)) =
      some ([0x81, 0x7E, 0x01, 0x00], .ePay) := by decide +kernel

/-! ### Witnesses: for each statement with hypotheses, states and operands that meet them, clause by clause -/

theorem witness_EncodedInstructionDecodesToItself :
    (WellFormed (.illegal 0xFF 1 2) = true ∧ encode (.illegal 0xFF 1 2) = .word 0xFF0000000100000002) ∧
    (WellFormed (.frameIn7 0x81 125) = true ∧ encode (.frameIn7 0x81 125) = .inbound [0x81, 0xFD]) ∧
    (WellFormed (.frameOut16 126) = true ∧ encode (.frameOut16 126) = .outbound [0x81, 0x7E, 0x00, 0x7E]) := by decide

theorem witness_DecodedInstructionEncodesBack :
    decode (.word 0) = .ok (.illegal 0 0 0) [] ∧ decode (.inbound [0x81, 0x85, 0x37]) = .ok (.frameIn7 0x81 5) [0x37] ∧
    decode (.outbound [0x81, 0x7E, 0x00, 0x7D]) = .ok (.frameOut16 125) [] := by decide

theorem witness_StepRunsTheDecodedCommand :
    (BlockTurn (told 0x020000000500000000) (told 0x020000000500000000) ∧
      (told 0x020000000500000000).state = .idle ∧ (told 0x020000000500000000).cmds = [0x020000000500000000] ∧
      decode (.word 0x020000000500000000) = .ok (.encode 5 0) []) ∧
    (BlockTurn { at1 0x03 .mPay with sched := [.block] } (at1 0x03 .mPay) ∧ (at1 0x03 .mPay).state = .busy ∧
      decode (.word (cmdWord 0x03 0 0)) = .ok (.mask 0 0) []) ∧
    (BlockTurn { State.reset with state := .fault, err := .eSize } { State.reset with state := .fault, err := .eSize }) ∧
    (BlockTurn State.reset State.reset ∧ State.reset.state = .idle ∧ State.reset.cmds = []) := by
  refine ⟨⟨.inl ⟨rfl, rfl⟩, by decide⟩, ⟨.inr ⟨[], rfl, rfl⟩, by decide⟩, .inl ⟨rfl, rfl⟩, .inl ⟨rfl, rfl⟩, by decide⟩

theorem witness_StepRunsTheDecodedHeader :
    (Running 0x01 .dHdr1 (onRx [0x85] { at1 0x01 .dHdr1 with hdr0 := 0x81 }) ∧
      decode (.inbound [0x81, 0x85]) = .ok (.frameIn7 0x81 5) []) ∧
    (Running 0x01 .dExt1 (onRx [0x7E] { at1 0x01 .dExt1 with hdr0 := 0x81, hdr1 := 0xFE }) ∧
      decode (.inbound [0x81, 0xFE, hi8 0, 0x7E]) = .ok (.frameIn16 0x81 126) []) ∧
    (Running 0x02 .eHdr { at1 0x02 .eHdr with len := 65535 } ∧ (65535 : W32).toNat ≤ 65535 ∧
      decode (.outbound (outHeader 65535)) = .ok (.frameOut16 65535) []) := by
  unfold Running; decide

/-- A state in which the next turn is this move. -/
def scheduled (m : Move) : State := { State.reset with sched := [m] }

theorem witness_EnvironmentMoves :
    (scheduled (.pushRx 1)).sched = [.pushRx 1] ∧ (scheduled (.pushRx 1)).rx.closed = false ∧
    (scheduled (.pushHin 1)).hin.closed = false ∧
    ({ scheduled (.pushRx 1) with rx := { queue := [], closed := true } } : State).rx.closed = true ∧
    ({ scheduled (.pushHin 1) with hin := { queue := [], closed := true } } : State).hin.closed = true ∧
    ({ scheduled .popTx with tx := [1] } : State).tx = [1] ∧ ({ scheduled .popHout with hout := [1] } : State).hout = [1] ∧
    (scheduled .popTx).tx = [] ∧ (scheduled .popHout).hout = [] := by decide

theorem witness_CommandAcceptLatches :
    (WellFormed (.mask 5 0x37FA213D) = true ∧ encode (.mask 5 0x37FA213D) = .word 0x030000000537FA213D ∧
      State.reset.state = .idle) ∧
    (∃ t, (told 0x01FFFFFFFF00000000).sched = [] ∧ (told 0x01FFFFFFFF00000000).cmds = [0x01FFFFFFFF00000000] ∧
      step (told 0x01FFFFFFFF00000000) = .next t) ∧
    (∃ t, (at1 0x03 .mPay).sched = [] ∧ (at1 0x03 .mPay).state ≠ .idle ∧ step (at1 0x03 .mPay) = .next t) :=
  ⟨by decide, ⟨_, rfl, rfl, rfl⟩, ⟨_, rfl, by decide, rfl⟩⟩

theorem witness_CommandWaitsWhileAnotherRuns :
    encode (.mask 5 0) = .word 0x030000000500000000 ∧ (at1 0x01 .dHdr0).state = .busy ∧
    (at1 0x01 .dHdr0).op ≠ cmdOp 0x030000000500000000 := by decide

-- The strict test's three conditions fail one at a time: 0x01 (FIN), 0x91 (bits 6:4), 0x82 (OPCODE); 0x81 meets them.
theorem witness_ByteZeroIsLatchedAndStrictlyTested :
    Running 0x01 .dHdr0 (onRx [0x89] (at1 0x01 .dHdr0)) ∧ (at1 0x01 .dHdr0).strictHdr = false ∧
    Running 0x01 .dHdr0 (onRx [0x81] { at1 0x01 .dHdr0 with strictHdr := true }) ∧
    ((0x81 : Byte).getLsbD 7 = true ∧ (0x81 : Byte).extractLsb' 4 3 = 0 ∧ (0x81 : Byte).extractLsb' 0 4 = 1) ∧
    (0x01 : Byte).getLsbD 7 = false ∧ (0x91 : Byte).extractLsb' 4 3 ≠ 0 ∧ (0x82 : Byte).extractLsb' 0 4 ≠ 1 := by
  unfold Running; decide

-- Each branch at its boundary: 0x7F, 0xFD, 0xFE, 0xFF.
theorem witness_ByteOneSelectsTheForm :
    Running 0x01 .dHdr1 (onRx [0x7F] (at1 0x01 .dHdr1)) ∧ (0x7F : Byte).getLsbD 7 = false ∧
    ((0xFD : Byte).getLsbD 7 = true ∧ ((0xFD : Byte).extractLsb' 0 7).toNat = 125) ∧
    ((0xFE : Byte).getLsbD 7 = true ∧ ((0xFE : Byte).extractLsb' 0 7).toNat = 126) ∧
    ((0xFF : Byte).getLsbD 7 = true ∧ ((0xFF : Byte).extractLsb' 0 7).toNat = 127) := by
  unfold Running; decide

-- IND = 125, and 126 with two length bytes that give 5, below 126 (T5).
theorem witness_LengthIndicatorGivesThePayloadLength :
    (at1 0x01 .dHdr1).sched = [] ∧ Running 0x01 .dHdr1 (onRx [0xFD] (at1 0x01 .dHdr1)) ∧ (0xFD : Byte).getLsbD 7 = true ∧
    ((0xFD : Byte).extractLsb' 0 7).toNat ≤ 125 ∧ Running 0x01 .dHdr1 (onRx [0xFE, 0x00, 0x05] (at1 0x01 .dHdr1)) ∧
    (0xFE : Byte).getLsbD 7 = true ∧ ((0xFE : Byte).extractLsb' 0 7).toNat = 126 := by
  unfold Running; decide

theorem witness_ExtendedLengthIsBigEndian :
    Running 0x01 .dExt0 (onRx [0x01] (at1 0x01 .dExt0)) ∧ Running 0x01 .dExt1 (onRx [0x00] (at1 0x01 .dExt1)) ∧
    (∃ t, step (onRx [0xFE] (at1 0x01 .dHdr1)) = .next t ∧ (onRx [0xFE] (at1 0x01 .dHdr1)).phase ≠ .dExt0 ∧
      t.phase = .dExt0) ∧
    (∃ t, step (onRx [0x01] (at1 0x01 .dExt0)) = .next t ∧ (onRx [0x01] (at1 0x01 .dExt0)).phase ≠ .dExt1 ∧
      t.phase = .dExt1) := by
  unfold Running
  exact ⟨by decide, by decide, ⟨_, rfl, by decide, rfl⟩, ⟨_, rfl, by decide, rfl⟩⟩

theorem witness_KeyBytesAreTakenInOrder :
    Running 0x01 .dKey0 (onRx [0x37] (at1 0x01 .dKey0)) ∧ Running 0x01 .dKey1 (onRx [0xFA] (at1 0x01 .dKey1)) ∧
    Running 0x01 .dKey2 (onRx [0x21] (at1 0x01 .dKey2)) ∧ Running 0x01 .dKey3 (onRx [0x3D] (at1 0x01 .dKey3)) ∧
    (onRx [0x3D] (at1 0x01 .dKey3)).rx.queue = [0x3D] := by
  unfold Running; decide

theorem witness_PayloadByteIsUnmaskedAtOnce :
    Running 0x01 .dPay (onRx [0x58] { at1 0x01 .dPay with plen := 5, idx := 4 }) ∧ (4 : W32) ≠ (5 : W16).setWidth 32 ∧
    (onRx [0x58] { at1 0x01 .dPay with plen := 5, idx := 4 }).rx.queue = [0x58] := by
  unfold Running; decide

theorem witness_CompletionKeepsEveryOtherRegister :
    (Running 0x01 .dPay (at1 0x01 .dPay) ∧ (at1 0x01 .dPay).idx = (at1 0x01 .dPay).plen.setWidth 32) ∧
    (Running 0x02 .ePay (at1 0x02 .ePay) ∧ (at1 0x02 .ePay).idx = (at1 0x02 .ePay).len) ∧
    (Running 0x03 .mPay (at1 0x03 .mPay) ∧ (at1 0x03 .mPay).idx = (at1 0x03 .mPay).len) ∧
    (Running 0x04 .sOut { at1 0x04 .sOut with idx := 20 }) ∧ Running 0x05 .bFin (at1 0x05 .bFin) ∧
    Running 0x06 .aOut (at1 0x06 .aOut) := by
  unfold Running; decide

theorem witness_DecodeFrame :
    (∃ t, exec (.decode 0 0) (told 0) = .next t ∧ (told 0).state ≠ .busy) ∧
    (∃ t, exec (.decode 0 0) (onRx [0x81] (at1 0x01 .dHdr0)) = .next t ∧ (at1 0x01 .dHdr0).state = .busy ∧
      (at1 0x01 .dHdr0).phase ≠ .dHdr1 ∧ (at1 0x01 .dHdr0).phase ≠ .dPay ∧ (at1 0x01 .dHdr0).phase ≠ .dKey0) ∧
    (∃ t, exec (.decode 0 0) (at1 0x01 .dPay) = .next t ∧ (at1 0x01 .dPay).state = .busy ∧
      (at1 0x01 .dPay).phase ≠ .dHdr0) :=
  ⟨⟨_, rfl, by decide⟩, ⟨_, rfl, by decide⟩, ⟨_, rfl, by decide⟩⟩

/-- A ready block whose only waiting word is `w`, with these bytes on `RX` and `HIN`. -/
def readyFor (w : W72) (rx hin : List Byte) : State := onRx rx (onHin hin (told w))

-- The three endings of the big-step form are all reached: T4, T84 and T90.
theorem witness_DecodeAgreesWithBigStep :
    Ready 0x010000000000000000 [] (readyFor 0x010000000000000000 [0x81, 0x80, 0x37, 0xFA, 0x21, 0x3D] []) ∧
    cmdOp 0x010000000000000000 = 0x01 ∧
    (decodeBig false false [0x81, 0x80, 0x37, 0xFA, 0x21, 0x3D]).ending = .ok ∧
    (decodeBig false false [0x81, 0x7F]).ending = .faulted .eUnmasked ∧
    (decodeBig false false []).ending = .holds := by
  unfold Ready; decide

theorem witness_InTakesFaultsOrHolds :
    ((onRx [0x81] (at1 0x01 .dHdr0)).phase ∈ phasesOf (onRx [0x81] (at1 0x01 .dHdr0)).op ∧
      needsRx (onRx [0x81] (at1 0x01 .dHdr0)) = true ∧ (onRx [0x81] (at1 0x01 .dHdr0)).rx.queue = [0x81]) ∧
    (needsRx { at1 0x01 .dHdr0 with rx := { queue := [], closed := true } } = true ∧ needsRx (at1 0x01 .dHdr0) = true) ∧
    ((at1 0x06 .aTok).phase ∈ phasesOf (at1 0x06 .aTok).op ∧
      needsHin (onHin [0x64] { at1 0x06 .aTok with len := 1 }) = true) ∧
    (needsHin { at1 0x06 .aTok with len := 1, hin := { queue := [], closed := true } } = true ∧
      needsHin { at1 0x06 .aTok with len := 1 } = true) ∧
    (∃ t, needsRx (at1 0x02 .eHdr) = false ∧ needsHin (at1 0x02 .eHdr) = false ∧ step (at1 0x02 .eHdr) = .next t) :=
  ⟨by decide, by decide, by decide, by decide, ⟨_, rfl, rfl, rfl⟩⟩

theorem witness_OutAppendsAndCounts :
    (∃ t, (at1 0x02 .eHdr).sched = [] ∧ (at1 0x02 .eHdr).state = .busy ∧ step (at1 0x02 .eHdr) = .next t ∧
      (at1 0x02 .eHdr).op = 0x02) ∧
    (∃ t, (at1 0x05 .bFin).sched = [] ∧ (at1 0x05 .bFin).state = .busy ∧ step (at1 0x05 .bFin) = .next t ∧
      (at1 0x05 .bFin).op ≠ 0x02) :=
  ⟨⟨_, rfl, rfl, rfl, rfl⟩, ⟨_, rfl, rfl, rfl, by decide⟩⟩

-- Both ends of each range of LEN.
theorem witness_EncoderHeaderByLength :
    Running 0x02 .eHdr (at1 0x02 .eHdr) ∧ (0 : W32).toNat ≤ 125 ∧ (125 : W32).toNat ≤ 125 ∧
    126 ≤ (126 : W32).toNat ∧ (65535 : W32).toNat ≤ 65535 ∧ 65536 ≤ (65536 : W32).toNat ∧
    65536 ≤ (0xFFFFFFFF : W32).toNat := by
  unfold Running; decide

theorem witness_OverlongEncodeFaultsBeforeAnyByte :
    Ready 0x020001000000000000 [] (readyFor 0x020001000000000000 [] [1, 2, 3]) ∧ cmdOp 0x020001000000000000 = 0x02 ∧
    65536 ≤ (cmdLen 0x020001000000000000).toNat := by
  unfold Ready; decide

theorem witness_PayloadByteIsCopied :
    Running 0x02 .ePay (onHin [0x48] { at1 0x02 .ePay with len := 1 }) ∧ (0 : W32) ≠ 1 ∧
    (onHin [0x48] { at1 0x02 .ePay with len := 1 }).hin.queue = [0x48] := by
  unfold Running; decide

theorem witness_EncodeFrame :
    (∃ t, exec (.encode 5 0) State.reset = .next t ∧ State.reset.state ≠ .busy) ∧
    (∃ t, exec (.encode 5 0) (at1 0x02 .eHdr) = .next t ∧ (at1 0x02 .eHdr).state ≠ .idle) :=
  ⟨⟨_, rfl, by decide⟩, ⟨_, rfl, by decide⟩⟩

-- T22, T94 and a hold.
theorem witness_EncodeAgreesWithBigStep :
    Ready 0x020000000000000000 [] (readyFor 0x020000000000000000 [] []) ∧ cmdOp 0x020000000000000000 = 0x02 ∧
    (encodeBig 0 false []).ending = .ok ∧ (encodeBig 65536 false [1, 2, 3]).ending = .faulted .eSize ∧
    (encodeBig 1 false []).ending = .holds := by
  unfold Ready; decide

theorem witness_MaskStepXorsWithKeyByte :
    ([0x48, 0x65] : List Byte)[1]? = some 0x65 ∧ Running 0x03 .mPay (onHin [0x6F] { at1 0x03 .mPay with len := 1 }) ∧
    (0 : W32) ≠ 1 := by
  unfold Running; decide

theorem witness_MaskAgreesWithBigStep :
    Ready 0x030000000137FA213D [] (readyFor 0x030000000137FA213D [] [0x48]) ∧ cmdOp 0x030000000137FA213D = 0x03 ∧
    (maskBig 1 exampleKey false [0x48]).ending = .ok ∧ (maskBig 1 exampleKey true []).ending = .faulted .eShort ∧
    (maskBig 1 exampleKey false []).ending = .holds := by
  unfold Ready; decide

theorem witness_MaskIsSelfInverse :
    Ready 0x030000000537FA213D [] (readyFor 0x030000000537FA213D [] [0x48, 0x65, 0x6C, 0x6C, 0x6F]) ∧
    (cmdLen 0x030000000537FA213D).toNat = [0x48, 0x65, 0x6C, 0x6C, 0x6F].length ∧
    Ready 0x030000000537FA213D [] (readyFor 0x030000000537FA213D [] [0x7F, 0x9F, 0x4D, 0x51, 0x58]) := by
  unfold Ready; decide

-- Both ends of each range of t: the schedule's (15, 16, 79) and those of f and K(t) (19, 20, 39, 40, 59, 60, 79).
theorem witness_MessageScheduleRecurrence :
    (15 < 16 ∧ 16 ≤ 16 ∧ 16 < 80 ∧ 16 ≤ 79 ∧ 79 < 80) ∧
    (19 ≤ 19 ∧ ¬20 ≤ 19 ∧ 39 ≤ 39 ∧ ¬40 ≤ 39 ∧ 59 ≤ 59 ∧ ¬60 ≤ 59) := by decide

/-- The SHA-1 unit with `n` bytes in its block. -/
def filled (n : BitVec 7) : ShaUnit := { State.reset.sha with bfill := n }

theorem witness_AbsorbFillsTheBlock :
    Running 0x04 .sAbs (onHin [0x61] { at1 0x04 .sAbs with len := 64, idx := 63, sha := filled 63 }) ∧
    Running 0x06 .aTok (onHin [0x61] { at1 0x06 .aTok with len := 1, sha := filled 0 }) ∧
    (filled 63).bfill.toNat < 64 ∧ (filled 63).bfill = 63 ∧ (filled 0).bfill ≠ 63 ∧ (63 : W32) ≠ 64 ∧ (0 : W32) ≠ 1 := by
  unfold Running; decide

theorem witness_FinishCompressesOneOrTwoBlocks :
    Running 0x04 .sFin { at1 0x04 .sFin with sha := filled 55 } ∧
    Running 0x06 .aFin { at1 0x06 .aFin with sha := filled 56 } ∧
    (filled 0).bfill.toNat ≤ 55 ∧ (filled 55).bfill.toNat ≤ 55 ∧ 56 ≤ (filled 56).bfill.toNat ∧
    56 ≤ (filled 63).bfill.toNat ∧ (filled 63).bfill.toNat < 64 := by
  unfold Running; decide

theorem witness_DigestLeavesHighByteFirst :
    Running 0x04 .sOut (at1 0x04 .sOut) ∧ (19 : W32).toNat < 20 ∧ ([10, 11, 12, 13, 14] : List W32)[19 / 4]? = some 14 := by
  unfold Running; decide

theorem witness_Sha1MachineComputesSha1 :
    Ready 0x040000000000000000 [] (readyFor 0x040000000000000000 [] []) ∧ cmdOp 0x040000000000000000 = 0x04 ∧
    (hinBig 0 false [] [] [] 23).ending = .ok ∧ (hinBig 1 true [] [] [] 23).ending = .faulted .eShort ∧
    (hinBig 1 false [] [] [] 23).ending = .holds := by
  unfold Ready; decide

/-- The base64 unit with `n` bytes in its group. -/
def grouped (n : BitVec 2) : B64Unit := { State.reset.b64 with gfill := n }

theorem witness_ThirdByteEmitsTheGroup :
    Running 0x05 .bAbs (onHin [0x66] { at1 0x05 .bAbs with len := 3, b64 := grouped 0 }) ∧
    Running 0x05 .bAbs (onHin [0x66] { at1 0x05 .bAbs with len := 3, idx := 1, b64 := grouped 1 }) ∧
    Running 0x05 .bAbs (onHin [0x66] { at1 0x05 .bAbs with len := 3, idx := 2, b64 := grouped 2 }) ∧
    (0 : W32) ≠ 3 ∧ (1 : W32) ≠ 3 ∧ (2 : W32) ≠ 3 := by
  unfold Running; decide

theorem witness_TailIsPaddedAndCompletes :
    Running 0x05 .bFin { at1 0x05 .bFin with b64 := grouped 0 } ∧ Running 0x05 .bFin { at1 0x05 .bFin with b64 := grouped 1 } ∧
    Running 0x05 .bFin { at1 0x05 .bFin with b64 := grouped 2 } := by
  unfold Running; decide

theorem witness_B64MachineComputesB64 :
    Ready 0x050000000100000000 [] (readyFor 0x050000000100000000 [] [0x66]) ∧ cmdOp 0x050000000100000000 = 0x05 ∧
    (b64Big 1 false [0x66]).ending = .ok ∧ (b64Big 6 true [0x66, 0x6F, 0x6F, 0x62]).ending = .faulted .eShort ∧
    (b64Big 1 false []).ending = .holds := by
  unfold Ready; decide

theorem witness_Base64OutputLength : (List.replicate 20 (0 : Byte)).length = 20 := by decide

theorem witness_AcceptPhasesRun :
    (Running 0x06 .aTok (at1 0x06 .aTok) ∧ (at1 0x06 .aTok).idx = (at1 0x06 .aTok).len) ∧
    Running 0x06 .aGuid (at1 0x06 .aGuid) ∧ Running 0x06 .aOut (at1 0x06 .aOut) := by
  unfold Running; decide

theorem witness_AcceptMachineComputesTheToken :
    Ready 0x060000000100000000 [] (readyFor 0x060000000100000000 [] [0x61]) ∧ cmdOp 0x060000000100000000 = 0x06 ∧
    (cmdLen 0x060000000100000000).toNat ≤ [0x61].length := by
  unfold Ready; decide

theorem witness_AcceptEqualsSha1ThenB64 :
    [(0x61 : Byte)].length + 36 < 2 ^ 32 ∧
    Ready 0x060000000100000000 [] (readyFor 0x060000000100000000 [] [0x61]) ∧
    (cmdLen 0x060000000100000000).toNat = 1 ∧
    Ready 0x040000002500000000 [] (readyFor 0x040000002500000000 [] (0x61 :: guid)) ∧
    cmdOp 0x040000002500000000 = 0x04 ∧ (cmdLen 0x040000002500000000).toNat = 1 + 36 ∧
    Ready 0x050000001400000000 [] (readyFor 0x050000001400000000 [] (List.replicate 20 0)) ∧
    cmdOp 0x050000001400000000 = 0x05 ∧ cmdLen 0x050000001400000000 = 20 := by
  unfold Ready; decide

theorem witness_AbsorbingEndsAtTheCount :
    (at1 0x04 .sAbs).idx = (at1 0x04 .sAbs).len ∧ Running 0x04 .sAbs (at1 0x04 .sAbs) ∧
    (at1 0x05 .bAbs).idx = (at1 0x05 .bAbs).len ∧ Running 0x05 .bAbs (at1 0x05 .bAbs) := by
  unfold Running; decide

theorem witness_IllegalOpcodeFaultsInItsFirstStep :
    ((0 : Byte) = 0 ∧ 7 ≤ (7 : Byte).toNat ∧ 7 ≤ (255 : Byte).toNat) ∧ Running 0x07 .pIdle (at1 0x07 .pIdle) ∧
    Ready (cmdWord 0x07 5 0) [] (readyFor (cmdWord 0x07 5 0) [] []) := by
  unfold Running Ready; decide

theorem witness_InboundFormsExecute :
    ((at1 0x01 .dHdr1).state = .busy ∧ (at1 0x01 .dHdr1).phase = .dHdr1 ∧ (125 : BitVec 7).toNat ≤ 125) ∧
    ((at1 0x01 .dExt1).state = .busy ∧ (at1 0x01 .dExt1).phase = .dExt1) ∧
    ¬(State.reset.state = .busy ∧ State.reset.phase = .dHdr1) ∧
    ¬((at1 0x01 .dHdr1).state = .busy ∧ (at1 0x01 .dHdr1).phase = .dExt1) := by decide

theorem witness_OutboundFormsExecute :
    (WellFormed (.frameOut7 125) = true ∧ encode (.frameOut7 125) = .outbound [0x81, 0x7D]) ∧
    (WellFormed (.frameOut16 126) = true ∧ encode (.frameOut16 126) = .outbound [0x81, 0x7E, 0x00, 0x7E]) ∧
    ((at1 0x02 .eHdr).state = .busy ∧ (at1 0x02 .eHdr).phase = .eHdr) ∧
    ¬(State.reset.state = .busy ∧ State.reset.phase = .eHdr) := by decide

theorem witness_HostSideCommandsFrame :
    (∃ t, exec (.mask 1 0) (onHin [0x48] { at1 0x03 .mPay with len := 1 }) = .next t) ∧
    (∃ t, exec (.sha1 1 0) State.reset = .next t ∧ State.reset.state ≠ .busy) ∧
    (∃ t, exec (.b64 0 0) (at1 0x05 .bFin) = .next t ∧ (at1 0x05 .bFin).state ≠ .idle) ∧
    (∃ t, exec (.accept 0 0) (at1 0x06 .aTok) = .next t ∧ (Instr.accept 0 0) ≠ .mask 0 0) :=
  ⟨⟨_, rfl⟩, ⟨_, rfl, by decide⟩, ⟨_, rfl, by decide⟩, ⟨_, rfl, by decide⟩⟩

theorem witness_RaiseWritesOnlyErrAndState :
    (∃ t, step (onRx [0x7F] (at1 0x01 .dHdr1)) = .next t ∧ (onRx [0x7F] (at1 0x01 .dHdr1)).state = .busy ∧
      t.state = .fault) ∧
    (∃ t, step { at1 0x02 .eHdr with len := 65536 } = .next t ∧ t.state = .fault) :=
  ⟨⟨_, rfl, rfl, rfl⟩, ⟨_, rfl, rfl⟩⟩

theorem witness_FaultIsAbsorbing :
    ({ at1 0x01 .dHdr1 with state := .fault, sched := [.pushRx 1, .block] } : State).state = .fault ∧
    (∀ strap, Move.reset strap ∉ [Move.pushRx 1, .block]) ∧
    ({ at1 0x01 .dHdr1 with state := .fault } : State).sched = [] := by decide

theorem witness_SequencerTransitions :
    (∃ t, step (told 0) = .next t ∧ (told 0).sched = [] ∧ (told 0).state = .idle) ∧
    (∃ t, step (at1 0x03 .mPay) = .next t ∧ (at1 0x03 .mPay).state = .busy ∧ t.state = .idle) ∧
    (∃ t, step (at1 0x00 .pIdle) = .next t ∧ (at1 0x00 .pIdle).state = .busy ∧ t.state = .fault) ∧
    (∃ t, step { at1 0x00 .pIdle with state := .fault } = .next t) ∧
    (∃ t, step (scheduled (.pushRx 1)) = .next t ∧ (Move.pushRx 1) ≠ .block ∧ ∀ strap, (Move.pushRx 1) ≠ .reset strap) ∧
    (∃ t, step (scheduled (.reset true)) = .next t) :=
  ⟨⟨_, rfl, rfl, rfl⟩, ⟨_, rfl, rfl, rfl⟩, ⟨_, rfl, rfl, rfl⟩, ⟨_, rfl⟩, ⟨_, rfl, by decide⟩, ⟨_, rfl⟩⟩

theorem witness_FaultCodesAndCauses :
    (statusRead { State.reset with err := .eIllegalOp } 1 = BitVec.ofNat 32 5 ∧ 5 < 6) ∧
    (∃ t, step (at1 0x00 .pIdle) = .next t ∧ (at1 0x00 .pIdle).phase ∈ phasesOf 0x00 ∧ t.state = .fault) ∧
    (∃ t, step { onRx [0x89] (at1 0x01 .dHdr0) with strictHdr := true } = .next t ∧
      (at1 0x01 .dHdr0).phase ∈ phasesOf 0x01 ∧ t.state = .fault) :=
  ⟨by decide, ⟨_, rfl, by decide, rfl⟩, ⟨_, rfl, by decide, rfl⟩⟩

theorem witness_ResetFromAnyState :
    (scheduled (.reset true)).sched = [.reset true] ∧
    ∃ t, step (scheduled (.pushRx 1)) = .next t ∧ ∀ strap rest, (scheduled (.pushRx 1)).sched ≠ .reset strap :: rest :=
  ⟨rfl, _, rfl, fun _ _ h => by cases h⟩

-- Two of the 22 phase codes and one of the fault codes, on the port (R26, R220).
theorem test_status_codes :
    statusRead (at1 0x06 .aOut) 5 = 21 ∧ statusRead (at1 0x02 .eHdr) 5 = 10 ∧
    statusRead { State.reset with err := .eIllegalOp } 1 = 5 := by decide

theorem witness_StatusPortReadsTheRegisters : 11 ≤ (11 : BitVec 4).toNat ∧ 11 ≤ (15 : BitVec 4).toNat := by decide

/-- A state inside a command that meets the invariant: `DECODE` after two of five payload bytes (T88). -/
def midFrame : State := { at1 0x01 .dPay with plen := 5, idx := 2, ocnt := 2, key := exampleKey, hdr0 := 0x81, hdr1 := 0x85 }

theorem midFrame_inv : Inv midFrame := by
  refine ⟨by decide, by decide, fun _ => by decide, by decide, by decide, fun _ => ?_⟩
  show midFrame.idx.toNat ≤ midFrame.plen.toNat ∧ midFrame.ocnt = midFrame.idx
  decide

theorem witness_StepKeepsTheInvariant : Inv midFrame ∧ ∃ t, step midFrame = .next t := ⟨midFrame_inv, ⟨_, rfl⟩⟩

theorem witness_InvariantNeverStops : ∃ s, Inv s ∧ s.state = .busy := ⟨midFrame, midFrame_inv, rfl⟩

-- One state that waits and one that does not.
theorem witness_BlockWaitsExactlyWhenItMust :
    (Inv midFrame ∧ midFrame.sched = [] ∧ Waiting midFrame) ∧
    (∃ s, Inv s ∧ s.sched = [] ∧ ¬Waiting s) := by
  refine ⟨⟨midFrame_inv, rfl, ?_⟩, onRx [0x4D] midFrame, ?_, rfl, ?_⟩
  · unfold Waiting; decide
  · exact ⟨midFrame_inv.err_none_iff, midFrame_inv.idle_phase, midFrame_inv.phase_of_op, midFrame_inv.bfill_lt,
      midFrame_inv.gfill_le, midFrame_inv.progress⟩
  · unfold Waiting; decide

theorem witness_EnvironmentStepsCommute :
    (onRx [0x4D] midFrame).sched = [] ∧ (onRx [0x4D] midFrame).rx.queue ≠ [] ∧ needsRx (at1 0x02 .eHdr) = false ∧
    (onHin [0x48] (at1 0x03 .mPay)).hin.queue ≠ [] ∧ needsHin (at1 0x01 .dHdr0) = false ∧
    ({ midFrame with tx := [1] } : State).tx ≠ [] ∧ ({ midFrame with hout := [1] } : State).hout ≠ [] ∧
    midFrame.state ≠ .idle ∧ (told 0).cmds ≠ [] := by decide

-- Two ready blocks with the same word and ports whose other registers differ.
theorem witness_NoStateCarriesOver :
    ∃ s s' t, Ready 0x010000000000000000 [] s ∧ Ready 0x010000000000000000 [] s' ∧ s.rx = s'.rx ∧ s.hin = s'.hin ∧
      s.strictHdr = s'.strictHdr ∧ s.key ≠ s'.key ∧ Host.Core.run core 1 s = .next t := by
  refine ⟨readyFor 0x010000000000000000 [0x81] [], { readyFor 0x010000000000000000 [0x81] [] with key := exampleKey }, _,
    ?_, ?_, rfl, rfl, rfl, by decide, rfl⟩ <;> unfold Ready <;> decide

theorem witness_EncodeThenDecodeReproducesThePayload :
    [(0x01 : Byte), 0x08].length ≤ 65535 ∧
    Ready 0x020000000200000000 [] (readyFor 0x020000000200000000 [] [0x01, 0x08]) ∧
    cmdOp 0x020000000200000000 = 0x02 ∧ (cmdLen 0x020000000200000000).toNat = 2 ∧
    Ready 0x010000000000000000 [] (readyFor 0x010000000000000000 (remask exampleKey [0x81, 0x02, 0x01, 0x08]) []) := by
  unfold Ready; decide

end Sys2Proof.Tests
end

/-! PROOFS. The statements about the sequencer's registers (10_state.md): command accept, complete, the transitions of
`STATE`, and reset. The first part says what one step can do; the statements are read off it. -/

namespace Sys2Proof.Machine

/-! ### The instruction behind a command word -/

/-- Decoding the word of a well-formed command gives the command back (30_encoding.md R70, R71, R73). -/
theorem decodeWord_of_encode_word {i : Instr} {w : W72} (hwf : WellFormed i = true) (he : encode i = .word w) :
    decodeWord w = i := by
  cases i <;> simp only [encode, Code.word.injEq, reduceCtorEq] at he
  case illegal op len key =>
    change illegalOp op = true at hwf
    obtain ⟨h1, h2, h3, h4, h5, h6⟩ : op ≠ 1 ∧ op ≠ 2 ∧ op ≠ 3 ∧ op ≠ 4 ∧ op ≠ 5 ∧ op ≠ 6 := by
      refine ⟨?_, ?_, ?_, ?_, ?_, ?_⟩ <;> rintro rfl <;> exact absurd hwf (by decide)
    rw [← he, decodeWord_cmdWord, if_neg h1, if_neg h2, if_neg h3, if_neg h4, if_neg h5, if_neg h6]
  all_goals rw [← he, decodeWord_cmdWord]; rfl

/-- In a busy block, executing any word with the opcode in `OP` is the block's own turn: the running command reads its
operands from the registers (20_memory.md R68), not from the word. -/
theorem exec_eq_blockStep {w : W72} {s : State} (hb : s.state = .busy) (ho : s.op = cmdOp w) :
    exec (decodeWord w) s = blockStep s := by
  rw [blockStep_busy hb, ho]
  unfold decodeWord
  split_ifs with h1 h2 h3 h4 h5 h6
  · rw [exec, execDecode, commandTurn_busy hb (ho.trans h1)]
  · rw [exec, execEncode, commandTurn_busy hb (ho.trans h2)]
  · rw [exec, execMask, commandTurn_busy hb (ho.trans h3)]
  · rw [exec, execSha1, commandTurn_busy hb (ho.trans h4)]
  · rw [exec, execB64, commandTurn_busy hb (ho.trans h5)]
  · rw [exec, execAccept, commandTurn_busy hb (ho.trans h6)]
  · rw [exec, execIllegal, commandTurn_busy hb ho]

/-- A transition of the running command is what executing the command's instruction does. -/
theorem exec_of_busyStep {op : Byte} {len key : W32} {i : Instr} {p : Phase} {s t : State}
    (hi : decodeWord (cmdWord op len key) = i) (hr : Running op p s) (hp : p ∈ phasesOf op) (h : BusyStep s t) :
    exec i s = .next t := by
  obtain ⟨hb, rfl, rfl⟩ := hr
  rw [← hi, exec_eq_blockStep hb (cmdOp_cmdWord ..).symm, blockStep_of_busyStep hb hp h]

/-! ### What one step can do -/

/-- The state after an idle block took the command word `w` (10_state.md R24, 43_sha1.md R163, 44_base64.md R192). -/
def accepted (w : W72) (s : State) : State :=
  { s with
    op := cmdOp w, len := cmdLen w, key := if cmdOp w = 0x03 then Key.ofWord (cmdKey w) else s.key,
    idx := 0, ocnt := 0, state := .busy, phase := firstPhase (cmdOp w),
    sha := if cmdOp w = 0x04 ∨ cmdOp w = 0x06 then shaInit s.sha else s.sha,
    b64 := if cmdOp w = 0x05 then b64Init s.b64 else s.b64 }

@[simp] theorem accepted_state (w : W72) (s : State) : (accepted w s).state = .busy := rfl
@[simp] theorem accepted_strictHdr (w : W72) (s : State) : (accepted w s).strictHdr = s.strictHdr := rfl
@[simp] theorem accepted_cmds (w : W72) (s : State) : (accepted w s).cmds = s.cmds := rfl

/-- `exec_idle` under the name of its next state. -/
theorem exec_accepts {s : State} (h : s.state = .idle) (w : W72) :
    exec (decodeWord w) s = .next (accepted w s) := exec_idle h w

/-- Everything the block's turn can do: take a word, rest, a transition of the running command, or nothing in `FAULT`
(R23, R24). -/
theorem blockStep_cases {s t : State} (h : blockStep s = .next t) :
    (s.state = .idle ∧ ∃ w rest, s.cmds = w :: rest ∧ t = accepted w { s with cmds := rest }) ∨
    (s.state = .idle ∧ s.cmds = [] ∧ t = s) ∨
    (s.state = .busy ∧ BusyStep s t) ∨
    (s.state = .fault ∧ t = s) := by
  cases hs : s.state with
  | idle =>
    cases hc : s.cmds with
    | nil =>
      rw [blockStep_rest hs hc] at h
      exact .inr (.inl ⟨rfl, rfl, (eq_of_next h).symm⟩)
    | cons w rest =>
      rw [blockStep_idle hs hc, exec_accepts (by exact hs)] at h
      exact .inl ⟨rfl, w, rest, rfl, (eq_of_next h).symm⟩
  | busy => exact .inr (.inr (.inl ⟨rfl, busyStep_of_blockStep hs h⟩))
  | fault =>
    rw [blockStep_fault hs] at h
    exact .inr (.inr (.inr ⟨rfl, (eq_of_next h).symm⟩))

/-- Every step is a turn of the block or a move of the environment (00_scope.md R16). -/
theorem step_cases {s t : State} (h : step s = .next t) :
    (∃ s0, BlockTurn s s0 ∧ blockStep s0 = .next t) ∨
    (∃ m rest, s.sched = m :: rest ∧ m ≠ .block ∧ t = agentMove m { s with sched := rest }) := by
  cases hs : s.sched with
  | nil => exact .inl ⟨s, .inl ⟨hs, rfl⟩, by rwa [step_nil hs] at h⟩
  | cons m rest =>
    by_cases hm : m = .block
    · subst hm
      exact .inl ⟨_, .inr ⟨rest, hs, rfl⟩, by rwa [step_block hs] at h⟩
    · rw [step_move hs hm] at h
      exact .inr ⟨m, rest, rfl, hm, (eq_of_next h).symm⟩

/-- A transition of a busy block leaves it busy, completes (R25) or raises a fault (60_exceptions.md R226). -/
theorem busyStep_state_cases {s t : State} (hb : s.state = .busy) (h : BusyStep s t) :
    t.state = .busy ∨
    (t.state = .idle ∧ t.phase = .pIdle ∧ t.err = s.err) ∨
    (t.state = .fault ∧ t.err ≠ .none ∧ t.phase = s.phase) := by
  cases h with
  | payDone | encDone | maskDone | shaDone | b64Fin | accOut => exact .inr (.inl ⟨rfl, rfl, rfl⟩)
  | rxShort | hinShort | hdr0Bad | hdr1Unmasked | hdr1Long | encTooLong | illegalOp =>
    exact .inr (.inr ⟨rfl, Err.noConfusion, rfl⟩)
  | _ => exact .inl hb

/-- A move of the environment other than reset changes neither `STATE` nor `STRICT_HDR` (00_scope.md R19, 10_state.md
R39). -/
theorem agentMove_keeps {m : Move} (hm : ∀ strap, m ≠ .reset strap) (s : State) :
    (agentMove m s).state = s.state ∧ (agentMove m s).strictHdr = s.strictHdr := by
  cases m with
  | reset strap => exact absurd rfl (hm strap)
  | _ => exact ⟨rfl, rfl⟩

/-- The block's turn does not sample the strap (R39). -/
theorem blockStep_strictHdr {s t : State} (h : blockStep s = .next t) : t.strictHdr = s.strictHdr := by
  rcases blockStep_cases h with ⟨-, w, rest, -, rfl⟩ | ⟨-, -, rfl⟩ | ⟨-, hbs⟩ | ⟨-, rfl⟩
  · exact accepted_strictHdr ..
  · rfl
  · obtain ⟨-, -, hstrap, -⟩ := busyStep_keeps hbs
    exact hstrap
  · rfl

/-- The reset move in one step (70_reset_and_hazards.md R250). -/
theorem step_reset {s : State} {strap : Bool} {rest : List Move} (hs : s.sched = .reset strap :: rest) :
    step s = .next (resetBlock strap { s with sched := rest }) := step_move hs Move.noConfusion

/-! ### The status port -/

/-- Index 0 reads the code of `STATE` (R21, R23). -/
theorem statusRead_state (s : State) : statusRead s 0 = s.state.code.setWidth 32 := rfl

/-- `STATE` as the host reads it (R23). -/
theorem statusRead_state_cases (s : State) :
    (statusRead s 0).toNat = 0 ∧ s.state = .idle ∨ (statusRead s 0).toNat = 1 ∧ s.state = .busy ∨
      (statusRead s 0).toNat = 2 ∧ s.state = .fault := by
  rw [statusRead_state]
  cases s.state <;> decide

/-- After a reset the status port reads as in the reset state, whatever the strap and the ports are (R43). -/
theorem statusRead_resetBlock (strap : Bool) (s : State) (i : BitVec 4) :
    statusRead (resetBlock strap s) i = statusRead State.reset i := rfl

/-- Every status index of the reset state reads 0 (R43, 20_memory.md R60). -/
theorem statusRead_reset : ∀ i : BitVec 4, statusRead State.reset i = 0 := by decide

/-! ### The obligations -/

/-- Settles O8: an accept is `exec_accepts`; a busy block's transitions keep the channel. -/
theorem commandAcceptLatches : Obligations.CommandAcceptLatches := by
  refine ⟨fun i w s hwf he hs => ?_, fun s t w rest hn hs hc h => ?_, fun s t hn hs h => ?_⟩
  · rw [← decodeWord_of_encode_word hwf he]
    exact exec_accepts hs w
  · rw [step_nil hn, blockStep_idle hs hc, exec_accepts (by exact hs)] at h
    rw [← eq_of_next h]
    exact ⟨accepted_cmds .., accepted_state ..⟩
  · rw [step_nil hn] at h
    rcases blockStep_cases h with ⟨hi, -⟩ | ⟨hi, -⟩ | ⟨-, hbs⟩ | ⟨-, rfl⟩
    · exact absurd hi hs
    · exact absurd hi hs
    · obtain ⟨-, hcmds, -⟩ := busyStep_keeps hbs
      exact hcmds
    · rfl

/-- Settles O16: each completing step is the completing transition of its command. -/
theorem completionKeepsEveryOtherRegister : Obligations.CompletionKeepsEveryOtherRegister := by
  refine fun len key s =>
    ⟨fun hr hi => ?_, fun hr hi => ?_, fun hr hi => ?_, fun hr hi => ?_, fun hr => ?_, fun hr => ?_⟩ <;>
    have ⟨_, ho, hp⟩ := hr
  · exact exec_of_busyStep (decodeWord_cmdWord 0x01 len key) hr (by decide) (.payDone ho hp hi)
  · exact exec_of_busyStep (decodeWord_cmdWord 0x02 len key) hr (by decide) (.encDone ho hp hi)
  · exact exec_of_busyStep (decodeWord_cmdWord 0x03 len key) hr (by decide) (.maskDone ho hp hi)
  · exact exec_of_busyStep (decodeWord_cmdWord 0x04 len key) hr (by decide) (.shaDone ho hp hi)
  · exact ⟨_, exec_of_busyStep (decodeWord_cmdWord 0x05 len key) hr (by decide) (.b64Fin ho hp)⟩
  · exact ⟨_, _, exec_of_busyStep (decodeWord_cmdWord 0x06 len key) hr (by decide) (.accOut _ _ ho hp rfl rfl)⟩

/-- Settles O50: the block's turn by `blockStep_cases` and `busyStep_state_cases`, the environment's by
`agentMove_keeps`. -/
theorem sequencerTransitions : Obligations.SequencerTransitions := by
  intro s t h
  refine ⟨statusRead_state_cases s, fun hn hs => ?_, fun hn hs ht => ?_, fun hn hs ht => ?_, fun hn hs => ?_,
    fun m rest hm hb hr => ?_, fun strap rest hm => ?_⟩
  · rw [step_nil hn] at h
    rcases blockStep_cases h with ⟨-, w, rest, hc, rfl⟩ | ⟨-, hc, rfl⟩ | ⟨hb, -⟩ | ⟨hf, -⟩
    · exact .inl ⟨accepted_state .., w, hc⟩
    · exact .inr ⟨hc, rfl⟩
    · exact Seq.noConfusion (hs.symm.trans hb)
    · exact Seq.noConfusion (hs.symm.trans hf)
  · rw [step_nil hn] at h
    simpa [ht] using busyStep_state_cases hs (busyStep_of_blockStep hs h)
  · rw [step_nil hn] at h
    simpa [ht] using busyStep_state_cases hs (busyStep_of_blockStep hs h)
  · rw [step_nil hn, blockStep_fault hs] at h
    rw [← eq_of_next h, hs]
  · rw [step_move hm hb] at h
    rw [← eq_of_next h]
    exact (agentMove_keeps hr _).1
  · rw [step_reset hm] at h
    rw [← eq_of_next h, resetBlock_state]

/-- Settles O52: the reset move is `resetBlock`; no other turn samples the strap. -/
theorem resetFromAnyState : Obligations.ResetFromAnyState := by
  refine ⟨fun s strap rest hs => ⟨_, step_reset hs, rfl, rfl, rfl, fun i => ?_, rfl, rfl, rfl, rfl, rfl⟩,
    fun s t h hn => ?_, rfl, rfl, rfl, statusRead_reset⟩
  · rw [statusRead_resetBlock, statusRead_reset]
  · rcases step_cases h with ⟨s0, hturn, hb⟩ | ⟨m, rest, hs, -, rfl⟩
    · rw [blockStep_strictHdr hb]
      rcases hturn with ⟨-, rfl⟩ | ⟨rest, -, rfl⟩ <;> rfl
    · exact (agentMove_keeps (fun strap hm => hn strap rest (hm ▸ hs)) _).2

end Sys2Proof.Machine

/-! PROOFS. The statements about the four ports (20_memory.md): what `In` takes and what `Out` puts out. The block's turn
is read through its transitions; the transitions of the phases that take a byte are listed once for each input port. -/

namespace Sys2Proof.Machine

/-! ### `In` -/

/-- A phase that needs a byte from `RX` has a transition that takes the head byte and no byte of `HIN` (20_memory.md R53,
40_frame_parser.md R101). -/
theorem exists_busyStep_takesRx {s : State} {b : Byte} {rest : List Byte} (hp : s.phase ∈ phasesOf s.op)
    (hn : needsRx s = true) (hq : s.rx.queue = b :: rest) :
    ∃ t, BusyStep s t ∧ t.rx = { s.rx with queue := rest } ∧ t.hin = s.hin := by
  have ho := op_of_phase _ _ hp
  cases h : s.phase <;> simp only [needsRx, h, Bool.false_eq_true, bne_iff_ne] at hn ho
  case dHdr0 =>
    by_cases hs : s.strictHdr = true ∧ strictOk b = false
    · obtain ⟨hstrict, hbad⟩ := hs
      exact ⟨_, .hdr0Bad b rest ho h hq hstrict hbad, rfl, rfl⟩
    · exact ⟨_, .hdr0 b rest ho h hq (by simpa [imp_iff_not_or] using hs), rfl, rfl⟩
  case dHdr1 =>
    cases hm : maskBit b with
    | false => exact ⟨_, .hdr1Unmasked b rest ho h hq hm, rfl, rfl⟩
    | true =>
      by_cases h7 : (indOf b).toNat ≤ 125
      · exact ⟨_, .hdr1Short b rest ho h hq hm h7, rfl, rfl⟩
      · by_cases h16 : (indOf b).toNat = 126
        · exact ⟨_, .hdr1Ext rest ho h (byte1_ext16 b hm h16 ▸ hq), rfl, rfl⟩
        · exact ⟨_, .hdr1Long rest ho h (byte1_ext64 b hm h7 h16 ▸ hq), rfl, rfl⟩
  case dExt0 => exact ⟨_, .ext0 b rest ho h hq, rfl, rfl⟩
  case dExt1 => exact ⟨_, .ext1 b rest ho h hq, rfl, rfl⟩
  case dKey0 => exact ⟨_, .key0 b rest ho h hq, rfl, rfl⟩
  case dKey1 => exact ⟨_, .key1 b rest ho h hq, rfl, rfl⟩
  case dKey2 => exact ⟨_, .key2 b rest ho h hq, rfl, rfl⟩
  case dKey3 => exact ⟨_, .key3 b rest ho h hq, rfl, rfl⟩
  case dPay => exact ⟨_, .pay b rest ho h hn hq, rfl, rfl⟩

/-- A phase that needs a byte from `HIN` has a transition that takes the head byte and no byte of `RX` (R53). -/
theorem exists_busyStep_takesHin {s : State} {b : Byte} {rest : List Byte} (hp : s.phase ∈ phasesOf s.op)
    (hn : needsHin s = true) (hq : s.hin.queue = b :: rest) :
    ∃ t, BusyStep s t ∧ t.hin = { s.hin with queue := rest } ∧ t.rx = s.rx := by
  have ho := op_of_phase _ _ hp
  cases h : s.phase <;> simp only [needsHin, h, Bool.false_eq_true, bne_iff_ne] at hn ho
  case ePay => exact ⟨_, .encPay b rest ho h hn hq, rfl, rfl⟩
  case mPay => exact ⟨_, .maskPay b rest ho h hn hq, rfl, rfl⟩
  case sAbs => exact ⟨_, .shaAbs b rest ho h hn hq, rfl, rfl⟩
  case bAbs => exact ⟨_, .b64Abs b rest ho h hn hq, rfl, rfl⟩
  case aTok => exact ⟨_, .accTok b rest ho h hn hq, rfl, rfl⟩

/-- A transition takes a byte only from a port its phase needs a byte from. -/
theorem busyStep_inputs {s t : State} (h : BusyStep s t) :
    (needsRx s = false → t.rx = s.rx) ∧ (needsHin s = false → t.hin = s.hin) := by
  cases h with
  | hdr0 _ _ _ hp | hdr0Bad _ _ _ hp | hdr1Unmasked _ _ _ hp | hdr1Short _ _ _ hp | hdr1Ext _ _ hp | hdr1Long _ _ hp
  | ext0 _ _ _ hp | ext1 _ _ _ hp | key0 _ _ _ hp | key1 _ _ _ hp | key2 _ _ _ hp | key3 _ _ _ hp =>
    exact ⟨fun hn => by simp [needsRx, hp] at hn, fun _ => rfl⟩
  | pay _ _ _ hp hi => exact ⟨fun hn => by simp [needsRx, hp, hi] at hn, fun _ => rfl⟩
  | encPay _ _ _ hp hi | maskPay _ _ _ hp hi | shaAbs _ _ _ hp hi | b64Abs _ _ _ hp hi | accTok _ _ _ hp hi =>
    exact ⟨fun _ => rfl, fun hn => by simp [needsHin, hp, hi] at hn⟩
  | _ => exact ⟨fun _ => rfl, fun _ => rfl⟩

/-- Settles O19: on each port the three outcomes are three transitions, and a hold is left by no run. -/
theorem inTakesFaultsOrHolds : Obligations.InTakesFaultsOrHolds := by
  intro s hs hb hp
  refine ⟨fun hn => ⟨fun b rest hq => ?_, fun hq hc => ?_, fun hq hc => ?_⟩,
    fun hn => ⟨fun b rest hq => ?_, fun hq hc => ?_, fun hq hc => ?_⟩, fun hr hh t h => ?_⟩
  · obtain ⟨t, ht, hports⟩ := exists_busyStep_takesRx hp hn hq
    exact ⟨t, step_of_busyStep hs hb hp ht, hports⟩
  · exact step_of_busyStep hs hb hp (.rxShort hn hq hc)
  · exact run_stays (step_of_busyStep hs hb hp (.rxHold hn hq hc))
  · obtain ⟨t, ht, hports⟩ := exists_busyStep_takesHin hp hn hq
    exact ⟨t, step_of_busyStep hs hb hp ht, hports⟩
  · exact step_of_busyStep hs hb hp (.hinShort hn hq hc)
  · exact run_stays (step_of_busyStep hs hb hp (.hinHold hn hq hc))
  · rw [step_nil hs] at h
    obtain ⟨hrx, hhin⟩ := busyStep_inputs (busyStep_of_blockStep hb h)
    exact ⟨hrx hr, hhin hh⟩

/-! ### `Out` -/

/-- What a transition puts out: nothing, or bytes on `TX` if the command is `ENCODE`, or bytes on `HOUT` if it is not;
`OCNT` counts them (20_memory.md R54). -/
theorem busyStep_out_cases {s t : State} (h : BusyStep s t) :
    (t.tx = s.tx ∧ t.hout = s.hout ∧ t.ocnt = s.ocnt) ∨
    (s.op = 0x02 ∧ t.hout = s.hout ∧ ∃ a : List Byte, t.tx = s.tx ++ a ∧ t.ocnt = s.ocnt + BitVec.ofNat 32 a.length) ∨
    (s.op ≠ 0x02 ∧ t.tx = s.tx ∧ ∃ b : List Byte, t.hout = s.hout ++ b ∧ t.ocnt = s.ocnt + BitVec.ofNat 32 b.length) := by
  cases h with
  | encHdr7 ho | encHdr16 ho | encPay _ _ ho => exact .inr (.inl ⟨ho, rfl, _, rfl, rfl⟩)
  | pay _ _ ho | maskPay _ _ ho | shaOut ho | b64Abs _ _ ho | b64Fin ho | accOut _ _ ho =>
    exact .inr (.inr ⟨by rw [ho]; decide, rfl, _, rfl, rfl⟩)
  | _ => exact .inl ⟨rfl, rfl, rfl⟩

/-- Settles O20: the three cases of `busyStep_out_cases`. -/
theorem outAppendsAndCounts : Obligations.OutAppendsAndCounts := by
  intro s t hs hb h
  rw [step_nil hs] at h
  rcases busyStep_out_cases (busyStep_of_blockStep hb h) with
    ⟨htx, hhout, hocnt⟩ | ⟨ho, hhout, a, htx, hocnt⟩ | ⟨ho, htx, b, hhout, hocnt⟩
  · exact ⟨[], [], by simp [htx], by simp [hhout], by simp [hocnt], fun _ => rfl, fun _ => rfl⟩
  · exact ⟨a, [], htx, by simp [hhout], hocnt, fun hne => absurd ho hne, fun _ => rfl⟩
  · exact ⟨[], b, by simp [htx], hhout, by simp [hocnt], fun _ => rfl, fun he => absurd he ho⟩

end Sys2Proof.Machine

/-! PROOFS. The statements about the encodings (30_encoding.md): the fields of the command word, the header forms of the
encoder, SHA-1 padding and the base64 alphabet. -/

namespace Sys2Proof.Machine

/-! ### The command word -/

/-- A byte of a joined word that lies above its last byte is a byte of the word without it. -/
theorem extractByte_append {v : Nat} (x : BitVec v) (b : Byte) (n : Nat) :
    (x ++ b).extractLsb' (n + 8) 8 = x.extractLsb' n 8 :=
  BitVec.extractLsb'_append_eq_of_le (Nat.le_add_left 8 n)

/-- The key read from a word of four bytes is these bytes, `KEY[0]` the most significant (R70, 20_memory.md R56). -/
@[simp] theorem keyOfWord_toWord (k : Key) : Key.ofWord k.toWord = k := by
  unfold Key.ofWord
  congr 1
  · exact (extractByte_append _ k.k3 16).trans ((extractByte_append _ k.k2 8).trans BitVec.extractLsb'_append_eq_left)
  · exact (extractByte_append _ k.k3 8).trans ((extractByte_append _ k.k2 0).trans BitVec.extractLsb'_append_eq_right)
  · exact (extractByte_append _ k.k3 0).trans BitVec.extractLsb'_append_eq_right
  · exact BitVec.extractLsb'_append_eq_right

/-- Settles O4: the fields of a word are `cmdWord_fields`, its key `keyOfWord_toWord`, the opcode table
`decodeWord_cmdWord`. -/
theorem commandWordFields : Obligations.CommandWordFields :=
  ⟨fun w => (cmdWord_fields w).symm, fun k0 k1 k2 k3 => keyOfWord_toWord { k0, k1, k2, k3 }, decodeWord_cmdWord⟩

/-! ### The header of an outbound frame -/

/-- A length of the 7-bit form leaves bit 7 of its byte, the mask bit, clear (R83). -/
theorem len7_maskBit {n : W32} (h : n.toNat ≤ 125) : (n.extractLsb' 0 8).getLsbD 7 = false := by
  have hlt : 2 * (n.extractLsb' 0 8).toNat < 2 ^ 8 := by
    rw [BitVec.extractLsb'_toNat, Nat.shiftRight_zero]
    omega
  exact BitVec.msb_eq_false_iff_two_mul_lt.mpr hlt

/-- Settles O21: each range of `LEN` is one transition of `E_HDR`. -/
theorem encoderHeaderByLength : Obligations.EncoderHeaderByLength := by
  intro len key s hr
  have ⟨_, ho, hp⟩ := hr
  have hi := decodeWord_cmdWord 0x02 len key
  rw [← BitVec.setWidth_eq_extractLsb' (by decide : 8 ≤ 32)]
  refine ⟨fun h7 => ⟨?_, ?_⟩, fun h126 h16 => ?_, fun hlong => ?_⟩
  · exact exec_of_busyStep hi hr (by decide) (.encHdr7 ho hp h7)
  · rw [BitVec.setWidth_eq_extractLsb' (by decide)]
    exact len7_maskBit h7
  · exact exec_of_busyStep hi hr (by decide) (.encHdr16 ho hp h126 h16)
  · exact exec_of_busyStep hi hr (by decide) (.encTooLong ho hp hlong)

/-! ### SHA-1 padding -/

/-- The number of zero bytes after the 0x80 of a padded message of `n` bytes (R87). -/
def shaZeros (n : Nat) : Nat := (119 - n % 64) % 64

theorem shaPadded_eq (m : List Byte) :
    shaPadded m = m ++ [0x80] ++ List.replicate (shaZeros m.length) 0 ++ be64 (BitVec.ofNat 64 (8 * m.length)) := rfl

theorem shaZeros_fills (n : Nat) : (n + 1 + shaZeros n) % 64 = 56 := by
  unfold shaZeros
  omega

theorem shaZeros_least {n z : Nat} (h : (n + 1 + z) % 64 = 56) : shaZeros n ≤ z := by
  unfold shaZeros
  omega

/-- Byte `j` of the eight is bits `63 - 8 j` to `56 - 8 j`, the high byte first. -/
theorem be64_eq_map (w : W64) : be64 w = (List.range 8).map (fun j => w.extractLsb' (56 - 8 * j) 8) := rfl

@[simp] theorem be64_length (w : W64) : (be64 w).length = 8 := rfl

theorem shaPadded_length (m : List Byte) : (shaPadded m).length = 64 * ((m.length + 8) / 64 + 1) := by
  have hfills := shaZeros_fills m.length
  have hleast : shaZeros m.length < 64 := Nat.mod_lt _ (by decide)
  have hlen : (shaPadded m).length = m.length + 1 + shaZeros m.length + 8 := by
    simp only [shaPadded_eq, List.length_append, List.length_singleton, List.length_replicate, be64_length]
  omega

/-- Settles O30: the least number of zeros is `shaZeros` of the length. -/
theorem paddingFillsWholeBlocks : Obligations.PaddingFillsWholeBlocks := by
  refine fun m => ⟨shaPadded_length m, shaZeros m.length, shaZeros_fills _, fun _ => shaZeros_least, ?_⟩
  rw [shaPadded_eq, be64_eq_map]

/-! ### The base64 alphabet -/

/-- The character of each six-bit value (R88). -/
theorem alpha_toNat : ∀ v : BitVec 6, (alpha v).toNat =
    if v.toNat ≤ 25 then 0x41 + v.toNat else if v.toNat ≤ 51 then 0x61 + (v.toNat - 26)
    else if v.toNat ≤ 61 then 0x30 + (v.toNat - 52) else if v.toNat = 62 then 0x2B else 0x2F := by
  decide

/-- No character of the alphabet is the padding. -/
theorem alpha_ne_padChar : ∀ v : BitVec 6, alpha v ≠ padChar := by decide

/-- Settles O39: the alphabet is checked over its 64 values. -/
theorem base64Alphabet : Obligations.Base64Alphabet := fun v => ⟨alpha_toNat v, rfl, alpha_ne_padChar v⟩

end Sys2Proof.Machine

/-! PROOFS. The statements about the frame parser (40_frame_parser.md), phase by phase. A `DECODE` step with a byte at
the head of `RX` is a transition of the running command; the header tests and the key index are read as the spec writes
them. -/

namespace Sys2Proof.Machine

/-! ### The parser's steps -/

/-- A transition of the running parser is what executing `DECODE` does, whatever its operands (R72). -/
theorem execDecode_of_busyStep {len key : W32} {p : Phase} {s t : State} (hr : Running 0x01 p s)
    (hp : p ∈ phasesOf 0x01) (h : BusyStep s t) : exec (.decode len key) s = .next t :=
  exec_of_busyStep (decodeWord_cmdWord 0x01 len key) hr hp h

/-- A transition of the running command is the machine's step when no turn is scheduled. -/
theorem step_of_running {op : Byte} {p : Phase} {s t : State} (hs : s.sched = []) (hr : Running op p s)
    (hp : p ∈ phasesOf op) (h : BusyStep s t) : step s = .next t := by
  obtain ⟨hb, rfl, rfl⟩ := hr
  exact step_of_busyStep hs hb hp h

/-- A run that begins with a transition of the running command. -/
theorem run_of_running {op : Byte} {p : Phase} {s t u : State} {k : Nat} (hs : s.sched = []) (hr : Running op p s)
    (hp : p ∈ phasesOf op) (h : BusyStep s t) (hrun : Host.Core.run core k t = .next u) :
    Host.Core.run core (k + 1) s = .next u :=
  (run_succ (step_of_running hs hr hp h) k).trans hrun

/-! ### Byte 0 -/

/-- The strict test is the three field conditions (R105). -/
theorem strictOk_iff (b : Byte) :
    strictOk b = true ↔ b.getLsbD 7 = true ∧ b.extractLsb' 4 3 = 0 ∧ b.extractLsb' 0 4 = 1 := by
  simp only [strictOk, finBit, unnamedBits, frameOpcode, Bool.and_eq_true, beq_iff_eq, and_assoc]

/-- Settles O10: the two transitions of `D_HDR0`, told apart by `strictOk_iff`. -/
theorem byteZeroIsLatchedAndStrictlyTested : Obligations.ByteZeroIsLatchedAndStrictlyTested := by
  intro len key s b rest hr hq
  have ⟨_, ho, hp⟩ := hr
  refine ⟨fun hlax => ?_, fun _ h7 h64 h30 => ?_, fun hstrict hbad => ?_⟩
  · exact execDecode_of_busyStep hr (by decide) (.hdr0 b rest ho hp hq (.inl hlax))
  · exact execDecode_of_busyStep hr (by decide) (.hdr0 b rest ho hp hq (.inr ((strictOk_iff b).mpr ⟨h7, h64, h30⟩)))
  · have hfails : strictOk b = false := by
      rw [← Bool.not_eq_true, strictOk_iff, not_and_or, not_and_or, Bool.not_eq_true]
      exact hbad
    exact execDecode_of_busyStep hr (by decide) (.hdr0Bad b rest ho hp hq hstrict hfails)

/-! ### Byte 1 -/

/-- With the mask bit set, the indicator is 127 at 0xFF only (R108). -/
theorem indOf_eq_127_iff {b : Byte} (hm : maskBit b = true) : (indOf b).toNat = 127 ↔ b = 0xFF := by
  refine ⟨fun h => byte1_ext64 b hm (by omega) (by omega), ?_⟩
  rintro rfl
  decide

/-- Settles O11: the four transitions of `D_HDR1`, in the order of the tests. -/
theorem byteOneSelectsTheForm : Obligations.ByteOneSelectsTheForm := by
  refine ⟨fun len key s b rest hr hq => ?_, fun b => indOf_eq_127_iff⟩
  have ⟨_, ho, hp⟩ := hr
  refine execDecode_of_busyStep hr (by decide) ?_
  split_ifs with hm h7 h16
  · exact .hdr1Unmasked b rest ho hp hq hm
  · exact .hdr1Short b rest ho hp hq (eq_true_of_ne_false hm) h7
  · obtain rfl := byte1_ext16 b (eq_true_of_ne_false hm) h16
    exact .hdr1Ext rest ho hp hq
  · obtain rfl := byte1_ext64 b (eq_true_of_ne_false hm) h7 h16
    exact .hdr1Long rest ho hp hq

/-! ### The extended length -/

/-- `be16` as a number (30_encoding.md R81). -/
theorem be16_toNat (h l : Byte) : (be16 h l).toNat = 256 * h.toNat + l.toNat := by
  rw [be16, BitVec.toNat_append, ← Nat.shiftLeft_add_eq_or_of_lt l.isLt, Nat.shiftLeft_eq, Nat.mul_comm]

/-- The two length bytes, written one after the other, replace the whole of `PLEN` (R109). -/
@[simp] theorem setLo_setHi (n : W16) (h l : Byte) : setLo (setHi n h) l = be16 h l := by
  rw [setLo, setHi, hi8_be16]

/-- The three steps from the indicator 126 to the key (R106, R109). -/
theorem run_extendedLength {s : State} {h l : Byte} {rest : List Byte} (hs : s.sched = []) (hr : Running 0x01 .dHdr1 s)
    (hq : s.rx.queue = 0xFE :: h :: l :: rest) :
    Host.Core.run core 3 s = .next { leaveRx rest s with hdr1 := 0xFE, plen := be16 h l, phase := .dKey0 } := by
  have ⟨hb, ho, hp⟩ := hr
  rw [← setLo_setHi 0 h l]
  refine run_of_running hs hr (by decide) (.hdr1Ext _ ho hp hq) ?_
  refine run_of_running (p := .dExt0) hs ⟨hb, ho, rfl⟩ (by decide) (.ext0 h _ ho rfl rfl) ?_
  exact run_of_running (p := .dExt1) hs ⟨hb, ho, rfl⟩ (by decide) (.ext1 l _ ho rfl rfl) rfl

/-- Settles O12: one transition for the 7-bit form, `run_extendedLength` for the 16-bit one. -/
theorem lengthIndicatorGivesThePayloadLength : Obligations.LengthIndicatorGivesThePayloadLength := by
  intro s b rest hs hr hq hm
  have ⟨_, ho, hp⟩ := hr
  refine ⟨fun h7 => ?_, fun h16 h l rest' hrest => ?_⟩
  · refine ⟨_, step_of_running hs hr (by decide) (.hdr1Short b rest ho hp hq hm h7), rfl, ?_, rfl⟩
    exact BitVec.toNat_setWidth_of_le (by decide)
  · obtain rfl := byte1_ext16 b hm h16
    exact ⟨_, run_extendedLength hs hr (hrest ▸ hq), rfl, be16_toNat h l, rfl⟩

/-- A transition enters `D_EXT0` only from `D_HDR1` with byte 1 = 0xFE, and `D_EXT1` only from `D_EXT0` (R109). -/
theorem busyStep_entersExt {s t : State} (hb : s.state = .busy) (h : BusyStep s t) (hne : s.phase ≠ t.phase) :
    (t.phase = .dExt0 → Running 0x01 .dHdr1 s ∧ t.hdr1 = 0xFE) ∧ (t.phase = .dExt1 → Running 0x01 .dExt0 s) := by
  cases h with
  | hdr1Ext _ ho hp => exact ⟨fun _ => ⟨⟨hb, ho, hp⟩, rfl⟩, nofun⟩
  | ext0 _ _ ho hp => exact ⟨nofun, fun _ => ⟨hb, ho, hp⟩⟩
  | rxShort | rxHold | hinShort | hinHold | hdr0Bad | hdr1Unmasked | hdr1Long | pay | encTooLong | encPay | maskPay
  | shaAbs | shaOut | b64Abs | accTok | illegalOp => exact absurd rfl hne
  | _ => exact ⟨nofun, nofun⟩

/-- A block's turn that changes `PHASE`, and not to the first phase of a command, is a transition of a busy block. -/
theorem busyStep_of_entered {s t : State} (h : blockStep s = .next t) (hne : s.phase ≠ t.phase)
    (hfirst : ∀ op, firstPhase op ≠ t.phase) : s.state = .busy ∧ BusyStep s t := by
  rcases blockStep_cases h with ⟨-, w, rest, -, rfl⟩ | ⟨-, -, rfl⟩ | hbusy | ⟨-, rfl⟩
  · exact absurd rfl (hfirst (cmdOp w))
  · exact absurd rfl hne
  · exact hbusy
  · exact absurd rfl hne

/-- No command starts in a length phase (10_state.md R24). -/
theorem firstPhase_not_ext (op : Byte) : firstPhase op ≠ .dExt0 ∧ firstPhase op ≠ .dExt1 := by
  unfold firstPhase
  split_ifs <;> decide

/-- Settles O13: the transitions of the two phases, and `busyStep_entersExt` for how they are entered. -/
theorem extendedLengthIsBigEndian : Obligations.ExtendedLengthIsBigEndian := by
  refine ⟨fun len key s b rest hr hq => ?_, fun len key s b rest hr hq => ?_, fun s t hs h hne ht => ?_,
    fun s t hs h hne ht => ?_⟩
  · have ⟨_, ho, hp⟩ := hr
    exact execDecode_of_busyStep hr (by decide) (.ext0 b rest ho hp hq)
  · have ⟨_, ho, hp⟩ := hr
    exact execDecode_of_busyStep hr (by decide) (.ext1 b rest ho hp hq)
  · rw [← ht] at hne
    have ⟨hb, hbs⟩ := busyStep_of_entered (step_nil hs ▸ h) hne fun op => ht ▸ (firstPhase_not_ext op).1
    obtain ⟨hfrom, hhdr1⟩ := (busyStep_entersExt hb hbs hne).1 ht
    rw [hhdr1]
    exact ⟨hfrom, by decide, by decide⟩
  · rw [← ht] at hne
    have ⟨hb, hbs⟩ := busyStep_of_entered (step_nil hs ▸ h) hne fun op => ht ▸ (firstPhase_not_ext op).2
    exact (busyStep_entersExt hb hbs hne).2 ht

/-! ### Key and payload -/

/-- Settles O14: one transition for each key byte. -/
theorem keyBytesAreTakenInOrder : Obligations.KeyBytesAreTakenInOrder := by
  refine fun len key s b rest hq => ⟨fun hr => ?_, fun hr => ?_, fun hr => ?_, fun hr => ?_⟩ <;> have ⟨_, ho, hp⟩ := hr
  · exact execDecode_of_busyStep hr (by decide) (.key0 b rest ho hp hq)
  · exact execDecode_of_busyStep hr (by decide) (.key1 b rest ho hp hq)
  · exact execDecode_of_busyStep hr (by decide) (.key2 b rest ho hp hq)
  · exact execDecode_of_busyStep hr (by decide) (.key3 b rest ho hp hq)

/-- The key index of two bits counts the key bytes modulo 4 (42_mask_engine.md R150). -/
theorem keyByte_ofNat (key : Key) (i : Nat) : key.byte (BitVec.ofNat 2 i) = keyAt key i := by
  have hmod : BitVec.ofNat 2 i = BitVec.ofNat 2 (i % 4) := BitVec.eq_of_toNat_eq (Nat.mod_mod i 4).symm
  rw [hmod, keyAt]
  have hlt : i % 4 < 4 := Nat.mod_lt i (by decide)
  interval_cases i % 4 <;> rfl

/-- `IDX[1:0]` as the mask engine reads it (10_state.md R27). -/
theorem idxLow_eq_ofNat (idx : W32) : idxLow idx = BitVec.ofNat 2 idx.toNat := rfl

/-- The mask step in the spec's words: the byte XOR `KEY[i mod 4]` (R111, R150). -/
theorem xorMask_eq (key : Key) (idx : W32) (b : Byte) : xorMask key idx b = b ^^^ keyAt key idx.toNat := by
  rw [xorMask, idxLow_eq_ofNat, keyByte_ofNat]

/-- Settles O15: the payload transition of `D_PAY`, its byte read by `xorMask_eq`. -/
theorem payloadByteIsUnmaskedAtOnce : Obligations.PayloadByteIsUnmaskedAtOnce := by
  intro len key s b rest hr hi hq
  have ⟨_, ho, hp⟩ := hr
  rw [← xorMask_eq]
  exact execDecode_of_busyStep hr (by decide) (.pay b rest ho hp hi hq)

end Sys2Proof.Machine

/-! PROOFS. The statements about the frame encoder (41_frame_encoder.md). A run of `ENCODE` from a ready block is the
accept step, the header step, one step for each payload byte, and the step that ends it; `encodingAt` names the states
it goes through. -/

namespace Sys2Proof.Machine

/-! ### The accept step -/

/-- A ready block takes its word in the next step (10_state.md R24). -/
theorem step_of_ready {w : W72} {rest : List W72} {s : State} (h : Ready w rest s) :
    step s = .next (accepted w { s with cmds := rest }) := by
  obtain ⟨hidle, -, hcmds, hsched⟩ := h
  rw [step_nil hsched, blockStep_idle hidle hcmds, exec_accepts (by exact hidle)]

/-- `ENCODE` latches nothing of its own when it is taken (R24, 30_encoding.md R72). -/
theorem accepted_encode {w : W72} (ho : cmdOp w = 0x02) (s : State) :
    accepted w s = takeCommand 0x02 (cmdLen w) .eHdr s := by
  unfold accepted
  rw [ho]
  rfl

/-- A run that begins with a ready block's accept of an `ENCODE` and the transition of `E_HDR`. -/
theorem run_encode_header {w : W72} {rest : List W72} {s t : State} (h : Ready w rest s) (ho : cmdOp w = 0x02)
    (hbs : BusyStep (takeCommand 0x02 (cmdLen w) .eHdr { s with cmds := rest }) t) :
    Host.Core.run core 2 s = .next t := by
  have haccept := step_of_ready h
  rw [accepted_encode ho] at haccept
  obtain ⟨-, -, -, hsched⟩ := h
  rw [run_succ haccept]
  exact run_of_running (op := 0x02) (p := .eHdr) hsched ⟨rfl, rfl, rfl⟩ (by decide) hbs rfl

/-- Settles O22: after the accept, the one transition of `E_HDR` for such a length is the fault. -/
theorem overlongEncodeFaultsBeforeAnyByte : Obligations.OverlongEncodeFaultsBeforeAnyByte :=
  fun _ _ _ h ho hlong => run_encode_header h ho (.encTooLong rfl rfl hlong)

/-! ### The header and the payload -/

/-- The transition of `E_HDR` for a length that fits a frame: the header of the big-step form is put out (R132 to R134,
R138). -/
theorem busyStep_outHeader {s : State} (ho : s.op = 0x02) (hp : s.phase = .eHdr) (hfits : s.len.toNat ≤ 65535) :
    BusyStep s { s with
      tx := s.tx ++ outHeader s.len, ocnt := s.ocnt + BitVec.ofNat 32 (outHeader s.len).length, phase := .ePay } := by
  unfold outHeader
  split_ifs with h7
  · exact .encHdr7 ho hp h7
  · exact .encHdr16 ho hp (Nat.lt_of_not_le h7) hfits

/-- The state of an `ENCODE` in `E_PAY`: the block was ready in `s`, took the word `w`, put out the header and copied
the payload bytes `sent`; `more` stands on `HIN`. -/
def encodingAt (w : W72) (rest : List W72) (s : State) (sent more : List Byte) : State :=
  { s with
    cmds := rest, op := 0x02, len := cmdLen w, idx := BitVec.ofNat 32 sent.length,
    ocnt := BitVec.ofNat 32 (outHeader (cmdLen w) ++ sent).length, state := .busy, phase := .ePay,
    hin := { s.hin with queue := more }, tx := s.tx ++ (outHeader (cmdLen w) ++ sent) }

section
variable {w : W72} {rest : List W72} {s : State} {sent more : List Byte}

/-- Accept and header, nothing of the payload yet. -/
theorem run_encodingAt_nil (h : Ready w rest s) (ho : cmdOp w = 0x02) (hfits : (cmdLen w).toNat ≤ 65535) :
    Host.Core.run core 2 s = .next (encodingAt w rest s [] s.hin.queue) := by
  rw [run_encode_header h ho (busyStep_outHeader rfl rfl hfits), encodingAt]
  simp

/-- While bytes are due, `IDX` is not yet `LEN`. -/
theorem encodingAt_idx_ne (hdue : sent.length < (cmdLen w).toNat) :
    (encodingAt w rest s sent more).idx ≠ (encodingAt w rest s sent more).len := by
  intro heq
  have hlen : (BitVec.ofNat 32 sent.length).toNat = (cmdLen w).toNat := congrArg BitVec.toNat heq
  rw [BitVec.toNat_ofNat, Nat.mod_eq_of_lt (hdue.trans (cmdLen w).isLt)] at hlen
  omega

/-- While bytes are due, `E_PAY` needs `HIN`. -/
theorem encodingAt_needsHin (hdue : sent.length < (cmdLen w).toNat) :
    needsHin (encodingAt w rest s sent more) = true :=
  bne_iff_ne.mpr (encodingAt_idx_ne hdue)

/-- A transition from `E_PAY` is the machine's step. -/
theorem step_encodingAt {t : State} (hsched : s.sched = []) (h : BusyStep (encodingAt w rest s sent more) t) :
    step (encodingAt w rest s sent more) = .next t :=
  step_of_running (op := 0x02) (p := .ePay) hsched ⟨rfl, rfl, rfl⟩ (by decide) h

/-- One payload byte is copied (R136). -/
theorem step_encodingAt_cons {b : Byte} (hsched : s.sched = []) (hdue : sent.length < (cmdLen w).toNat) :
    step (encodingAt w rest s sent (b :: more)) = .next (encodingAt w rest s (sent ++ [b]) more) := by
  rw [step_encodingAt hsched (.encPay b more rfl rfl (encodingAt_idx_ne hdue) rfl)]
  simp [encodingAt, leaveHin, BitVec.ofNat_add, add_assoc]

/-- The payload is copied in order and unchanged, one byte a step (R136). -/
theorem run_encodingAt_append (hsched : s.sched = []) {bs : List Byte}
    (hdue : sent.length + bs.length ≤ (cmdLen w).toNat) :
    Host.Core.run core bs.length (encodingAt w rest s sent (bs ++ more)) =
      .next (encodingAt w rest s (sent ++ bs) more) := by
  induction bs generalizing sent with
  | nil => simp [Host.Core.run]
  | cons b bs ih =>
    rw [List.length_cons] at hdue
    have hrest : (sent ++ [b]).length + bs.length ≤ (cmdLen w).toNat := by
      rw [List.length_append, List.length_singleton]
      omega
    rw [List.length_cons, List.cons_append, run_succ (step_encodingAt_cons hsched (by omega)), ih hrest,
      List.append_assoc, List.singleton_append]

/-- The run up to the copied bytes, from the ready block on. -/
theorem run_encodingAt (h : Ready w rest s) (ho : cmdOp w = 0x02) (hfits : (cmdLen w).toNat ≤ 65535)
    (hq : s.hin.queue = sent ++ more) (hdue : sent.length ≤ (cmdLen w).toNat) :
    Host.Core.run core (sent.length + 2) s = .next (encodingAt w rest s sent more) := by
  have ⟨_, _, _, hsched⟩ := h
  rw [Nat.add_comm, run_add (run_encodingAt_nil h ho hfits), hq]
  exact run_encodingAt_append hsched (by simpa using hdue)

/-- The same run and its last step. -/
theorem run_encodingAt_last {t : State} (h : Ready w rest s) (ho : cmdOp w = 0x02) (hfits : (cmdLen w).toNat ≤ 65535)
    (hq : s.hin.queue = sent ++ more) (hdue : sent.length ≤ (cmdLen w).toNat)
    (hlast : BusyStep (encodingAt w rest s sent more) t) :
    Host.Core.run core (sent.length + 3) s = .next t := by
  have ⟨_, _, _, hsched⟩ := h
  rw [run_add (run_encodingAt h ho hfits hq hdue) 1, run_succ (step_encodingAt hsched hlast)]
  rfl

end

/-- Settles O25: the cases of the big-step form, each with the last transition of its run. -/
theorem encodeAgreesWithBigStep : Obligations.EncodeAgreesWithBigStep := by
  intro s w rest hr ho
  have ⟨_, herr, _, hsched⟩ := hr
  unfold encodeBig
  split_ifs with hlong hall hclosed
  · exact ⟨_, overlongEncodeFaultsBeforeAnyByte s w rest hr ho hlong, ⟨rfl, rfl⟩,
      ⟨rfl, (List.append_nil _).symm, rfl, rfl⟩, rfl, rfl, nofun⟩
  · have hlen : (s.hin.queue.take (cmdLen w).toNat).length = (cmdLen w).toNat := List.length_take_of_le hall
    have hidx : BitVec.ofNat 32 (s.hin.queue.take (cmdLen w).toNat).length = cmdLen w := by
      rw [hlen, BitVec.ofNat_toNat, BitVec.setWidth_eq]
    have hrun := run_encodingAt_last hr ho (Nat.le_of_not_lt hlong) (List.take_append_drop _ _).symm hlen.le
      (.encDone rfl rfl hidx)
    rw [hlen] at hrun
    exact ⟨_, hrun, ⟨rfl, rfl, herr⟩, ⟨rfl, rfl, rfl, rfl⟩, rfl, rfl, fun _ => hidx⟩
  · have hdue := Nat.lt_of_not_le hall
    have hrun := run_encodingAt_last hr ho (Nat.le_of_not_lt hlong) (List.append_nil _).symm hdue.le
      (.hinShort (encodingAt_needsHin hdue) rfl hclosed)
    exact ⟨_, hrun, ⟨rfl, rfl⟩, ⟨by rw [List.drop_length]; rfl, rfl, rfl, rfl⟩, rfl, rfl, nofun⟩
  · have hdue := Nat.lt_of_not_le hall
    have hhold := step_encodingAt (rest := rest) hsched
      (.hinHold (encodingAt_needsHin hdue) rfl (eq_false_of_ne_true hclosed))
    exact ⟨_, run_encodingAt hr ho (Nat.le_of_not_lt hlong) (List.append_nil _).symm hdue.le, ⟨rfl, herr, hhold⟩,
      ⟨by rw [List.drop_length]; rfl, rfl, rfl, rfl⟩, rfl, rfl, nofun⟩

end Sys2Proof.Machine

/-! PROOFS. The statements about the mask engine (42_mask_engine.md). As a function, masking XORs each byte with the key
byte of its position. A run of `MASK` from a ready block is the accept step, one step for each byte, and the step that
ends it; `maskingAt` names the states it goes through. -/

namespace Sys2Proof.Machine

/-! ### Masking as a function -/

/-- Masking from index `i` on, position by position (R150). -/
theorem xorMaskFrom_eq_mapIdx (key : Key) (i : Nat) (p : List Byte) :
    xorMaskFrom key i p = p.mapIdx fun j b => b ^^^ keyAt key (i + j) := by
  induction p generalizing i with
  | nil => rfl
  | cons b bs ih =>
    rw [xorMaskFrom, keyByte_ofNat, ih, List.mapIdx_cons]
    simp only [Nat.add_zero, Nat.add_assoc, Nat.add_comm 1]

/-- `xor_mask_seq`, position by position (R150). -/
theorem xorMaskSeq_eq_mapIdx (key : Key) (p : List Byte) :
    xorMaskSeq key p = p.mapIdx fun i b => b ^^^ keyAt key i := by
  simp only [xorMaskSeq, xorMaskFrom_eq_mapIdx, Nat.zero_add]

@[simp] theorem xorMaskSeq_nil (key : Key) : xorMaskSeq key [] = [] := rfl

@[simp] theorem xorMaskSeq_length (key : Key) (p : List Byte) : (xorMaskSeq key p).length = p.length := by
  rw [xorMaskSeq_eq_mapIdx, List.length_mapIdx]

theorem xorMaskSeq_getElem? (key : Key) (p : List Byte) (i : Nat) :
    (xorMaskSeq key p)[i]? = p[i]?.map (· ^^^ keyAt key i) := by
  rw [xorMaskSeq_eq_mapIdx, List.getElem?_mapIdx]

theorem xorMaskSeq_concat (key : Key) (p : List Byte) (b : Byte) :
    xorMaskSeq key (p ++ [b]) = xorMaskSeq key p ++ [b ^^^ keyAt key p.length] := by
  simp only [xorMaskSeq_eq_mapIdx, List.mapIdx_concat]

/-- A byte XORed twice with one key byte is that byte, at every position (R152). -/
@[simp] theorem xorMaskSeq_xorMaskSeq (key : Key) (p : List Byte) : xorMaskSeq key (xorMaskSeq key p) = p := by
  refine List.ext_getElem? fun i => ?_
  rw [xorMaskSeq_getElem?, xorMaskSeq_getElem?, Option.map_map]
  simp only [Function.comp_def, xor_cancel_right, Option.map_id_fun', id_eq]

/-- Settles O26: masking position by position, and the transition of `M_PAY`, its byte read by `xorMask_eq`. -/
theorem maskStepXorsWithKeyByte : Obligations.MaskStepXorsWithKeyByte := by
  refine ⟨xorMaskSeq_length, fun key p i b hb => ?_, fun len key s b rest hr hi hq => ?_⟩
  · rw [xorMaskSeq_getElem?, hb, Option.map_some]
  · have ⟨_, ho, hp⟩ := hr
    rw [← xorMask_eq]
    exact exec_of_busyStep (decodeWord_cmdWord 0x03 len key) hr (by decide) (.maskPay b rest ho hp hi hq)

/-! ### Masking on the machine -/

/-- A run that takes one input byte a step, up to `n` bytes: `stage taken more` is the state in which the bytes `taken`
are behind the run and `more` still stand on the port. -/
theorem run_takesInput {stage : List Byte → List Byte → State} {n : Nat}
    (hstep : ∀ {taken more b}, taken.length < n →
      step (stage taken (b :: more)) = .next (stage (taken ++ [b]) more))
    {taken bs more : List Byte} (hdue : taken.length + bs.length ≤ n) :
    Host.Core.run core bs.length (stage taken (bs ++ more)) = .next (stage (taken ++ bs) more) := by
  induction bs generalizing taken with
  | nil => rw [List.append_nil]; rfl
  | cons b bs ih =>
    rw [List.length_cons] at hdue ⊢
    have hrest : (taken ++ [b]).length + bs.length ≤ n := by
      rw [List.length_append, List.length_singleton]
      omega
    rw [List.cons_append, run_succ (hstep (by omega)), ih hrest, List.append_assoc, List.singleton_append]

/-- The state of a `MASK` in `M_PAY`: the block was ready in `s`, took the word `w` and masked the bytes `taken`; `more`
stands on `HIN`. -/
def maskingAt (w : W72) (rest : List W72) (s : State) (taken more : List Byte) : State :=
  { s with
    cmds := rest, op := 0x03, len := cmdLen w, key := Key.ofWord (cmdKey w), idx := BitVec.ofNat 32 taken.length,
    ocnt := BitVec.ofNat 32 taken.length, state := .busy, phase := .mPay, hin := { s.hin with queue := more },
    hout := s.hout ++ xorMaskSeq (Key.ofWord (cmdKey w)) taken }

section
variable {w : W72} {rest : List W72} {s : State} {taken more : List Byte}

/-- The accept step latches `LEN` and `KEY`, and nothing is masked yet (10_state.md R24). -/
theorem step_maskingAt_nil (h : Ready w rest s) (ho : cmdOp w = 0x03) :
    step s = .next (maskingAt w rest s [] s.hin.queue) := by
  rw [step_of_ready h, accepted, ho, maskingAt, xorMaskSeq_nil, List.append_nil]
  rfl

/-- A transition from `M_PAY` is the machine's step. -/
theorem step_maskingAt {t : State} (hsched : s.sched = []) (h : BusyStep (maskingAt w rest s taken more) t) :
    step (maskingAt w rest s taken more) = .next t :=
  step_of_running (op := 0x03) (p := .mPay) hsched ⟨rfl, rfl, rfl⟩ (by decide) h

/-- While bytes are due, `IDX` counts the bytes taken without wrapping. -/
theorem maskingAt_idx_toNat (hdue : taken.length < (cmdLen w).toNat) :
    (maskingAt w rest s taken more).idx.toNat = taken.length :=
  (BitVec.toNat_ofNat ..).trans (Nat.mod_eq_of_lt (hdue.trans (cmdLen w).isLt))

/-- While bytes are due, `IDX` is not yet `LEN`. -/
theorem maskingAt_idx_ne (hdue : taken.length < (cmdLen w).toNat) :
    (maskingAt w rest s taken more).idx ≠ (maskingAt w rest s taken more).len :=
  fun heq => hdue.ne ((maskingAt_idx_toNat hdue).symm.trans (congrArg BitVec.toNat heq))

/-- One byte is masked with the key byte of its position (R150, R151). -/
theorem step_maskingAt_cons {b : Byte} (hsched : s.sched = []) (hdue : taken.length < (cmdLen w).toNat) :
    step (maskingAt w rest s taken (b :: more)) = .next (maskingAt w rest s (taken ++ [b]) more) := by
  rw [step_maskingAt hsched (.maskPay b more rfl rfl (maskingAt_idx_ne hdue) rfl), xorMask_eq,
    maskingAt_idx_toNat hdue]
  simp [maskingAt, leaveHin, BitVec.ofNat_add, xorMaskSeq_concat]

/-- The run up to the bytes taken, from the ready block on (R151). -/
theorem run_maskingAt (h : Ready w rest s) (ho : cmdOp w = 0x03) (hq : s.hin.queue = taken ++ more)
    (hdue : taken.length ≤ (cmdLen w).toNat) :
    Host.Core.run core (taken.length + 1) s = .next (maskingAt w rest s taken more) := by
  have ⟨_, _, _, hsched⟩ := h
  rw [run_succ (step_maskingAt_nil h ho), hq]
  exact run_takesInput (step_maskingAt_cons hsched) (taken := []) (by simpa using hdue)

/-- A `MASK` of the whole of `HIN` completes with the masked bytes on `HOUT` (R151). -/
theorem run_mask (h : Ready w rest s) (ho : cmdOp w = 0x03) (hlen : (cmdLen w).toNat = s.hin.queue.length) :
    Host.Core.run core (s.hin.queue.length + 2) s = .next (complete (maskingAt w rest s s.hin.queue [])) := by
  have ⟨_, _, _, hsched⟩ := h
  have hidx : BitVec.ofNat 32 s.hin.queue.length = cmdLen w := by
    rw [← hlen, BitVec.ofNat_toNat, BitVec.setWidth_eq]
  rw [run_add (run_maskingAt h ho (List.append_nil _).symm hlen.ge) 1,
    run_succ (step_maskingAt hsched (.maskDone rfl rfl hidx))]
  rfl

end

/-- Settles O28: two runs of `run_mask`, the second over the first one's output, cancel by `xorMaskSeq_xorMaskSeq`. -/
theorem maskIsSelfInverse : Obligations.MaskIsSelfInverse := by
  refine ⟨xorMaskSeq_xorMaskSeq, fun s w rest p hr ho hq hlen => ?_⟩
  subst hq
  refine ⟨_, _, run_mask hr ho hlen, rfl, rfl, xorMaskSeq_length .., fun s' rest' hr' hq' => ?_⟩
  have hsame : s'.hin.queue.length = s.hin.queue.length := by rw [hq', xorMaskSeq_length]
  have hrun := run_mask hr' ho (hlen.trans hsame.symm)
  rw [hsame] at hrun
  refine ⟨_, hrun, rfl, ?_⟩
  rw [complete_hout, maskingAt, hq', xorMaskSeq_xorMaskSeq]

end Sys2Proof.Machine

/-! PROOFS. The statements about the SHA-1 unit (43_sha1.md). The rounds and the message schedule come first. The unit
is then told by the bytes fed to it since a chaining value was set: `Streamed` splits them into the whole blocks already
compressed into `H` and the rest, which stands in `BLK`. Feeding a byte extends the bytes by one, so `finish()`
compresses the padded message. A run of `SHA1` from a ready block is the accept step, one step for each message byte,
the step that finds the count reached, the step of `finish()`, one step for each digest byte and the step that ends it;
`hashingAt`, `finishedAt` and `digestingAt` name the states it goes through. -/

namespace Sys2Proof.Machine

/-! ### The rounds -/

/-- The working variables before round `t` of `compress` (R167). -/
def workingVars (h : Chain) (blk : List Byte) (t : Nat) : Chain := shaRounds 0 ((schedule blk).take t) h

theorem shaRounds_append (t : Nat) (ws vs : List W32) (v : Chain) :
    shaRounds t (ws ++ vs) v = shaRounds (t + ws.length) vs (shaRounds t ws v) := by
  induction ws generalizing t v with
  | nil => rfl
  | cons w ws ih =>
    rw [List.cons_append, shaRounds, ih, shaRounds, List.length_cons, Nat.add_right_comm, Nat.add_assoc]

theorem workingVars_succ (h : Chain) {blk : List Byte} {t : Nat} (ht : t < (schedule blk).length) :
    workingVars h blk (t + 1) = shaRound t ((schedule blk).getD t 0) (workingVars h blk t) := by
  rw [workingVars, List.take_succ_eq_append_getElem ht, shaRounds_append, List.length_take_of_le ht.le, Nat.zero_add,
    List.getD_eq_getElem _ _ ht]
  rfl

theorem compress_eq (h : Chain) {blk : List Byte} {n : Nat} (hn : (schedule blk).length = n) :
    compress h blk = addChain h (workingVars h blk n) := by
  rw [compress, workingVars, List.take_of_length_le hn.le]

/-! ### The message schedule -/

/-- The next word after those of a latest-first schedule (R166). -/
def nextWord (w : List W32) : W32 := rotl 1 (w.getD 2 0 ^^^ w.getD 7 0 ^^^ w.getD 13 0 ^^^ w.getD 15 0)

theorem extendSchedule_add (m n : Nat) (w : List W32) :
    extendSchedule (m + n) w = extendSchedule n (extendSchedule m w) := by
  induction m generalizing w with
  | zero => rw [Nat.zero_add, extendSchedule]
  | succ m ih => rw [Nat.add_right_comm, extendSchedule, ih, extendSchedule]

/-- The last word of an extension is the next word of those before it. -/
theorem extendSchedule_succ (n : Nat) (w : List W32) :
    extendSchedule (n + 1) w = nextWord (extendSchedule n w) :: extendSchedule n w := extendSchedule_add n 1 w

@[simp] theorem extendSchedule_length (n : Nat) (w : List W32) : (extendSchedule n w).length = n + w.length := by
  induction n with
  | zero => rw [extendSchedule, Nat.zero_add]
  | succ n ih => rw [extendSchedule_succ, List.length_cons, ih, Nat.add_right_comm]

/-- Extending keeps the words that are there. -/
theorem extendSchedule_suffix (n : Nat) (w : List W32) : w <:+ extendSchedule n w := by
  induction n with
  | zero => exact List.suffix_refl w
  | succ n ih => exact extendSchedule_succ n w ▸ ih.trans (List.suffix_cons ..)

/-- The first `16 + n` words of the schedule of a block, latest first. -/
def scheduleUpTo (blk : List Byte) (n : Nat) : List W32 :=
  extendSchedule n ((List.range 16).map (blockWord blk)).reverse

@[simp] theorem scheduleUpTo_length (blk : List Byte) (n : Nat) : (scheduleUpTo blk n).length = n + 16 := by
  simp [scheduleUpTo]

theorem schedule_length (blk : List Byte) : (schedule blk).length = 80 := by
  rw [schedule, List.length_reverse]
  exact scheduleUpTo_length blk 64

/-- The words up to any point are the schedule's first. -/
theorem scheduleUpTo_prefix (blk : List Byte) {n : Nat} (hn : n ≤ 64) :
    (scheduleUpTo blk n).reverse <+: schedule blk := by
  rw [schedule, List.reverse_prefix, show 64 = n + (64 - n) by omega, extendSchedule_add]
  exact extendSchedule_suffix ..

/-- A word of the schedule, found in the words up to a later point. -/
theorem schedule_getElem? (blk : List Byte) {n t : Nat} (hn : n ≤ 64) (ht : t < n + 16) :
    (schedule blk)[t]? = (scheduleUpTo blk n)[n + 15 - t]? := by
  obtain ⟨later, hlater⟩ := scheduleUpTo_prefix blk hn
  rw [← hlater, List.getElem?_append_left (by simpa using ht), List.getElem?_reverse (by simpa using ht),
    scheduleUpTo_length, Nat.add_sub_assoc (by decide)]

/-- `be32` as shifts and ORs, bit by bit: each bit lies in one byte and is clear in the other shifted ones (R165). -/
theorem be32_eq (b0 b1 b2 b3 : Byte) :
    be32 b0 b1 b2 b3 = (b0.setWidth 32 <<< 24) ||| (b1.setWidth 32 <<< 16) ||| (b2.setWidth 32 <<< 8) |||
      b3.setWidth 32 := by
  apply BitVec.eq_of_getLsbD_eq
  intro i hi
  simp only [be32, BitVec.getLsbD_append, BitVec.getLsbD_or, BitVec.getLsbD_shiftLeft, BitVec.getLsbD_setWidth]
  grind

/-- The first 16 words are the block's bytes (R165). -/
theorem schedule_blockWord (blk : List Byte) {t : Nat} (ht : t < 16) :
    (schedule blk)[t]? = some (blockWord blk t) := by
  rw [schedule_getElem? blk (Nat.zero_le 64) (by omega), scheduleUpTo, extendSchedule,
    List.getElem?_reverse (by simp; omega)]
  simp [show 15 - (15 - t) = t by omega, ht]

/-- A later word follows from the ones before it (R166). -/
theorem schedule_nextWord (blk : List Byte) {t : Nat} (h16 : 16 ≤ t) (h80 : t < 80) :
    (schedule blk)[t]? = some (nextWord (scheduleUpTo blk (t - 16))) := by
  rw [schedule_getElem? blk (n := t - 16 + 1) (by omega) (by omega), scheduleUpTo, extendSchedule_succ,
    show t - 16 + 1 + 15 - t = 0 by omega]
  rfl

theorem scheduleUpTo_getD (blk : List Byte) {t k : Nat} (h16 : 16 ≤ t) (h80 : t < 80) (hk : k < 16) :
    (scheduleUpTo blk (t - 16)).getD k 0 = (schedule blk).getD (t - (k + 1)) 0 := by
  rw [List.getD_eq_getElem?_getD, List.getD_eq_getElem?_getD, schedule_getElem? blk (n := t - 16) (by omega) (by omega),
    show t - 16 + 15 - (t - (k + 1)) = k by omega]

/-- Settles O29: the rounds are `workingVars`, the schedule `schedule_blockWord` and `schedule_nextWord`. -/
theorem messageScheduleRecurrence : Obligations.MessageScheduleRecurrence := by
  refine ⟨rfl, fun blk => ⟨fun h => ⟨workingVars h blk, rfl, ?_, compress_eq h (schedule_length blk)⟩,
    schedule_length blk, fun t ht => ?_, fun t h16 h80 => ?_⟩⟩
  · rintro t f k ht rfl rfl
    exact workingVars_succ h (by rwa [schedule_length])
  · rw [schedule_blockWord blk ht, blockWord, be32_eq]
    rfl
  · refine ⟨_, rfl, ?_⟩
    rw [schedule_nextWord blk h16 h80, nextWord, scheduleUpTo_getD blk h16 h80 (by decide),
      scheduleUpTo_getD blk h16 h80 (by decide), scheduleUpTo_getD blk h16 h80 (by decide),
      scheduleUpTo_getD blk h16 h80 (by decide)]
    rfl

/-! ### Whole blocks -/

/-- `compress` over the whole blocks at the head of `p`, starting from `h` (43_sha1.md R162). -/
def hashBlocks (h : Chain) (p : List Byte) : Chain := (blocks64 (p.length / 64) p).foldl compress h

/-- `sha1` in these terms (R162). -/
theorem sha1_eq (m : List Byte) : sha1 m = digestBytes (hashBlocks shaIV (shaPadded m)) := rfl

theorem hashBlocks_block (h : Chain) {p : List Byte} (hp : p.length = 64) : hashBlocks h p = compress h p := by
  rw [hashBlocks, hp]
  exact congrArg (compress h) (List.take_of_length_le hp.le)

theorem blocks64_append {k : Nat} {p : List Byte} (hp : p.length = 64 * k) (j : Nat) (q : List Byte) :
    blocks64 (k + j) (p ++ q) = blocks64 k p ++ blocks64 j q := by
  induction k generalizing p with
  | zero =>
    obtain rfl := List.eq_nil_of_length_eq_zero hp
    rw [Nat.zero_add, List.nil_append, blocks64, List.nil_append]
  | succ k ih =>
    have hdrop : (p.drop 64).length = 64 * k := by rw [List.length_drop]; omega
    rw [Nat.add_right_comm, blocks64, blocks64, List.take_append_of_le_length (by omega),
      List.drop_append_of_le_length (by omega), ih hdrop, List.cons_append]

/-- Whole blocks are compressed before what follows them. -/
theorem hashBlocks_append (h : Chain) {p : List Byte} (hp : p.length % 64 = 0) (q : List Byte) :
    hashBlocks h (p ++ q) = hashBlocks (hashBlocks h p) q := by
  have hcount : (p ++ q).length / 64 = p.length / 64 + q.length / 64 := by rw [List.length_append]; omega
  rw [hashBlocks, hcount, blocks64_append (by omega), List.foldl_append, hashBlocks, hashBlocks]

/-! ### The unit as a stream -/

/-- The unit was fed the bytes `full ++ tail` since `H` was `h`: the whole blocks `full` are compressed and `tail` fills
the head of `BLK` (R163, R164). -/
structure Buffered (h : Chain) (full tail : List Byte) (u : ShaUnit) : Prop where
  full_blocks : full.length % 64 = 0
  tail_lt : tail.length < 64
  bfill_eq : u.bfill.toNat = tail.length
  blk_eq : u.blk.toList.take tail.length = tail
  h_eq : u.h = hashBlocks h full

/-- The unit was fed the bytes `p` since `H` was `h`. -/
def Streamed (h : Chain) (p : List Byte) (u : ShaUnit) : Prop :=
  ∃ full tail, p = full ++ tail ∧ Buffered h full tail u

/-- After the init nothing is fed (R163). -/
theorem streamed_shaInit (u : ShaUnit) : Streamed shaIV [] (shaInit u) :=
  ⟨[], [], rfl, rfl, Nat.zero_lt_succ _, rfl, rfl, rfl⟩

theorem length_take_blk {u : ShaUnit} (hu : u.bfill.toNat < 64) :
    (u.blk.toList.take u.bfill.toNat).length = u.bfill.toNat :=
  List.length_take_of_le (by simpa using hu.le)

/-- Any unit with room in its block was fed the bytes standing in it. -/
theorem streamed_blk {u : ShaUnit} (hu : u.bfill.toNat < 64) :
    Streamed u.h (u.blk.toList.take u.bfill.toNat) u := by
  have hlen := length_take_blk hu
  exact ⟨[], _, rfl, rfl, by omega, hlen.symm, by rw [hlen], rfl⟩

/-- `BFILL` counts the bytes fed modulo 64. -/
theorem bfill_of_streamed {h : Chain} {p : List Byte} {u : ShaUnit} (hs : Streamed h p u) :
    u.bfill.toNat = p.length % 64 := by
  obtain ⟨full, tail, rfl, hfull, htail, hfill, -, -⟩ := hs
  rw [hfill, List.length_append]
  omega

/-- Once whole blocks are fed, `H` is their compression. -/
theorem h_of_streamed {h : Chain} {p : List Byte} {u : ShaUnit} (hs : Streamed h p u) (hp : p.length % 64 = 0) :
    u.h = hashBlocks h p := by
  obtain ⟨full, tail, rfl, hfull, hlt, -, -, hh⟩ := hs
  have htail : tail = [] := by
    apply List.eq_nil_of_length_eq_zero
    rw [List.length_append] at hp
    omega
  rw [htail, List.append_nil, hh]

theorem bfill_succ_toNat {n : BitVec 7} (hn : n.toNat < 64) : (n + 1).toNat = n.toNat + 1 :=
  (BitVec.toNat_add n 1).trans (Nat.mod_eq_of_lt (by omega : n.toNat + 1 < 2 ^ 7))

/-- A byte that leaves room in the block: it goes to `BLK` and `BFILL` counts it (R164, R168). -/
theorem shaPad_room (b : Byte) {u : ShaUnit} (hu : u.bfill.toNat < 63) :
    shaPad b u = { u with blk := u.blk.setIfInBounds u.bfill.toNat b, bfill := u.bfill + 1 } := by
  have hnext := bfill_succ_toNat (hu.trans (by decide))
  rw [shaPad, if_neg]
  intro h64
  rw [h64, show (64 : BitVec 7).toNat = 64 from rfl] at hnext
  omega

/-- The byte that fills the block: compression in the same step (R164, R168). -/
theorem shaPad_full (b : Byte) {u : ShaUnit} (hu : u.bfill = 63) :
    shaPad b u = { u with
      h := compress u.h (u.blk.setIfInBounds u.bfill.toNat b).toList,
      blk := u.blk.setIfInBounds u.bfill.toNat b, bfill := 0 } := by
  rw [shaPad, if_pos]
  rw [hu]
  rfl

/-- The head of a block buffer, one byte on. -/
theorem take_setIfInBounds (v : Vector Byte 64) {n : Nat} (b : Byte) (hn : n < 64) :
    (v.setIfInBounds n b).toList.take (n + 1) = v.toList.take n ++ [b] := by
  rw [Vector.toList_setIfInBounds, List.take_succ_eq_append_getElem (by simpa using hn), List.take_set_of_le le_rfl,
    List.getElem_set_self]

/-- One more byte fed. -/
theorem streamed_shaPad {h : Chain} {p : List Byte} {u : ShaUnit} (b : Byte) (hs : Streamed h p u) :
    Streamed h (p ++ [b]) (shaPad b u) := by
  obtain ⟨full, tail, rfl, hfull, htail, hfill, hblk, hh⟩ := hs
  have hnew : (u.blk.setIfInBounds u.bfill.toNat b).toList.take (tail ++ [b]).length = tail ++ [b] := by
    rw [List.length_append, List.length_singleton, hfill, take_setIfInBounds _ _ htail, hblk]
  rw [List.append_assoc]
  by_cases hlast : tail.length = 63
  · have hblock : (tail ++ [b]).length = 64 := by rw [List.length_append, hlast]; rfl
    rw [hblock, List.take_of_length_le (by simp)] at hnew
    rw [shaPad_full b (BitVec.eq_of_toNat_eq (hfill.trans hlast)), hnew, hh, ← hashBlocks_block _ hblock,
      ← hashBlocks_append h hfull]
    refine ⟨full ++ (tail ++ [b]), [], (List.append_nil _).symm, ?_, Nat.zero_lt_succ _, rfl, rfl, rfl⟩
    rw [List.length_append, hblock]
    omega
  · rw [shaPad_room b (by omega)]
    refine ⟨full, tail ++ [b], rfl, hfull, ?_, ?_, hnew, hh⟩
    · rw [List.length_append, List.length_singleton]
      omega
    · rw [List.length_append, List.length_singleton, ← hfill]
      exact bfill_succ_toNat (by omega)

theorem streamed_shaPadAll {h : Chain} {p : List Byte} {u : ShaUnit} (bs : List Byte) (hs : Streamed h p u) :
    Streamed h (p ++ bs) (shaPadAll bs u) := by
  induction bs generalizing p u with
  | nil => rwa [List.append_nil]
  | cons b bs ih =>
    rw [List.append_cons]
    exact ih (streamed_shaPad b hs)

/-- `MLEN` is no part of the stream. -/
theorem streamed_absorb {h : Chain} {p : List Byte} {u : ShaUnit} (b : Byte) (hs : Streamed h p u) :
    Streamed h (p ++ [b]) (absorb b u) := by
  obtain ⟨full, tail, hp, hfull, htail, hfill, hblk, hh⟩ := streamed_shaPad b hs
  exact ⟨full, tail, hp, hfull, htail, hfill, hblk, hh⟩

theorem streamed_absorbAll {h : Chain} {p : List Byte} {u : ShaUnit} (bs : List Byte) (hs : Streamed h p u) :
    Streamed h (p ++ bs) (absorbAll bs u) := by
  induction bs generalizing p u with
  | nil => rwa [List.append_nil]
  | cons b bs ih =>
    rw [List.append_cons]
    exact ih (streamed_absorb b hs)

/-! ### The steps of `SHA1` and `ACCEPT` -/

/-- A transition of the running `SHA1` is what executing it does, whatever its operands (R72). -/
theorem execSha1_of_busyStep {len key : W32} {p : Phase} {s t : State} (hr : Running 0x04 p s)
    (hp : p ∈ phasesOf 0x04) (h : BusyStep s t) : exec (.sha1 len key) s = .next t :=
  exec_of_busyStep (decodeWord_cmdWord 0x04 len key) hr hp h

/-- The same for `ACCEPT`. -/
theorem execAccept_of_busyStep {len key : W32} {p : Phase} {s t : State} (hr : Running 0x06 p s)
    (hp : p ∈ phasesOf 0x06) (h : BusyStep s t) : exec (.accept len key) s = .next t :=
  exec_of_busyStep (decodeWord_cmdWord 0x06 len key) hr hp h

/-- `absorb` field by field (R164). -/
theorem absorb_eq (b : Byte) {u : ShaUnit} (hu : u.bfill.toNat < 64) :
    absorb b u =
      if u.bfill = 63 then
        { h := compress u.h (u.blk.setIfInBounds u.bfill.toNat b).toList,
          blk := u.blk.setIfInBounds u.bfill.toNat b, bfill := 0, mlen := u.mlen + 1 }
      else { h := u.h, blk := u.blk.setIfInBounds u.bfill.toNat b, bfill := u.bfill + 1, mlen := u.mlen + 1 } := by
  split_ifs with h63
  · rw [absorb, shaPad_full b h63]
  · have hne : u.bfill.toNat ≠ 63 := fun h => h63 (BitVec.eq_of_toNat_eq h)
    rw [absorb, shaPad_room b (by omega)]

/-- Settles O31: the absorbing transitions, their unit read by `absorb_eq`. -/
theorem absorbFillsTheBlock : Obligations.AbsorbFillsTheBlock := by
  intro len key s b rest blk u hfill hblk hu hi hq
  subst hblk hu
  rw [← absorb_eq b hfill]
  refine ⟨fun hr => ?_, fun hr => ?_⟩ <;> have ⟨_, ho, hp⟩ := hr
  · exact execSha1_of_busyStep hr (by decide) (.shaAbs b rest ho hp hi hq)
  · exact execAccept_of_busyStep hr (by decide) (.accTok b rest ho hp hi hq)

/-! ### `finish()` -/

theorem shaPadAll_append (bs cs : List Byte) (u : ShaUnit) :
    shaPadAll (bs ++ cs) u = shaPadAll cs (shaPadAll bs u) := by
  induction bs generalizing u with
  | nil => rfl
  | cons b bs ih => exact ih _

/-- The loop of R168 pads with the zeros that are missing to 56. -/
theorem padTo56_eq {fuel : Nat} {u : ShaUnit} (hu : u.bfill.toNat < 64) (hf : (120 - u.bfill.toNat) % 64 ≤ fuel) :
    padTo56 fuel u = shaPadAll (List.replicate ((120 - u.bfill.toNat) % 64) 0) u := by
  induction fuel generalizing u with
  | zero =>
    rw [Nat.le_zero.mp hf]
    rfl
  | succ fuel ih =>
    rw [padTo56]
    split_ifs with h56
    · rw [h56]
      rfl
    · have hne : u.bfill.toNat ≠ 56 := fun h => h56 (BitVec.eq_of_toNat_eq h)
      have hnext := shaPad_bfill 0 hu
      have hone : (120 - u.bfill.toNat) % 64 = (120 - (shaPad 0 u).bfill.toNat) % 64 + 1 := by omega
      rw [ih (by omega) (by omega), hone]
      rfl

/-- The bytes `finish()` pads with (R168). -/
def finishBytes (fill : Nat) (mlen : W64) : List Byte :=
  [0x80] ++ List.replicate (shaZeros fill) 0 ++ be64 (8 * mlen)

/-- `finish()` is a run of `pad` over `finishBytes`. -/
theorem shaFinish_eq {u : ShaUnit} (hu : u.bfill.toNat < 64) :
    shaFinish u = shaPadAll (finishBytes u.bfill.toNat u.mlen) u := by
  have hnext := shaPad_bfill 0x80 hu
  have hzeros : (120 - (shaPad 0x80 u).bfill.toNat) % 64 = shaZeros u.bfill.toNat := by
    rw [shaZeros, hnext]
    omega
  rw [shaFinish, padTo56_eq (by omega) (by omega), hzeros, finishBytes, shaPadAll_append, shaPadAll_append]
  rfl

/-- After `finish()`, `H` is the compression of the bytes fed and of those it pads with. -/
theorem shaFinish_h {h : Chain} {p : List Byte} {u : ShaUnit} (hs : Streamed h p u) :
    (shaFinish u).h = hashBlocks h (p ++ finishBytes u.bfill.toNat u.mlen) := by
  have hfill := bfill_of_streamed hs
  have hlt : u.bfill.toNat < 64 := by omega
  rw [shaFinish_eq hlt]
  refine h_of_streamed (streamed_shaPadAll _ hs) ?_
  have hzeros := shaZeros_fills u.bfill.toNat
  simp only [finishBytes, List.length_append, List.length_singleton, List.length_replicate, be64_length]
  omega

/-- The bytes that `finish()` pads a message with are those of R87. -/
theorem append_finishBytes (m : List Byte) :
    m ++ finishBytes (m.length % 64) (BitVec.ofNat 64 m.length) = shaPadded m := by
  have hzeros : shaZeros (m.length % 64) = shaZeros m.length := by rw [shaZeros, Nat.mod_mod, shaZeros]
  have hbits : 8 * BitVec.ofNat 64 m.length = BitVec.ofNat 64 (8 * m.length) := (BitVec.ofNat_mul 8 m.length).symm
  rw [finishBytes, hzeros, hbits, shaPadded_eq]
  simp only [List.append_assoc]

/-- The unit, initialised, fed a message and finished, holds its digest (R162). -/
theorem digestBytes_shaFinish (m : List Byte) (u : ShaUnit) :
    digestBytes (shaFinish (absorbAll m (shaInit u))).h = sha1 m := by
  have hs : Streamed shaIV m (absorbAll m (shaInit u)) := streamed_absorbAll m (streamed_shaInit u)
  have hmlen : (absorbAll m (shaInit u)).mlen = BitVec.ofNat 64 m.length := by
    rw [absorbAll_mlen, shaInit_mlen, zero_add]
  rw [shaFinish_h hs, bfill_of_streamed hs, hmlen, append_finishBytes, sha1_eq]

/-- With room for the length after the 0x80, one block is compressed (R168). -/
theorem shaFinish_h_one {u : ShaUnit} (h55 : u.bfill.toNat ≤ 55) :
    (shaFinish u).h = compress u.h
      (u.blk.toList.take u.bfill.toNat ++ [0x80] ++ List.replicate (55 - u.bfill.toNat) 0 ++ be64 (8 * u.mlen)) := by
  have hlt : u.bfill.toNat < 64 := by omega
  have hzeros : shaZeros u.bfill.toNat = 55 - u.bfill.toNat := by rw [shaZeros]; omega
  rw [shaFinish_h (streamed_blk hlt), finishBytes, hzeros, ← List.append_assoc, ← List.append_assoc]
  refine hashBlocks_block _ ?_
  simp only [List.length_append, List.length_singleton, List.length_replicate, be64_length, length_take_blk hlt]
  omega

/-- With no room for the length, two blocks are: the second has the rest of the zeros and the length (R168). -/
theorem shaFinish_h_two {u : ShaUnit} (h56 : 56 ≤ u.bfill.toNat) (hlt : u.bfill.toNat < 64) :
    (shaFinish u).h = compress
      (compress u.h (u.blk.toList.take u.bfill.toNat ++ [0x80] ++ List.replicate (63 - u.bfill.toNat) 0))
      (List.replicate 56 0 ++ be64 (8 * u.mlen)) := by
  have hzeros : shaZeros u.bfill.toNat = 63 - u.bfill.toNat + 56 := by rw [shaZeros]; omega
  have hcut : u.blk.toList.take u.bfill.toNat ++ finishBytes u.bfill.toNat u.mlen =
      u.blk.toList.take u.bfill.toNat ++ [0x80] ++ List.replicate (63 - u.bfill.toNat) 0 ++
        (List.replicate 56 0 ++ be64 (8 * u.mlen)) := by
    rw [finishBytes, hzeros, List.replicate_add]
    simp only [List.append_assoc]
  have hfirst : (u.blk.toList.take u.bfill.toNat ++ [0x80] ++ List.replicate (63 - u.bfill.toNat) 0).length = 64 := by
    simp only [List.length_append, List.length_singleton, List.length_replicate, length_take_blk hlt]
    omega
  rw [shaFinish_h (streamed_blk hlt), hcut, hashBlocks_append _ (by rw [hfirst]), hashBlocks_block _ hfirst,
    hashBlocks_block _ rfl]

/-- Settles O32: the counters of `finish()`, its one or two blocks, and the transitions that run it. -/
theorem finishCompressesOneOrTwoBlocks : Obligations.FinishCompressesOneOrTwoBlocks := by
  rintro len key s _ _ u hfill rfl rfl hu
  rw [hu, ← be64_eq_map]
  refine ⟨shaFinish_bfill hfill, shaFinish_mlen _, shaFinish_h_one, fun h56 => shaFinish_h_two h56 hfill,
    fun hr => ?_, fun hr => ?_⟩ <;> have ⟨_, ho, hp⟩ := hr
  · exact execSha1_of_busyStep hr (by decide) (.shaFin ho hp)
  · exact execAccept_of_busyStep hr (by decide) (.accFin ho hp)

/-! ### The digest -/

/-- `H[i]` is entry `i` of the five words (10_state.md R34). -/
theorem chainWord_of_getElem? {h : Chain} {i : Nat} {w : W32} (hw : [h.h0, h.h1, h.h2, h.h3, h.h4][i]? = some w) :
    h.word i = w := by
  obtain ⟨hi, rfl⟩ := List.getElem?_eq_some_iff.mp hw
  replace hi : i < 5 := hi
  interval_cases i <;> rfl

/-- Settles O33: the transition of `S_OUT`, its byte read by `chainWord_of_getElem?`. -/
theorem digestLeavesHighByteFirst : Obligations.DigestLeavesHighByteFirst := by
  intro len key s w hr hlt hw
  have ⟨_, ho, hp⟩ := hr
  have hne : s.idx ≠ 20 := fun h20 => hlt.ne (congrArg BitVec.toNat h20)
  rw [← chainWord_of_getElem? hw]
  exact execSha1_of_busyStep hr (by decide) (.shaOut ho hp hne)

/-! ### The digest on the machine -/

/-- The state after `k` digest bytes, from a state `s` that is about to put out the first one (R172). -/
def digestingAt (s : State) (k : Nat) : State :=
  { s with
    idx := BitVec.ofNat 32 k, ocnt := s.ocnt + BitVec.ofNat 32 k, hout := s.hout ++ (digestBytes s.sha.h).take k }

theorem digestingAt_zero {s : State} (hidx : s.idx = 0) : digestingAt s 0 = s := by
  cases s
  subst hidx
  simp [digestingAt]

/-- A transition from `S_OUT` is the machine's step. -/
theorem step_digestingAt {s t : State} {k : Nat} (hsched : s.sched = []) (hr : Running 0x04 .sOut s)
    (h : BusyStep (digestingAt s k) t) : step (digestingAt s k) = .next t :=
  step_of_running hsched (op := 0x04) (p := .sOut) hr (by decide) h

/-- One digest byte is put out (R161, R172). -/
theorem step_digestingAt_lt {s : State} {k : Nat} (hsched : s.sched = []) (hr : Running 0x04 .sOut s) (hk : k < 20) :
    step (digestingAt s k) = .next (digestingAt s (k + 1)) := by
  have ⟨_, ho, hp⟩ := hr
  have hidx : (digestingAt s k).idx.toNat = k := Nat.mod_eq_of_lt (by omega : k < 2 ^ 32)
  have hne : (digestingAt s k).idx ≠ 20 := fun h20 => hk.ne (hidx.symm.trans (congrArg BitVec.toNat h20))
  have htake : (digestBytes s.sha.h).take (k + 1) = (digestBytes s.sha.h).take k ++ [digestByte s.sha.h k] := by
    rw [List.take_succ_eq_append_getElem (by simpa using hk)]
    simp [digestBytes]
  rw [step_digestingAt hsched hr (.shaOut ho hp hne), hidx]
  simp [digestingAt, htake, BitVec.ofNat_add, add_assoc]

theorem run_digestingAt {s : State} (hsched : s.sched = []) (hr : Running 0x04 .sOut s) (hidx : s.idx = 0) {k : Nat}
    (hk : k ≤ 20) : Host.Core.run core k s = .next (digestingAt s k) := by
  induction k with
  | zero => rw [digestingAt_zero hidx]; rfl
  | succ k ih => rw [run_add (ih (by omega)) 1, run_succ (step_digestingAt_lt hsched hr hk)]; rfl

/-- The 20 digest bytes, then the end of the command (R161, R172). -/
theorem run_digest {s : State} (hsched : s.sched = []) (hr : Running 0x04 .sOut s) (hidx : s.idx = 0) :
    Host.Core.run core 21 s = .next (complete { s with
      idx := 20, ocnt := s.ocnt + 20, hout := s.hout ++ digestBytes s.sha.h }) := by
  have ⟨_, ho, hp⟩ := hr
  rw [run_add (run_digestingAt hsched hr hidx le_rfl) 1, run_succ (step_digestingAt hsched hr (.shaDone ho hp rfl)),
    digestingAt, List.take_of_length_le (digestBytes_length _).le]
  rfl

@[simp] theorem sha1_length (m : List Byte) : (sha1 m).length = 20 := digestBytes_length _

/-! ### The message on the machine -/

theorem absorbAll_append (bs cs : List Byte) (u : ShaUnit) :
    absorbAll (bs ++ cs) u = absorbAll cs (absorbAll bs u) := by
  induction bs generalizing u with
  | nil => rfl
  | cons b bs ih => exact ih _

/-- The state of a `SHA1` in `S_ABS`: the block was ready in `s`, took the word `w` and absorbed the bytes `taken`;
`more` stands on `HIN`. -/
def hashingAt (w : W72) (rest : List W72) (s : State) (taken more : List Byte) : State :=
  { s with
    cmds := rest, op := 0x04, len := cmdLen w, idx := BitVec.ofNat 32 taken.length, ocnt := 0, state := .busy,
    phase := .sAbs, sha := absorbAll taken (shaInit s.sha), hin := { s.hin with queue := more } }

/-- The state after `finish()` of the message `taken` (R161, R168). -/
def finishedAt (w : W72) (rest : List W72) (s : State) (taken more : List Byte) : State :=
  { hashingAt w rest s taken more with
    sha := shaFinish (absorbAll taken (shaInit s.sha)), idx := 0, phase := .sOut }

section
variable {w : W72} {rest : List W72} {s : State} {taken more : List Byte}

/-- The accept step initialises the unit, and nothing is absorbed yet (R163). -/
theorem step_hashingAt_nil (h : Ready w rest s) (ho : cmdOp w = 0x04) :
    step s = .next (hashingAt w rest s [] s.hin.queue) := by
  rw [step_of_ready h, accepted, ho]
  rfl

/-- A transition from `S_ABS` is the machine's step. -/
theorem step_hashingAt {t : State} (hsched : s.sched = []) (h : BusyStep (hashingAt w rest s taken more) t) :
    step (hashingAt w rest s taken more) = .next t :=
  step_of_running (op := 0x04) (p := .sAbs) hsched ⟨rfl, rfl, rfl⟩ (by decide) h

/-- While bytes are due, `IDX` is not yet `LEN`. -/
theorem hashingAt_idx_ne (hdue : taken.length < (cmdLen w).toNat) :
    (hashingAt w rest s taken more).idx ≠ (hashingAt w rest s taken more).len := by
  intro heq
  have hidx : (BitVec.ofNat 32 taken.length).toNat = taken.length := Nat.mod_eq_of_lt (hdue.trans (cmdLen w).isLt)
  exact hdue.ne (hidx.symm.trans (congrArg BitVec.toNat heq))

/-- While bytes are due, `S_ABS` needs `HIN`. -/
theorem hashingAt_needsHin (hdue : taken.length < (cmdLen w).toNat) :
    needsHin (hashingAt w rest s taken more) = true :=
  bne_iff_ne.mpr (hashingAt_idx_ne hdue)

/-- One byte is absorbed (R164). -/
theorem step_hashingAt_cons {b : Byte} (hsched : s.sched = []) (hdue : taken.length < (cmdLen w).toNat) :
    step (hashingAt w rest s taken (b :: more)) = .next (hashingAt w rest s (taken ++ [b]) more) := by
  rw [step_hashingAt hsched (.shaAbs b more rfl rfl (hashingAt_idx_ne hdue) rfl)]
  simp [hashingAt, leaveHin, BitVec.ofNat_add, absorbAll_append, absorbAll]

/-- The run up to the bytes absorbed, from the ready block on (R161). -/
theorem run_hashingAt (h : Ready w rest s) (ho : cmdOp w = 0x04) (hq : s.hin.queue = taken ++ more)
    (hdue : taken.length ≤ (cmdLen w).toNat) :
    Host.Core.run core (taken.length + 1) s = .next (hashingAt w rest s taken more) := by
  have ⟨_, _, _, hsched⟩ := h
  rw [run_succ (step_hashingAt_nil h ho), hq]
  exact run_takesInput (step_hashingAt_cons hsched) (taken := []) (by simpa using hdue)

/-- From the last byte absorbed, the step that sees it and the step of `finish()`. -/
theorem run_finishedAt (hsched : s.sched = []) (hidx : BitVec.ofNat 32 taken.length = cmdLen w) :
    Host.Core.run core 2 (hashingAt w rest s taken more) = .next (finishedAt w rest s taken more) := by
  refine (run_succ (step_hashingAt hsched (.shaEnd rfl rfl hidx)) 1).trans ?_
  exact run_of_running (op := 0x04) (p := .sFin) hsched ⟨rfl, rfl, rfl⟩ (by decide) (.shaFin rfl rfl) rfl

/-- From the last byte absorbed to the end of the command: the digest is that of the message (R162). -/
theorem run_hashingAt_finish (hsched : s.sched = []) (hidx : BitVec.ofNat 32 taken.length = cmdLen w) :
    Host.Core.run core 23 (hashingAt w rest s taken more) = .next (complete { finishedAt w rest s taken more with
      idx := 20, ocnt := BitVec.ofNat 32 (sha1 taken).length, hout := s.hout ++ sha1 taken }) := by
  have hdigest : digestBytes (finishedAt w rest s taken more).sha.h = sha1 taken := digestBytes_shaFinish taken s.sha
  rw [run_add (run_finishedAt hsched hidx) 21,
    run_digest (s := finishedAt w rest s taken more) hsched ⟨rfl, rfl, rfl⟩ rfl, hdigest, sha1_length]
  rfl

end

/-- Settles O34: the cases of the big-step form, each with the end of its run; the digest is `digestBytes_shaFinish`. -/
theorem sha1MachineComputesSha1 : Obligations.Sha1MachineComputesSha1 := by
  intro s w rest hr ho
  have ⟨_, herr, _, hsched⟩ := hr
  unfold sha1Big hinBig
  split_ifs with hall hclosed
  · have hlen : (s.hin.queue.take (cmdLen w).toNat).length = (cmdLen w).toNat := List.length_take_of_le hall
    have hidx : BitVec.ofNat 32 (s.hin.queue.take (cmdLen w).toNat).length = cmdLen w := by
      rw [hlen, BitVec.ofNat_toNat, BitVec.setWidth_eq]
    have hrun := (run_add (run_hashingAt hr ho (List.take_append_drop _ _).symm hlen.le) 23).trans
      (run_hashingAt_finish hsched hidx)
    rw [hlen, Nat.add_right_comm] at hrun
    exact ⟨_, hrun, ⟨rfl, rfl, herr⟩, ⟨rfl, rfl, rfl, rfl⟩, rfl, rfl, fun _ => rfl⟩
  · have hdue := Nat.lt_of_not_le hall
    have hshort := step_hashingAt (rest := rest) hsched (.hinShort (hashingAt_needsHin hdue) rfl hclosed)
    have hrun := (run_add (run_hashingAt hr ho (List.append_nil _).symm hdue.le) 1).trans (run_succ hshort 0)
    exact ⟨_, hrun, ⟨rfl, rfl⟩,
      ⟨by rw [List.drop_length]; rfl, (List.append_nil _).symm, rfl, rfl⟩, rfl, rfl, nofun⟩
  · have hdue := Nat.lt_of_not_le hall
    have hhold := step_hashingAt (rest := rest) hsched
      (.hinHold (hashingAt_needsHin hdue) rfl (eq_false_of_ne_true hclosed))
    exact ⟨_, run_hashingAt hr ho (List.append_nil _).symm hdue.le, ⟨rfl, herr, hhold⟩,
      ⟨by rw [List.drop_length]; rfl, (List.append_nil _).symm, rfl, rfl⟩, rfl, rfl, nofun⟩

end Sys2Proof.Machine

/-! PROOFS. The statements about the base64 encoder (44_base64.md). The unit is told by the bytes fed to it since its
init: `b64FeedAll_out` says that the characters put out so far are those of the whole groups, and
`b64FeedAll_append_tail` that with the tail they are `b64`. A run of `B64` from a ready block is the accept step, one
step for each byte, the step that finds the count reached and the step of the tail; `groupingAt` names the states in
which it takes bytes. -/

namespace Sys2Proof.Machine

/-! ### One byte and one group -/

theorem b64Feed_of_gfill_zero (b : Byte) {u : B64Unit} (h : u.gfill = 0) :
    b64Feed b u = ({ u with g0 := b, gfill := 1 }, []) := by
  simp [b64Feed, b64Put, h]

theorem b64Feed_of_gfill_one (b : Byte) {u : B64Unit} (h : u.gfill = 1) :
    b64Feed b u = ({ u with g1 := b, gfill := 2 }, []) := by
  simp [b64Feed, b64Put, h]

theorem b64Feed_of_gfill_two (b : Byte) {u : B64Unit} (h : u.gfill = 2) :
    b64Feed b u = ({ u with g2 := b, gfill := 0 }, groupChars u.g0 u.g1 b) := by
  simp [b64Feed, b64Put, h]

/-- `group24` as shifts and ORs, bit by bit: each bit lies in one byte and is clear in the other shifted ones (R193). -/
theorem group24_eq (g0 g1 g2 : Byte) :
    group24 g0 g1 g2 = (g0.setWidth 24 <<< 16) ||| (g1.setWidth 24 <<< 8) ||| g2.setWidth 24 := by
  apply BitVec.eq_of_getLsbD_eq
  intro i hi
  simp only [group24, BitVec.getLsbD_append, BitVec.getLsbD_or, BitVec.getLsbD_shiftLeft, BitVec.getLsbD_setWidth]
  grind

/-- The value of a tail of two bytes: the third byte's bits are 0 (R195). -/
theorem group24_two (g0 g1 : Byte) : group24 g0 g1 0 = (g0.setWidth 24 <<< 16) ||| (g1.setWidth 24 <<< 8) := by
  rw [group24_eq]
  exact BitVec.or_zero

/-- The value of a tail of one byte (R195). -/
theorem group24_one (g0 : Byte) : group24 g0 0 0 = g0.setWidth 24 <<< 16 := by
  rw [group24_two]
  exact BitVec.or_zero

/-! ### The steps of `B64` -/

/-- A transition of the running `B64` is what executing it does, whatever its operands (R72). -/
theorem execB64_of_busyStep {len key : W32} {p : Phase} {s t : State} (hr : Running 0x05 p s)
    (hp : p ∈ phasesOf 0x05) (h : BusyStep s t) : exec (.b64 len key) s = .next t :=
  exec_of_busyStep (decodeWord_cmdWord 0x05 len key) hr hp h

/-- Settles O35: the transition of `B_ABS`, its unit and characters read by `b64Feed` for each `GFILL`. -/
theorem thirdByteEmitsTheGroup : Obligations.ThirdByteEmitsTheGroup := by
  intro len key s b rest hr hi hq
  have ⟨_, ho, hp⟩ := hr
  have hexec : exec (.b64 len key) s = .next _ :=
    execB64_of_busyStep hr (by decide) (.b64Abs b rest ho hp hi hq)
  rw [hexec]
  refine ⟨fun h0 => ?_, fun h1 => ?_, ?_⟩
  · simp [b64Feed_of_gfill_zero b h0, leaveHin]
  · simp [b64Feed_of_gfill_one b h1, leaveHin]
  · rintro h2 _ rfl
    rw [b64Feed_of_gfill_two b h2, ← group24_eq]
    rfl

/-- Settles O36: the transition of `B_FIN`, its characters read by `b64Tail` for each `GFILL`. -/
theorem tailIsPaddedAndCompletes : Obligations.TailIsPaddedAndCompletes := by
  intro len key s hr
  have ⟨_, ho, hp⟩ := hr
  have hexec : exec (.b64 len key) s = .next _ := execB64_of_busyStep hr (by decide) (.b64Fin ho hp)
  rw [hexec, b64Tail]
  refine ⟨fun h0 => ?_, ?_, ?_⟩
  · simp [h0]
  · rintro h1 _ rfl
    rw [h1, ← group24_one]
    rfl
  · rintro h2 _ rfl
    rw [h2, ← group24_two]
    rfl

/-! ### The characters of a byte sequence -/

/-- Four characters for each group and for the tail (R194). -/
@[simp] theorem b64_length (d : List Byte) : (b64 d).length = 4 * ((d.length + 2) / 3) := by
  induction d using b64.induct with
  | case1 => rfl
  | case2 | case3 => simp [b64]
  | case4 a b c rest ih =>
    simp only [b64, List.length_append, groupChars_length, ih, List.length_cons]
    omega

/-- Settles O38: `b64_length`, at 20 bytes for the digest. -/
theorem base64OutputLength : Obligations.Base64OutputLength :=
  fun d => ⟨b64_length d, fun h20 => by rw [b64_length, h20]⟩

theorem b64FeedAll_concat (bs : List Byte) (b : Byte) (u : B64Unit) :
    b64FeedAll (bs ++ [b]) u =
      ((b64Feed b (b64FeedAll bs u).1).1, (b64FeedAll bs u).2 ++ (b64Feed b (b64FeedAll bs u).1).2) := by
  induction bs generalizing u with
  | nil => simp [b64FeedAll]
  | cons c bs ih => simp [b64FeedAll, ih]

/-- A whole group leaves the unit empty again (R191, R193). -/
theorem b64FeedAll_group (a b c : Byte) (rest : List Byte) {u : B64Unit} (hu : u.gfill = 0) :
    b64FeedAll (a :: b :: c :: rest) u =
      ((b64FeedAll rest { g0 := a, g1 := b, g2 := c, gfill := 0 }).1,
        groupChars a b c ++ (b64FeedAll rest { g0 := a, g1 := b, g2 := c, gfill := 0 }).2) := by
  simp only [b64FeedAll, b64Feed_of_gfill_zero a hu]
  rfl

/-- An empty unit, fed a byte sequence, puts out the characters of its whole groups (R193). -/
theorem b64FeedAll_out (d : List Byte) {u : B64Unit} (hu : u.gfill = 0) :
    (b64FeedAll d u).2 = b64 (d.take (3 * (d.length / 3))) := by
  induction d using b64.induct generalizing u with
  | case1 => rfl
  | case2 a => simp [b64FeedAll, b64Feed_of_gfill_zero a hu, b64]
  | case3 a b => simp [b64FeedAll, b64Feed_of_gfill_zero a hu, b64Feed_of_gfill_one, b64]
  | case4 a b c rest ih =>
    have hcount : 3 * ((a :: b :: c :: rest).length / 3) = 3 * (rest.length / 3) + 3 := by
      simp only [List.length_cons]
      omega
    rw [b64FeedAll_group a b c rest hu, hcount, List.take_succ_cons, List.take_succ_cons, List.take_succ_cons, b64,
      ih rfl]

/-- With the tail, they are the characters of the whole sequence (R195, R196). -/
theorem b64FeedAll_append_tail (d : List Byte) {u : B64Unit} (hu : u.gfill = 0) :
    (b64FeedAll d u).2 ++ b64Tail (b64FeedAll d u).1 = b64 d := by
  induction d using b64.induct generalizing u with
  | case1 => simp [b64FeedAll, b64Tail, b64, hu]
  | case2 a => simp [b64FeedAll, b64Feed_of_gfill_zero a hu, b64Tail, b64]
  | case3 a b => simp [b64FeedAll, b64Feed_of_gfill_zero a hu, b64Feed_of_gfill_one, b64Tail, b64]
  | case4 a b c rest ih => rw [b64FeedAll_group a b c rest hu, List.append_assoc, ih rfl, b64]

/-! ### The byte sequence on the machine -/

/-- A count below `LEN` is not `LEN` in 32 bits. -/
theorem ofNat_ne_of_lt {n : Nat} {len : W32} (h : n < len.toNat) : BitVec.ofNat 32 n ≠ len := by
  rintro rfl
  exact absurd h (Nat.mod_le n (2 ^ 32)).not_gt

/-- The state of a `B64` in `B_ABS`: the block was ready in `s`, took the word `w` and absorbed the bytes `taken`;
`more` stands on `HIN`. -/
def groupingAt (w : W72) (rest : List W72) (s : State) (taken more : List Byte) : State :=
  { s with
    cmds := rest, op := 0x05, len := cmdLen w, idx := BitVec.ofNat 32 taken.length,
    ocnt := BitVec.ofNat 32 (b64FeedAll taken (b64Init s.b64)).2.length, state := .busy, phase := .bAbs,
    b64 := (b64FeedAll taken (b64Init s.b64)).1, hin := { s.hin with queue := more },
    hout := s.hout ++ (b64FeedAll taken (b64Init s.b64)).2 }

section
variable {w : W72} {rest : List W72} {s : State} {taken more : List Byte}

/-- The accept step empties the unit, and nothing is absorbed yet (R192). -/
theorem step_groupingAt_nil (h : Ready w rest s) (ho : cmdOp w = 0x05) :
    step s = .next (groupingAt w rest s [] s.hin.queue) := by
  rw [step_of_ready h, accepted, ho, groupingAt, b64FeedAll, List.append_nil]
  rfl

/-- A transition from `B_ABS` is the machine's step. -/
theorem step_groupingAt {t : State} (hsched : s.sched = []) (h : BusyStep (groupingAt w rest s taken more) t) :
    step (groupingAt w rest s taken more) = .next t :=
  step_of_running (op := 0x05) (p := .bAbs) hsched ⟨rfl, rfl, rfl⟩ (by decide) h

/-- While bytes are due, `IDX` is not yet `LEN`. -/
theorem groupingAt_idx_ne (hdue : taken.length < (cmdLen w).toNat) :
    (groupingAt w rest s taken more).idx ≠ (groupingAt w rest s taken more).len :=
  ofNat_ne_of_lt hdue

/-- While bytes are due, `B_ABS` needs `HIN`. -/
theorem groupingAt_needsHin (hdue : taken.length < (cmdLen w).toNat) :
    needsHin (groupingAt w rest s taken more) = true :=
  bne_iff_ne.mpr (groupingAt_idx_ne hdue)

/-- One byte is absorbed, with the characters it puts out (R191, R193). -/
theorem step_groupingAt_cons {b : Byte} (hsched : s.sched = []) (hdue : taken.length < (cmdLen w).toNat) :
    step (groupingAt w rest s taken (b :: more)) = .next (groupingAt w rest s (taken ++ [b]) more) := by
  rw [step_groupingAt hsched (.b64Abs b more rfl rfl (groupingAt_idx_ne hdue) rfl)]
  simp [groupingAt, leaveHin, BitVec.ofNat_add, b64FeedAll_concat]

/-- The run up to the bytes absorbed, from the ready block on (R191). -/
theorem run_groupingAt (h : Ready w rest s) (ho : cmdOp w = 0x05) (hq : s.hin.queue = taken ++ more)
    (hdue : taken.length ≤ (cmdLen w).toNat) :
    Host.Core.run core (taken.length + 1) s = .next (groupingAt w rest s taken more) := by
  have ⟨_, _, _, hsched⟩ := h
  rw [run_succ (step_groupingAt_nil h ho), hq]
  exact run_takesInput (step_groupingAt_cons hsched) (taken := []) (by simpa using hdue)

/-- From the last byte absorbed, the step that sees it and the step of the tail (R195, R196). -/
theorem run_groupingAt_finish (hsched : s.sched = []) (hidx : BitVec.ofNat 32 taken.length = cmdLen w) :
    Host.Core.run core 2 (groupingAt w rest s taken more) = .next (complete { groupingAt w rest s taken more with
      ocnt := BitVec.ofNat 32 (b64 taken).length, hout := s.hout ++ b64 taken }) := by
  rw [run_succ (step_groupingAt hsched (.b64End rfl rfl hidx)) 1]
  refine run_of_running (op := 0x05) (p := .bFin) hsched ⟨rfl, rfl, rfl⟩ (by decide) (.b64Fin rfl rfl) ?_
  rw [← b64FeedAll_append_tail taken (b64Init_gfill s.b64)]
  simp [groupingAt, complete, Host.Core.run, BitVec.ofNat_add]

end

/-- Settles O37: the cases of the big-step form, each with the end of its run; the characters are those of
`b64FeedAll_append_tail` on completion and of `b64FeedAll_out` on a short input. -/
theorem b64MachineComputesB64 : Obligations.B64MachineComputesB64 := by
  intro s w rest hr ho
  have ⟨_, herr, _, hsched⟩ := hr
  unfold b64Big hinBig
  rw [← b64FeedAll_out s.hin.queue (b64Init_gfill s.b64)]
  split_ifs with hall hclosed
  · have hlen : (s.hin.queue.take (cmdLen w).toNat).length = (cmdLen w).toNat := List.length_take_of_le hall
    have hidx : BitVec.ofNat 32 (s.hin.queue.take (cmdLen w).toNat).length = cmdLen w := by
      rw [hlen, BitVec.ofNat_toNat, BitVec.setWidth_eq]
    have hrun := (run_add (run_groupingAt hr ho (List.take_append_drop _ _).symm hlen.le) 2).trans
      (run_groupingAt_finish hsched hidx)
    rw [hlen, Nat.add_right_comm] at hrun
    exact ⟨_, hrun, ⟨rfl, rfl, herr⟩, ⟨rfl, rfl, rfl, rfl⟩, rfl, rfl, fun _ => hidx⟩
  · have hdue := Nat.lt_of_not_le hall
    have hshort := step_groupingAt (rest := rest) hsched (.hinShort (groupingAt_needsHin hdue) rfl hclosed)
    have hrun := (run_add (run_groupingAt hr ho (List.append_nil _).symm hdue.le) 1).trans (run_succ hshort 0)
    exact ⟨_, hrun, ⟨rfl, rfl⟩,
      ⟨by rw [List.drop_length]; rfl, rfl, rfl, rfl⟩, rfl, rfl, nofun⟩
  · have hdue := Nat.lt_of_not_le hall
    have hhold := step_groupingAt (rest := rest) hsched
      (.hinHold (groupingAt_needsHin hdue) rfl (eq_false_of_ne_true hclosed))
    exact ⟨_, run_groupingAt hr ho (List.append_nil _).symm hdue.le, ⟨rfl, herr, hhold⟩,
      ⟨by rw [List.drop_length]; rfl, rfl, rfl, rfl⟩, rfl, rfl, nofun⟩

end Sys2Proof.Machine

/-! PROOFS. The statement about the handshake key derivation (45_accept.md). A run of `ACCEPT` from a ready block is the
accept step, one step for each token byte, and the four steps after the last one; `derivingAt` names the states in which
it takes bytes. The constant is absorbed as if it had followed the token on `HIN`, so the digest is
`digestBytes_shaFinish` of token and constant, and the output step puts out `b64FeedAll_append_tail` of that digest. -/

namespace Sys2Proof.Machine

/-! ### The token on the machine -/

/-- The state of an `ACCEPT` in `A_TOK`: the block was ready in `s`, took the word `w` and absorbed the bytes `taken`;
`more` stands on `HIN`. -/
def derivingAt (w : W72) (rest : List W72) (s : State) (taken more : List Byte) : State :=
  { s with
    cmds := rest, op := 0x06, len := cmdLen w, idx := BitVec.ofNat 32 taken.length, ocnt := 0, state := .busy,
    phase := .aTok, sha := absorbAll taken (shaInit s.sha), hin := { s.hin with queue := more } }

/-- The state after `finish()` of the token `taken` and the constant (R206, R209). -/
def derivedAt (w : W72) (rest : List W72) (s : State) (taken more : List Byte) : State :=
  { derivingAt w rest s taken more with
    sha := shaFinish (absorbAll guid (absorbAll taken (shaInit s.sha))), phase := .aOut }

section
variable {w : W72} {rest : List W72} {s : State} {taken more : List Byte}

/-- The accept step initialises the SHA-1 unit, and nothing is absorbed yet (R206). -/
theorem step_derivingAt_nil (h : Ready w rest s) (ho : cmdOp w = 0x06) :
    step s = .next (derivingAt w rest s [] s.hin.queue) := by
  rw [step_of_ready h, accepted, ho]
  rfl

/-- A transition from `A_TOK` is the machine's step. -/
theorem step_derivingAt {t : State} (hsched : s.sched = []) (h : BusyStep (derivingAt w rest s taken more) t) :
    step (derivingAt w rest s taken more) = .next t :=
  step_of_running (op := 0x06) (p := .aTok) hsched ⟨rfl, rfl, rfl⟩ (by decide) h

/-- While bytes are due, `A_TOK` needs `HIN`. -/
theorem derivingAt_needsHin (hdue : taken.length < (cmdLen w).toNat) :
    needsHin (derivingAt w rest s taken more) = true :=
  bne_iff_ne.mpr (ofNat_ne_of_lt hdue)

/-- One token byte is absorbed (R206). -/
theorem step_derivingAt_cons {b : Byte} (hsched : s.sched = []) (hdue : taken.length < (cmdLen w).toNat) :
    step (derivingAt w rest s taken (b :: more)) = .next (derivingAt w rest s (taken ++ [b]) more) := by
  rw [step_derivingAt hsched (.accTok b more rfl rfl (ofNat_ne_of_lt hdue) rfl)]
  simp [derivingAt, leaveHin, BitVec.ofNat_add, absorbAll_append, absorbAll]

/-- The run up to the token bytes absorbed, from the ready block on (R206). -/
theorem run_derivingAt (h : Ready w rest s) (ho : cmdOp w = 0x06) (hq : s.hin.queue = taken ++ more)
    (hdue : taken.length ≤ (cmdLen w).toNat) :
    Host.Core.run core (taken.length + 1) s = .next (derivingAt w rest s taken more) := by
  have ⟨_, _, _, hsched⟩ := h
  rw [run_succ (step_derivingAt_nil h ho), hq]
  exact run_takesInput (step_derivingAt_cons hsched) (taken := []) (by simpa using hdue)

/-- From the last token byte on: the step that sees it, the constant, and `finish()` (R206). -/
theorem run_derivedAt (hsched : s.sched = []) (hidx : BitVec.ofNat 32 taken.length = cmdLen w) :
    Host.Core.run core 3 (derivingAt w rest s taken more) = .next (derivedAt w rest s taken more) := by
  refine (run_succ (step_derivingAt hsched (.accEnd rfl rfl hidx)) 2).trans ?_
  refine run_of_running (op := 0x06) (p := .aGuid) hsched ⟨rfl, rfl, rfl⟩ (by decide) (.accGuid rfl rfl) ?_
  exact run_of_running (op := 0x06) (p := .aFin) hsched ⟨rfl, rfl, rfl⟩ (by decide) (.accFin rfl rfl) rfl

/-- The digest is that of the token and then the constant, with nothing between (R207, R209). -/
theorem digestBytes_derivedAt : digestBytes (derivedAt w rest s taken more).sha.h = sha1 (taken ++ guid) := by
  rw [← digestBytes_shaFinish (taken ++ guid) s.sha, absorbAll_append]
  rfl

/-- From the last token byte to the end of the command: the characters are those of `acceptToken` (R207). -/
theorem run_derivingAt_finish (hsched : s.sched = []) (hidx : BitVec.ofNat 32 taken.length = cmdLen w) :
    Host.Core.run core 4 (derivingAt w rest s taken more) = .next (complete { derivedAt w rest s taken more with
      b64 := (b64FeedAll (sha1 (taken ++ guid)) (b64Init s.b64)).1,
      ocnt := BitVec.ofNat 32 (acceptToken taken).length, hout := s.hout ++ acceptToken taken }) := by
  rw [run_add (run_derivedAt hsched hidx) 1]
  refine run_of_running (op := 0x06) (p := .aOut) hsched ⟨rfl, rfl, rfl⟩ (by decide) (.accOut _ _ rfl rfl rfl rfl) ?_
  rw [digestBytes_derivedAt, b64FeedAll_append_tail _ (b64Init_gfill _)]
  simp [derivedAt, derivingAt, complete, acceptToken, Host.Core.run]

end

/-! ### The big-step form -/

/-- With the token supplied, the big-step form completes with the token's characters (R207, R212). -/
theorem acceptBig_of_supplied {n : W32} {p : List Byte} (closed : Bool) (h : n.toNat ≤ p.length) :
    acceptBig n closed p = { ending := .ok, taken := n.toNat, out := acceptToken (p.take n.toNat), steps := n.toNat + 4 } :=
  if_pos h

/-- Settles O41: the cases of the big-step form, each with the end of its run; the characters are those of
`run_derivingAt_finish`, and a supplied token is `acceptBig_of_supplied`. -/
theorem acceptMachineComputesTheToken : Obligations.AcceptMachineComputesTheToken := by
  intro s w rest hr ho
  have ⟨_, herr, _, hsched⟩ := hr
  refine ⟨?_, fun hall => by rw [acceptBig_of_supplied _ hall]; exact ⟨rfl, rfl⟩⟩
  unfold acceptBig hinBig
  split_ifs with hall hclosed
  · have hlen : (s.hin.queue.take (cmdLen w).toNat).length = (cmdLen w).toNat := List.length_take_of_le hall
    have hidx : BitVec.ofNat 32 (s.hin.queue.take (cmdLen w).toNat).length = cmdLen w := by
      rw [hlen, BitVec.ofNat_toNat, BitVec.setWidth_eq]
    have hrun := (run_add (run_derivingAt hr ho (List.take_append_drop _ _).symm hlen.le) 4).trans
      (run_derivingAt_finish hsched hidx)
    rw [hlen, Nat.add_right_comm] at hrun
    exact ⟨_, hrun, ⟨rfl, rfl, herr⟩, ⟨rfl, rfl, rfl, rfl⟩, rfl, rfl, fun _ => hidx⟩
  · have hdue := Nat.lt_of_not_le hall
    have hshort := step_derivingAt (rest := rest) hsched (.hinShort (derivingAt_needsHin hdue) rfl hclosed)
    have hrun := (run_add (run_derivingAt hr ho (List.append_nil _).symm hdue.le) 1).trans (run_succ hshort 0)
    exact ⟨_, hrun, ⟨rfl, rfl⟩,
      ⟨by rw [List.drop_length]; rfl, (List.append_nil _).symm, rfl, rfl⟩, rfl, rfl, nofun⟩
  · have hdue := Nat.lt_of_not_le hall
    have hhold := step_derivingAt (rest := rest) hsched
      (.hinHold (derivingAt_needsHin hdue) rfl (eq_false_of_ne_true hclosed))
    exact ⟨_, run_derivingAt hr ho (List.append_nil _).symm hdue.le, ⟨rfl, herr, hhold⟩,
      ⟨by rw [List.drop_length]; rfl, (List.append_nil _).symm, rfl, rfl⟩, rfl, rfl, nofun⟩

end Sys2Proof.Machine

/-! PROOFS. The statements about the exceptions (60_exceptions.md): the illegal opcodes, what a faulting step writes, why
it faults, and that only a reset leaves `FAULT`. A faulting step of a busy block is one of seven transitions. -/

namespace Sys2Proof.Machine

/-! ### The illegal opcodes -/

/-- A command starts in `P_IDLE` exactly when its opcode is illegal (10_state.md R24, 30_encoding.md R73). -/
theorem firstPhase_eq_pIdle_iff : ∀ op : Byte, firstPhase op = .pIdle ↔ op = 0 ∨ 7 ≤ op.toNat := by decide +kernel

/-- The first phase of a command is one of its phases (R26). -/
theorem firstPhase_mem_phasesOf (op : Byte) : firstPhase op ∈ phasesOf op := by
  unfold firstPhase phasesOf
  split_ifs <;> decide

section
variable {op : Byte} (hill : op = 0 ∨ 7 ≤ op.toNat)
include hill

/-- The word of an illegal opcode decodes to the illegal instruction (R73). -/
theorem decodeWord_illegal (len key : W32) : decodeWord (cmdWord op len key) = .illegal op len key :=
  decodeWord_of_encode_word (by simpa [WellFormed, illegalOp] using hill) rfl

/-- An illegal command latches nothing of its own when it is taken (R24, R225). -/
theorem accepted_illegal (len key : W32) (s : State) :
    accepted (cmdWord op len key) s = takeCommand op len .pIdle s := by
  have hexec := exec_accepts (s := { s with state := .idle }) rfl (cmdWord op len key)
  rw [decodeWord_illegal hill, exec, execIllegal, commandTurn_idle rfl] at hexec
  exact (eq_of_next hexec).symm

theorem pIdle_mem_phasesOf_illegal : .pIdle ∈ phasesOf op :=
  (firstPhase_eq_pIdle_iff op).mpr hill ▸ firstPhase_mem_phasesOf op

/-- The one transition of a running illegal command (R225). -/
theorem busyStep_illegal {s : State} (hr : Running op .pIdle s) : BusyStep s (raise .eIllegalOp s) := by
  obtain ⟨-, rfl, hp⟩ := hr
  exact .illegalOp ((firstPhase_eq_pIdle_iff _).mpr hill) hp

end

/-- Settles O44: the accept is `accepted_illegal`, and the step after it the transition `busyStep_illegal`. -/
theorem illegalOpcodeFaultsInItsFirstStep : Obligations.IllegalOpcodeFaultsInItsFirstStep := by
  intro op len key s hill
  have hmem := pIdle_mem_phasesOf_illegal hill
  refine ⟨fun hr => exec_of_busyStep (decodeWord_illegal hill len key) hr hmem (busyStep_illegal hill hr),
    fun rest hready => ?_⟩
  have ⟨_, _, _, hsched⟩ := hready
  have hrunning : Running op .pIdle (takeCommand op len .pIdle { s with cmds := rest }) := ⟨rfl, rfl, rfl⟩
  rw [run_succ (step_of_ready hready), accepted_illegal hill]
  exact run_of_running hsched hrunning hmem (busyStep_illegal hill hrunning) rfl

/-! ### Raising a fault -/

/-- Settles O48: three of the faulting transitions take the header byte first, the others only raise. -/
theorem raiseWritesOnlyErrAndState : Obligations.RaiseWritesOnlyErrAndState := by
  intro s t hs hb h ht
  rw [step_nil hs] at h
  cases busyStep_of_blockStep hb h with
  | rxShort | hinShort | encTooLong | illegalOp => exact ⟨Err.noConfusion, .inl rfl⟩
  | hdr0Bad b rest _ hp hq => exact ⟨Err.noConfusion, .inr ⟨b, rest, hq, .inl ⟨hp, rfl, rfl⟩⟩⟩
  | hdr1Unmasked b rest _ hp hq => exact ⟨Err.noConfusion, .inr ⟨b, rest, hq, .inr ⟨hp, .inl rfl, rfl⟩⟩⟩
  | hdr1Long rest _ hp hq => exact ⟨Err.noConfusion, .inr ⟨0xFF, rest, hq, .inr ⟨hp, .inr rfl, rfl⟩⟩⟩
  | payDone | encDone | maskDone | shaDone | b64Fin | accOut => exact Seq.noConfusion ht
  | _ => exact Seq.noConfusion (hb.symm.trans ht)

/-- Index 1 reads the code of `ERR` (10_state.md R21, R220). -/
theorem statusRead_err (s : State) : statusRead s 1 = s.err.code.setWidth 32 := rfl

/-- The codes of `ERR` are below 6 (R220). -/
theorem errCode_lt (e : Err) : e.code.toNat < 6 := by
  cases e <;> decide

/-- `ERR` as the host reads it (R220). -/
theorem statusRead_err_iff (s : State) (n : Nat) :
    statusRead s 1 = BitVec.ofNat 32 n ∧ n < 6 ↔ n = s.err.code.toNat := by
  have hcode := errCode_lt s.err
  rw [statusRead_err]
  constructor
  · rintro ⟨hread, hn⟩
    have := congrArg BitVec.toNat hread
    simp only [BitVec.toNat_setWidth, BitVec.toNat_ofNat] at this
    omega
  · rintro rfl
    exact ⟨(BitVec.ofNat_toNat ..).symm, hcode⟩

/-- A byte 0 that fails the strict test is not 0x81 (40_frame_parser.md R105). -/
theorem ne_of_strictOk_eq_false {b : Byte} (h : strictOk b = false) : b ≠ 0x81 := by
  rintro rfl
  exact absurd h (by decide)

/-- Settles O51: the codes by `statusRead_err_iff`, and the guard of each faulting transition is its cause. -/
theorem faultCodesAndCauses : Obligations.FaultCodesAndCauses := by
  refine ⟨fun s n => ?_, fun s t hs hb _ h ht => ?_⟩
  · rw [statusRead_err_iff]
    cases s.err <;> simp [Err.code]
  · rw [step_nil hs] at h
    cases busyStep_of_blockStep hb h with
    | rxShort hn hq hc => exact .inr (.inl ⟨rfl, .inl ⟨hn, hq, hc⟩⟩)
    | hinShort hn hq hc => exact .inr (.inl ⟨rfl, .inr ⟨hn, hq, hc⟩⟩)
    | hdr0Bad b _ ho _ _ hstrict hbad =>
      exact .inr (.inr (.inr (.inl ⟨rfl, ho, hstrict, ne_of_strictOk_eq_false hbad⟩)))
    | hdr1Unmasked b _ ho _ _ hm => exact .inr (.inr (.inl ⟨rfl, ho, hm⟩))
    | hdr1Long _ ho => exact .inl ⟨rfl, .inl ⟨ho, rfl⟩⟩
    | encTooLong ho _ hlong => exact .inl ⟨rfl, .inr ⟨ho, hlong⟩⟩
    | illegalOp hfirst => exact .inr (.inr (.inr (.inr ⟨rfl, (firstPhase_eq_pIdle_iff _).mp hfirst⟩)))
    | payDone | encDone | maskDone | shaDone | b64Fin | accOut => exact Seq.noConfusion ht
    | _ => exact Seq.noConfusion (hb.symm.trans ht)

/-! ### In `FAULT` -/

/-- No instruction does anything in `FAULT` (R229). -/
theorem exec_fault {s : State} (hf : s.state = .fault) (i : Instr) : exec i s = .next s := by
  have hoff (p : Phase) : ¬(s.state = .busy ∧ s.phase = p) := by simp [hf]
  cases i with
  | decode | encode | mask | sha1 | b64 | accept | illegal =>
    simp only [exec, execDecode, execEncode, execMask, execSha1, execB64, execAccept, execIllegal, commandTurn_fault hf]
  | frameIn7 | frameIn16 | frameIn64 | frameInUnmasked | frameOut7 | frameOut16 =>
    simp only [exec, execFrameIn7, execFrameIn16, execFrameIn64, execFrameInUnmasked, execFrameOut7, execFrameOut16,
      inPhase_off (hoff _)]

/-- A predicate that every step keeps holds at the end of every run, of any machine. -/
theorem core_run_keeps (M : Host.Core) {P : M.State → Prop} (hstep : ∀ s t, P s → M.step s = .next t → P t)
    {s t : M.State} {k : Nat} (hs : P s) (h : M.run k s = .next t) : P t := by
  induction k generalizing s with
  | zero =>
    injection h with h
    exact h ▸ hs
  | succ k ih =>
    rw [Host.Core.run] at h
    split at h
    · rename_i u hu
      exact ih (hstep s u hs hu) h
    · cases h
    · cases h

/-- The block as it was when it stopped in `s`: in `FAULT` with the registers of `s`, and no reset scheduled. -/
structure Stopped (s u : State) : Prop where
  fault    : u.state = .fault
  no_reset : ∀ strap, Move.reset strap ∉ u.sched
  sha      : u.sha = s.sha
  b64      : u.b64 = s.b64
  status   : ∀ i, statusRead u i = statusRead s i

/-- A move of the environment other than reset changes no register (00_scope.md R19). -/
theorem agentMove_registers {m : Move} (hm : ∀ strap, m ≠ .reset strap) (s : State) :
    (agentMove m s).sha = s.sha ∧ (agentMove m s).b64 = s.b64 ∧ (∀ i, statusRead (agentMove m s) i = statusRead s i) ∧
      (agentMove m s).sched = s.sched := by
  cases m with
  | reset strap => exact absurd rfl (hm strap)
  | _ => exact ⟨rfl, rfl, fun _ => rfl, rfl⟩

/-- Using up the next turn leaves a stopped block stopped. -/
theorem stopped_tail {s u : State} {m : Move} {rest : List Move} (h : Stopped s u) (hm : u.sched = m :: rest) :
    Stopped s { u with sched := rest } where
  fault := h.fault
  no_reset strap hmem := h.no_reset strap (hm ▸ List.mem_cons_of_mem m hmem)
  sha := h.sha
  b64 := h.b64
  status := h.status

/-- A stopped block's own turn does nothing, and the environment changes no register of it (R229). -/
theorem step_keeps_stopped {s u v : State} (h : Stopped s u) (hstep : step u = .next v) : Stopped s v := by
  rcases step_cases hstep with ⟨u0, hturn, hblock⟩ | ⟨m, rest, hm, -, rfl⟩
  · have h0 : Stopped s u0 := by
      rcases hturn with ⟨-, rfl⟩ | ⟨rest, hm, rfl⟩
      · exact h
      · exact stopped_tail h hm
    rw [blockStep_fault h0.fault] at hblock
    exact eq_of_next hblock ▸ h0
  · have h0 := stopped_tail h hm
    have hnr : ∀ strap, m ≠ .reset strap := by
      rintro strap rfl
      exact h.no_reset strap (hm ▸ List.mem_cons_self)
    obtain ⟨hsha, hb64, hstatus, hsched⟩ := agentMove_registers hnr { u with sched := rest }
    exact
      { fault := (agentMove_keeps hnr _).1.trans h0.fault
        no_reset := hsched ▸ h0.no_reset
        sha := hsha.trans h0.sha
        b64 := hb64.trans h0.b64
        status := fun i => (hstatus i).trans (h0.status i) }

/-- Settles O49: `exec_fault`; a run without a reset keeps the block `Stopped`, and with nothing scheduled it stays. -/
theorem faultIsAbsorbing : Obligations.FaultIsAbsorbing := by
  refine fun s hf => ⟨exec_fault hf, fun k t hnr hrun => ?_⟩
  have hstopped : Stopped s t :=
    core_run_keeps core (fun _ _ => step_keeps_stopped) ⟨hf, hnr, rfl, rfl, fun _ => rfl⟩ hrun
  refine ⟨hstopped.fault, hstopped.sha, hstopped.b64, hstopped.status, fun hs => ?_⟩
  rw [run_stays ((step_nil hs).trans (blockStep_fault hf))] at hrun
  exact (eq_of_next hrun).symm

end Sys2Proof.Machine

/-! PROOFS. The codes of the instructions (30_encoding.md): decoding undoes encoding and encoding undoes decoding, for
command words, inbound and outbound frame headers. -/

namespace Sys2Proof.Machine

/-! ### Frame byte 1 -/

/-- The indicator of a byte 1 joined from its two fields (R76). -/
@[simp] theorem indOf_append (m : BitVec 1) (ind : BitVec 7) : indOf (m ++ ind) = ind :=
  BitVec.extractLsb'_append_eq_right

/-- The mask bit of a byte 1 joined from its two fields (R76). -/
@[simp] theorem maskBit_append (m : BitVec 1) (ind : BitVec 7) : maskBit (m ++ ind) = m.getLsbD 0 :=
  BitVec.getLsbD_append

/-- A byte 1 with the mask bit clear is its indicator as a number (R80). -/
@[simp] theorem zero_append_toNat (ind : BitVec 7) : (0#1 ++ ind : Byte).toNat = ind.toNat := by
  rw [BitVec.toNat_append]
  exact Nat.zero_or ..

/-- A byte 1 of at most 126 is 0 and the indicator of that value (R80, R83). -/
theorem zero_append_indOf {b : Byte} (h : b.toNat ≤ 126) : 0#1 ++ indOf b = b := by
  have hlt : 2 * b.toNat < 2 ^ 8 := by omega
  exact byte1_unmasked b (BitVec.msb_eq_false_iff_two_mul_lt.mpr hlt)

/-! ### The header decoders, form by form -/

/-- The unmasked form (R107). -/
theorem decodeInbound_unmasked (b0 : Byte) {b1 : Byte} (rest : List Byte) (hm : maskBit b1 = false) :
    decodeInbound (b0 :: b1 :: rest) = .ok (.frameInUnmasked b0 (indOf b1)) rest := by
  unfold decodeInbound
  dsimp only
  rw [show inForm b1 = .unmasked (indOf b1) from if_pos hm]

/-- The 7-bit form (R106). -/
theorem decodeInbound_short (b0 : Byte) {b1 : Byte} (rest : List Byte) (hm : maskBit b1 = true)
    (h7 : (indOf b1).toNat ≤ 125) : decodeInbound (b0 :: b1 :: rest) = .ok (.frameIn7 b0 (indOf b1)) rest := by
  unfold decodeInbound
  dsimp only
  rw [inForm_masked hm, if_pos h7]

/-- The 16-bit form (R106, R109). -/
theorem decodeInbound_ext16 (b0 h l : Byte) (rest : List Byte) :
    decodeInbound (b0 :: 0xFE :: h :: l :: rest) = .ok (.frameIn16 b0 (be16 h l)) rest := rfl

/-- The 64-bit form (R108). -/
theorem decodeInbound_ext64 (b0 : Byte) (rest : List Byte) :
    decodeInbound (b0 :: 0xFF :: rest) = .ok (.frameIn64 b0) rest := rfl

/-- The outbound 7-bit form (R80). -/
theorem decodeOutbound_short {b1 : Byte} (rest : List Byte) (h7 : b1.toNat ≤ 125) :
    decodeOutbound (0x81 :: b1 :: rest) = .ok (.frameOut7 (indOf b1)) rest := by
  unfold decodeOutbound
  dsimp only
  rw [if_neg (not_not.mpr rfl), if_pos h7]

/-- The outbound 16-bit form (R80). -/
theorem decodeOutbound_ext16 (h l : Byte) (rest : List Byte) :
    decodeOutbound (0x81 :: 0x7E :: h :: l :: rest) = .ok (.frameOut16 (be16 h l)) rest := rfl

/-! ### Decoding an encoding -/

/-- An inbound header is read back with exactly the bytes behind it left (R79). -/
theorem decodeInbound_of_encode {i : Instr} {bs : List Byte} (hwf : WellFormed i = true) (he : encode i = .inbound bs)
    (more : List Byte) : decodeInbound (bs ++ more) = .ok i more := by
  cases i <;> simp only [encode, Code.inbound.injEq, reduceCtorEq] at he <;> subst he
  case frameIn7 hdr0 ind =>
    have h7 : ind.toNat ≤ 125 := of_decide_eq_true hwf
    exact (decodeInbound_short hdr0 more (maskBit_append ..) (by rwa [indOf_append])).trans (by rw [indOf_append])
  case frameIn16 hdr0 plen => exact (decodeInbound_ext16 hdr0 _ _ more).trans (by rw [be16_hi8_lo8])
  case frameIn64 hdr0 => exact decodeInbound_ext64 hdr0 more
  case frameInUnmasked hdr0 ind =>
    exact (decodeInbound_unmasked hdr0 more (maskBit_append ..)).trans (by rw [indOf_append])

/-- The same for an outbound header (R80). -/
theorem decodeOutbound_of_encode {i : Instr} {bs : List Byte} (hwf : WellFormed i = true) (he : encode i = .outbound bs)
    (more : List Byte) : decodeOutbound (bs ++ more) = .ok i more := by
  cases i <;> simp only [encode, Code.outbound.injEq, reduceCtorEq] at he <;> subst he
  case frameOut7 n =>
    have h7 : n.toNat ≤ 125 := of_decide_eq_true hwf
    exact (decodeOutbound_short more (by rwa [zero_append_toNat])).trans (by rw [indOf_append])
  case frameOut16 n => exact (decodeOutbound_ext16 _ _ more).trans (by rw [be16_hi8_lo8])

/-- Settles O2: a word by `decodeWord_of_encode_word`, a header by the lemma of its direction. -/
theorem encodedInstructionDecodesToItself : Obligations.EncodedInstructionDecodesToItself := by
  intro i hwf
  refine ⟨?_, fun bs more he => decodeInbound_of_encode hwf he more, fun bs more he => decodeOutbound_of_encode hwf he more⟩
  cases he : encode i with
  | word w => rw [decode, decodeWord_of_encode_word hwf he]
  | inbound bs => exact (congrArg decodeInbound (List.append_nil bs)).symm.trans (decodeInbound_of_encode hwf he [])
  | outbound bs => exact (congrArg decodeOutbound (List.append_nil bs)).symm.trans (decodeOutbound_of_encode hwf he [])

/-! ### Encoding what was decoded -/

/-- The word of a decoded command is the one it was decoded from (R70, R71, R73). -/
theorem encode_decodeWord (w : W72) : encode (decodeWord w) = .word w := by
  have hw := cmdWord_fields w
  unfold decodeWord
  split_ifs with h1 h2 h3 h4 h5 h6 <;> rw [encode]
  · rw [← h1, hw]
  · rw [← h2, hw]
  · rw [← h3, hw]
  · rw [← h4, hw]
  · rw [← h5, hw]
  · rw [← h6, hw]
  · rw [hw]

/-- A decoded command is well formed: what is no command of the table is illegal (R73). -/
theorem wellFormed_decodeWord (w : W72) : WellFormed (decodeWord w) = true := by
  unfold decodeWord
  split_ifs with h1 h2 h3 h4 h5 h6
  case neg =>
    have hfirst : firstPhase (cmdOp w) = .pIdle := by
      rw [firstPhase, if_neg h1, if_neg h2, if_neg h3, if_neg h4, if_neg h5, if_neg h6]
    simpa [WellFormed, illegalOp] using (firstPhase_eq_pIdle_iff _).mp hfirst
  all_goals rfl

/-- What is decoded from `RX` is the encoding of a well-formed header and the rest (R79). -/
theorem encode_of_decodeInbound {bs rest : List Byte} {i : Instr} (h : decodeInbound bs = .ok i rest) :
    ∃ hdr, encode i = .inbound hdr ∧ bs = hdr ++ rest ∧ WellFormed i = true := by
  match bs with
  | [] | [_] => cases h
  | b0 :: b1 :: tail =>
    cases hm : maskBit b1 with
    | false =>
      rw [decodeInbound_unmasked b0 tail hm] at h
      cases h
      exact ⟨_, rfl, by rw [byte1_unmasked b1 hm]; rfl, rfl⟩
    | true =>
      by_cases h7 : (indOf b1).toNat ≤ 125
      · rw [decodeInbound_short b0 tail hm h7] at h
        cases h
        exact ⟨_, rfl, by rw [byte1_masked b1 hm]; rfl, decide_eq_true h7⟩
      · by_cases h16 : (indOf b1).toNat = 126
        · obtain rfl := byte1_ext16 b1 hm h16
          match tail with
          | [] | [_] => cases h
          | h' :: l :: tail =>
            cases h
            exact ⟨_, rfl, by rw [hi8_be16, lo8_be16]; rfl, rfl⟩
        · obtain rfl := byte1_ext64 b1 hm h7 h16
          cases h
          exact ⟨_, rfl, rfl, rfl⟩

/-- What is decoded from `TX` is the encoding of a header and the rest; only the 16-bit length may be below its range
(R80, R83). -/
theorem encode_of_decodeOutbound {bs rest : List Byte} {i : Instr} (h : decodeOutbound bs = .ok i rest) :
    ∃ hdr, encode i = .outbound hdr ∧ bs = hdr ++ rest ∧
      (WellFormed i = true ∨ ∃ n : W16, i = .frameOut16 n ∧ n.toNat < 126) := by
  match bs with
  | [] | [_] => cases h
  | b0 :: b1 :: tail =>
    unfold decodeOutbound at h
    dsimp only at h
    split_ifs at h with h0 h7 h16
    · cases h
      replace h7 : b1.toNat ≤ 125 := h7
      have hb1 := zero_append_indOf (Nat.le_succ_of_le h7)
      rw [← hb1, zero_append_toNat] at h7
      exact ⟨_, rfl, by rw [hb1, not_not.mp h0]; rfl, .inl (decide_eq_true h7)⟩
    · obtain rfl : b1 = 0x7E := BitVec.eq_of_toNat_eq h16
      match tail with
      | [] | [_] => cases h
      | h' :: l :: tail =>
        cases h
        refine ⟨_, rfl, by rw [hi8_be16, lo8_be16, not_not.mp h0]; rfl, ?_⟩
        by_cases hlen : (be16 h' l).toNat < 126
        · exact .inr ⟨_, rfl, hlen⟩
        · exact .inl (decide_eq_true (Nat.le_of_not_lt hlen))

/-- Settles O3: a word by `encode_decodeWord`, a header by the lemma of its direction. -/
theorem decodedInstructionEncodesBack : Obligations.DecodedInstructionEncodesBack := by
  intro c i rest h
  cases c with
  | word w =>
    cases h
    rw [encode_decodeWord]
    exact ⟨⟨rfl, rfl⟩, .inl (wellFormed_decodeWord w)⟩
  | inbound bs =>
    obtain ⟨hdr, he, rfl, hwf⟩ := encode_of_decodeInbound h
    rw [he]
    exact ⟨rfl, .inl hwf⟩
  | outbound bs =>
    obtain ⟨hdr, he, rfl, hwf⟩ := encode_of_decodeOutbound h
    rw [he]
    exact ⟨rfl, hwf⟩

/-- Settles O1: the words and headers are evaluated. -/
theorem wordsOfTheNotationDecode : Obligations.WordsOfTheNotationDecode := by
  unfold Obligations.WordsOfTheNotationDecode
  decide

end Sys2Proof.Machine

/-! PROOFS. The runs of `MASK` and of the commands of the handshake as the big-step forms say: `MASK` for every content
of `HIN` (42_mask_engine.md section 1), and `ACCEPT` against `SHA1` and then `B64` (45_accept.md section 3). -/

namespace Sys2Proof.Machine

/-! ### `MASK` -/

/-- While bytes are due, `M_PAY` needs `HIN`. -/
theorem maskingAt_needsHin {w : W72} {rest : List W72} {s : State} {taken more : List Byte}
    (hdue : taken.length < (cmdLen w).toNat) : needsHin (maskingAt w rest s taken more) = true :=
  bne_iff_ne.mpr (maskingAt_idx_ne hdue)

/-- Settles O27: the cases of the big-step form, each with the last transition of its run. -/
theorem maskAgreesWithBigStep : Obligations.MaskAgreesWithBigStep := by
  intro s w rest hr ho
  have ⟨_, herr, _, hsched⟩ := hr
  unfold maskBig hinBig
  split_ifs with hall hclosed
  · have hlen : (s.hin.queue.take (cmdLen w).toNat).length = (cmdLen w).toNat := List.length_take_of_le hall
    have hidx : BitVec.ofNat 32 (s.hin.queue.take (cmdLen w).toNat).length = cmdLen w := by
      rw [hlen, BitVec.ofNat_toNat, BitVec.setWidth_eq]
    have hdone := step_maskingAt (rest := rest) (more := s.hin.queue.drop (cmdLen w).toNat) hsched
      (.maskDone rfl rfl hidx)
    have hrun := (run_add (run_maskingAt hr ho (List.take_append_drop _ _).symm hlen.le) 1).trans (run_succ hdone 0)
    rw [hlen] at hrun
    exact ⟨_, hrun, ⟨rfl, rfl, herr⟩, ⟨rfl, rfl, rfl, rfl⟩, rfl, by rw [xorMaskSeq_length]; rfl, rfl, fun _ => hidx⟩
  · have hdue := Nat.lt_of_not_le hall
    have hshort := step_maskingAt (rest := rest) hsched (.hinShort (maskingAt_needsHin hdue) rfl hclosed)
    have hrun := (run_add (run_maskingAt hr ho (List.append_nil _).symm hdue.le) 1).trans (run_succ hshort 0)
    exact ⟨_, hrun, ⟨rfl, rfl⟩,
      ⟨by rw [List.drop_length]; rfl, rfl, rfl, rfl⟩, rfl, by rw [xorMaskSeq_length]; rfl, rfl, nofun⟩
  · have hdue := Nat.lt_of_not_le hall
    have hhold := step_maskingAt (rest := rest) hsched
      (.hinHold (maskingAt_needsHin hdue) rfl (eq_false_of_ne_true hclosed))
    exact ⟨_, run_maskingAt hr ho (List.append_nil _).symm hdue.le, ⟨rfl, herr, hhold⟩,
      ⟨by rw [List.drop_length]; rfl, rfl, rfl, rfl⟩, rfl, by rw [xorMaskSeq_length]; rfl, rfl, nofun⟩

/-! ### `ACCEPT`, `SHA1` and `B64` over the whole of `HIN` -/

/-- With exactly the bytes of `HIN` due, the shared big-step form completes over all of them. -/
theorem hinBig_whole {n : W32} {p : List Byte} (closed : Bool) (okOut shortOut : List Byte) (tailSteps : Nat)
    (h : n.toNat = p.length) :
    hinBig n closed p okOut shortOut tailSteps =
      { ending := .ok, taken := p.length, out := okOut, steps := p.length + tailSteps } := by
  rw [hinBig, if_pos h.le, h]

section
variable {w : W72} {rest : List W72} {s : State} (hr : Ready w rest s) (hlen : (cmdLen w).toNat = s.hin.queue.length)
include hr hlen

/-- `ACCEPT` of the whole of `HIN` (R205). -/
theorem run_accept_whole (ho : cmdOp w = 0x06) :
    ∃ t, Host.Core.run core (s.hin.queue.length + 5) s = .next t ∧ t.state = .idle ∧
      t.hout = s.hout ++ acceptToken s.hin.queue := by
  obtain ⟨⟨t, hrun, hshows, hmoved, -⟩, -⟩ := acceptMachineComputesTheToken s w rest hr ho
  rw [acceptBig, hinBig_whole _ _ _ _ hlen, hlen, List.take_length] at hrun hshows hmoved
  obtain ⟨hidle, -, -⟩ := hshows
  obtain ⟨-, hhout, -, -⟩ := hmoved
  exact ⟨t, hrun, hidle, hhout⟩

/-- `SHA1` of the whole of `HIN` (43_sha1.md R162). -/
theorem run_sha1_whole (ho : cmdOp w = 0x04) :
    ∃ t, Host.Core.run core (s.hin.queue.length + 24) s = .next t ∧ t.state = .idle ∧
      t.hout = s.hout ++ sha1 s.hin.queue := by
  obtain ⟨t, hrun, hshows, hmoved, -⟩ := sha1MachineComputesSha1 s w rest hr ho
  rw [sha1Big, hinBig_whole _ _ _ _ hlen, hlen, List.take_length] at hrun hshows hmoved
  obtain ⟨hidle, -, -⟩ := hshows
  obtain ⟨-, hhout, -, -⟩ := hmoved
  exact ⟨t, hrun, hidle, hhout⟩

/-- `B64` of the whole of `HIN` (44_base64.md R196). -/
theorem run_b64_whole (ho : cmdOp w = 0x05) :
    ∃ t, Host.Core.run core (s.hin.queue.length + 3) s = .next t ∧ t.state = .idle ∧
      t.hout = s.hout ++ b64 s.hin.queue := by
  obtain ⟨t, hrun, hshows, hmoved, -⟩ := b64MachineComputesB64 s w rest hr ho
  rw [b64Big, hinBig_whole _ _ _ _ hlen, hlen, List.take_length] at hrun hshows hmoved
  obtain ⟨hidle, -, -⟩ := hshows
  obtain ⟨-, hhout, -, -⟩ := hmoved
  exact ⟨t, hrun, hidle, hhout⟩

end

/-- Settles O42: the three runs put out `acceptToken`, `sha1` and `b64`, and `acceptToken` is defined from the other
two. -/
theorem acceptEqualsSha1ThenB64 : Obligations.AcceptEqualsSha1ThenB64 := by
  rintro token sa ss wa ws ra rs - hra hoa hla hqa hrs hos hls hqs
  have hlenToken : sa.hin.queue.length = token.length := by rw [hqa]
  have hlenMessage : ss.hin.queue.length = token.length + 36 := by rw [hqs, List.length_append, guid_length]
  obtain ⟨ta, hruna, hidlea, houta⟩ := run_accept_whole hra (hla.trans hlenToken.symm) hoa
  obtain ⟨ts, hruns, hidles, houts⟩ := run_sha1_whole hrs (hls.trans hlenMessage.symm) hos
  rw [hlenToken] at hruna
  rw [hqa] at houta
  rw [hlenMessage] at hruns
  rw [hqs] at houts
  refine ⟨ta, ts, acceptToken token, sha1 (token ++ guid), hruna, hidlea, houta, hruns, hidles, houts, sha1_length _,
    ?_, fun sb wb rb hrb hob hlb hqb => ?_⟩
  · rw [acceptToken, b64_length, sha1_length]
  · have hlenDigest : sb.hin.queue.length = 20 := by rw [hqb, sha1_length]
    obtain ⟨tb, hrunb, hidleb, houtb⟩ := run_b64_whole hrb (by rw [hlb, hlenDigest]; rfl) hob
    rw [hlenDigest] at hrunb
    rw [hqb] at houtb
    exact ⟨tb, hrunb, hidleb, houtb⟩

end Sys2Proof.Machine

/-! PROOFS. The statements about single turns and single instructions: what a step executes (10_state.md section 2), the
moves of the environment (00_scope.md section 7), the header forms (30_encoding.md section 3), the status port, and the
phases whose step is one transition. -/

namespace Sys2Proof.Machine

/-! ### What executing a command can do -/

/-- A command other than the running one waits (10_state.md section 2). -/
theorem exec_waits {i : Instr} {w : W72} {s : State} (he : encode i = .word w) (hb : s.state = .busy)
    (ho : s.op ≠ cmdOp w) : exec i s = .next s := by
  cases i <;> simp only [encode, Code.word.injEq, reduceCtorEq] at he <;> rw [← he, cmdOp_cmdWord] at ho
  · rw [exec, execDecode, commandTurn_waits hb ho]
  · rw [exec, execEncode, commandTurn_waits hb ho]
  · rw [exec, execMask, commandTurn_waits hb ho]
  · rw [exec, execSha1, commandTurn_waits hb ho]
  · rw [exec, execB64, commandTurn_waits hb ho]
  · rw [exec, execAccept, commandTurn_waits hb ho]
  · rw [exec, execIllegal, commandTurn_waits hb ho]

/-- A busy block in a phase that is none of its command's stops. -/
theorem blockStep_broken {s : State} (hb : s.state = .busy) (hp : s.phase ∉ phasesOf s.op) :
    blockStep s = .fault .brokenPhase := by
  rw [blockStep_busy hb]
  unfold phasesOf at hp
  split_ifs at hp ⊢ with h1 h2 h3 h4 h5 h6
  all_goals
    simp only [decodeRunning, encodeRunning, maskRunning, sha1Running, b64Running, acceptRunning, illegalRunning]
    split <;> simp_all

/-- A busy block whose turn answers a next state is in a phase of its command (10_state.md R26). -/
theorem phase_of_blockStep {s t : State} (hb : s.state = .busy) (h : blockStep s = .next t) : s.phase ∈ phasesOf s.op := by
  by_contra hp
  rw [blockStep_broken hb hp] at h
  cases h

/-- The command word `w` does nothing: the block is in `FAULT`, or another command runs (R23, R24, R229). -/
def Ignored (w : W72) (s : State) : Prop := s.state = .fault ∨ (s.state = .busy ∧ s.op ≠ cmdOp w)

theorem exec_ignored {w : W72} {s : State} (h : Ignored w s) : exec (decodeWord w) s = .next s := by
  rcases h with hf | ⟨hb, ho⟩
  · exact exec_fault hf _
  · exact exec_waits (encode_decodeWord w) hb ho

/-- Everything that executing a command can do: be taken, take the step of its phase, or nothing (R23, R24, R229). -/
theorem exec_command_cases {i : Instr} {w : W72} {s t : State} (hi : decodeWord w = i) (h : exec i s = .next t) :
    (s.state = .idle ∧ t = accepted w s) ∨
    (s.state = .busy ∧ s.op = cmdOp w ∧ s.phase ∈ phasesOf s.op ∧ BusyStep s t) ∨
    (Ignored w s ∧ t = s) := by
  rw [← hi] at h
  cases hs : s.state with
  | idle =>
    rw [exec_accepts hs] at h
    exact .inl ⟨rfl, (eq_of_next h).symm⟩
  | busy =>
    by_cases ho : s.op = cmdOp w
    · rw [exec_eq_blockStep hs ho] at h
      exact .inr (.inl ⟨rfl, ho, phase_of_blockStep hs h, busyStep_of_blockStep hs h⟩)
    · rw [exec_waits (encode_decodeWord w) hs ho] at h
      exact .inr (.inr ⟨.inr ⟨hs, ho⟩, (eq_of_next h).symm⟩)
  | fault =>
    rw [exec_fault hs] at h
    exact .inr (.inr ⟨.inl hs, (eq_of_next h).symm⟩)

/-- Settles O9: `exec_waits`. -/
theorem commandWaitsWhileAnotherRuns : Obligations.CommandWaitsWhileAnotherRuns :=
  fun _ _ _ he hb ho => exec_waits he hb ho

/-! ### What a step executes -/

/-- In a turn of the block, a step is the block's turn (00_scope.md R16). -/
theorem step_of_blockTurn {s s0 : State} (h : BlockTurn s s0) : step s = blockStep s0 := by
  rcases h with ⟨hs, rfl⟩ | ⟨rest, hs, rfl⟩
  · exact step_nil hs
  · exact step_block hs

/-- Settles O5: the block's turn by `STATE`. -/
theorem stepRunsTheDecodedCommand : Obligations.StepRunsTheDecodedCommand := by
  intro s s0 hturn
  rw [step_of_blockTurn hturn]
  refine ⟨fun w rest i hs hc hi => ?_, fun i hs hi => ?_, blockStep_fault, blockStep_rest⟩
  · cases hi
    exact blockStep_idle hs hc
  · cases hi
    exact (exec_eq_blockStep hs (cmdOp_cmdWord ..).symm).symm

/-- A step that completes an inbound header of two bytes executes its form (40_frame_parser.md R103, R106 to R108). -/
theorem step_inboundHeader {s : State} {b : Byte} {rest : List Byte} {i : Instr} (hs : s.sched = [])
    (hr : Running 0x01 .dHdr1 s) (hq : s.rx.queue = b :: rest) (hi : decodeInbound [s.hdr0, b] = .ok i []) :
    step s = exec i { leaveRx rest s with hdr1 := b } := by
  have ⟨hb, ho, hp⟩ := hr
  cases hm : maskBit b with
  | false =>
    rw [decodeInbound_unmasked _ _ hm] at hi
    cases hi
    rw [step_of_running hs hr (by decide) (.hdr1Unmasked b rest ho hp hq hm), exec, execFrameInUnmasked,
      inPhase_at (by exact hb) (by exact hp), byte1_unmasked b hm]
    rfl
  | true =>
    by_cases h7 : (indOf b).toNat ≤ 125
    · rw [decodeInbound_short _ _ hm h7] at hi
      cases hi
      rw [step_of_running hs hr (by decide) (.hdr1Short b rest ho hp hq hm h7), exec, execFrameIn7,
        inPhase_at (by exact hb) (by exact hp), byte1_masked b hm]
      rfl
    · by_cases h16 : (indOf b).toNat = 126
      · obtain rfl := byte1_ext16 b hm h16
        cases hi
      · obtain rfl := byte1_ext64 b hm h7 h16
        cases hi
        rw [step_of_running hs hr (by decide) (.hdr1Long rest ho hp hq), exec, execFrameIn64,
          inPhase_at (by exact hb) (by exact hp)]
        rfl

/-- A step that completes the 16-bit form executes it (R109). -/
theorem step_inboundHeader16 {s : State} {b : Byte} {rest : List Byte} (hs : s.sched = []) (hr : Running 0x01 .dExt1 s)
    (hhdr1 : s.hdr1 = 0xFE) (hq : s.rx.queue = b :: rest) :
    step s = exec (.frameIn16 s.hdr0 (be16 (hi8 s.plen) b)) (leaveRx rest s) := by
  have ⟨hb, ho, hp⟩ := hr
  rw [step_of_running hs hr (by decide) (.ext1 b rest ho hp hq), exec, execFrameIn16,
    inPhase_at (by exact hb) (by exact hp), ← hhdr1]
  rfl

/-- The step of `E_HDR` executes the form of the header it puts out (41_frame_encoder.md R132 to R134). -/
theorem step_outboundHeader {s : State} {i : Instr} (hs : s.sched = []) (hr : Running 0x02 .eHdr s)
    (hfits : s.len.toNat ≤ 65535) (hi : decodeOutbound (outHeader s.len) = .ok i []) : step s = exec i s := by
  have ⟨hb, ho, hp⟩ := hr
  have hstep : step s = eHdrStep s := by
    rw [step_nil hs, blockStep_encode hb ho, encodeRunning, hp]
  rw [hstep, eHdrStep, if_neg (Nat.not_lt.mpr hfits)]
  unfold outHeader at hi
  split_ifs at hi ⊢ with h7
  · have hlen : (s.len.setWidth 8 : Byte).toNat ≤ 125 := (Nat.mod_le _ _).trans h7
    rw [decodeOutbound_short _ hlen, ← len7_byte h7, indOf_append] at hi
    cases hi
    rfl
  · rw [← hi8_setWidth, ← lo8_setWidth, decodeOutbound_ext16, be16_hi8_lo8] at hi
    cases hi
    rfl

/-- Settles O6: one lemma for each of the three steps. -/
theorem stepRunsTheDecodedHeader : Obligations.StepRunsTheDecodedHeader := by
  refine ⟨fun s b rest i => step_inboundHeader, fun s b rest i hs hr hhdr1 hq hi => ?_, fun s i => step_outboundHeader⟩
  rw [hhdr1] at hi
  cases hi
  exact step_inboundHeader16 hs hr hhdr1 hq

/-! ### The moves of the environment -/

theorem pushPort_open {p : InPort} (b : Byte) (h : p.closed = false) :
    pushPort b p = { queue := p.queue ++ [b], closed := false } := by
  rw [pushPort, h]
  rfl

theorem pushPort_closed {p : InPort} (b : Byte) (h : p.closed = true) : pushPort b p = p := if_pos h

/-- Settles O7: each move is `agentMove`. -/
theorem environmentMoves : Obligations.EnvironmentMoves := by
  intro s m rest hs
  refine ⟨?_, ?_, ?_, ?_, ?_, ?_, ?_, ?_, ?_, ?_, ?_, ?_⟩
  · rintro w rfl
    exact step_move hs Move.noConfusion
  · rintro b rfl hc
    exact (step_move hs Move.noConfusion).trans (by rw [agentMove, pushRx, pushPort_open b hc])
  · rintro b rfl hc
    exact (step_move hs Move.noConfusion).trans (by rw [agentMove, pushHin, pushPort_open b hc])
  · rintro b rfl hc
    exact (step_move hs Move.noConfusion).trans (by rw [agentMove, pushRx, pushPort_closed b hc])
  · rintro b rfl hc
    exact (step_move hs Move.noConfusion).trans (by rw [agentMove, pushHin, pushPort_closed b hc])
  · rintro rfl
    exact step_move hs Move.noConfusion
  · rintro rfl
    exact step_move hs Move.noConfusion
  · rintro b q rfl hq
    rw [step_move hs Move.noConfusion, agentMove, popTx, hq]
    rfl
  · rintro b q rfl hq
    rw [step_move hs Move.noConfusion, agentMove, popHout, hq]
    rfl
  · rintro rfl hq
    rw [step_move hs Move.noConfusion]
    simp [agentMove, popTx, hq]
  · rintro rfl hq
    rw [step_move hs Move.noConfusion]
    simp [agentMove, popHout, hq]
  · rintro i rfl
    exact step_move hs Move.noConfusion

/-! ### The header forms -/

/-- A masked byte 1 as the mask bit ORed on the indicator (R76). -/
theorem one_append_eq_or : ∀ ind : BitVec 7, (1#1 ++ ind : Byte) = 0x80 ||| ind.setWidth 8 := by decide

/-- An unmasked byte 1 is the indicator zero-extended (R76). -/
theorem zero_append_eq : ∀ ind : BitVec 7, (0#1 ++ ind : Byte) = ind.setWidth 8 := by decide

/-- Settles O45: each form in its phase and outside it. -/
theorem inboundFormsExecute : Obligations.InboundFormsExecute := by
  intro hdr0 ind plen s
  refine ⟨fun hb hp => ⟨fun _ => ?_, ?_, ?_⟩, fun hb hp => ?_, fun hoff => ⟨?_, ?_, ?_⟩, fun hoff => ?_⟩
  · rw [exec, execFrameIn7, inPhase_at hb hp, one_append_eq_or]
  · rw [exec, execFrameIn64, inPhase_at hb hp, raise]
  · rw [exec, execFrameInUnmasked, inPhase_at hb hp, zero_append_eq, raise]
  · rw [exec, execFrameIn16, inPhase_at hb hp]
  · rw [exec, execFrameIn7, inPhase_off hoff]
  · rw [exec, execFrameIn64, inPhase_off hoff]
  · rw [exec, execFrameInUnmasked, inPhase_off hoff]
  · rw [exec, execFrameIn16, inPhase_off hoff]

/-- Settles O46: each form in `E_HDR` and outside it. -/
theorem outboundFormsExecute : Obligations.OutboundFormsExecute := by
  intro i bs s _ he
  cases i <;> simp only [encode, Code.outbound.injEq, reduceCtorEq] at he <;> subst he
  case frameOut7 n =>
    rw [exec, execFrameOut7]
    refine ⟨fun hb hp => ?_, fun hoff => inPhase_off hoff⟩
    rw [inPhase_at hb hp]
    simp [outTx, add_assoc]
  case frameOut16 n =>
    rw [exec, execFrameOut16]
    refine ⟨fun hb hp => ?_, fun hoff => inPhase_off hoff⟩
    rw [inPhase_at hb hp]
    simp [outTx, add_assoc]

/-! ### Phases whose step is one transition -/

/-- Settles O23: the payload transition of `E_PAY`. -/
theorem payloadByteIsCopied : Obligations.PayloadByteIsCopied := by
  intro len key s b rest hr hi hq
  have ⟨_, ho, hp⟩ := hr
  exact exec_of_busyStep (decodeWord_cmdWord 0x02 len key) hr (by decide) (.encPay b rest ho hp hi hq)

/-- Settles O43: the transitions that leave `S_ABS` and `B_ABS`. -/
theorem absorbingEndsAtTheCount : Obligations.AbsorbingEndsAtTheCount := by
  refine fun len key s hi => ⟨fun hr => ?_, fun hr => ?_⟩ <;> have ⟨_, ho, hp⟩ := hr
  · exact execSha1_of_busyStep hr (by decide) (.shaEnd ho hp hi)
  · exact execB64_of_busyStep hr (by decide) (.b64End ho hp hi)

/-- Absorbing a byte sequence is absorbing its bytes one by one (43_sha1.md R164). -/
theorem absorbAll_eq_foldl (bs : List Byte) (u : ShaUnit) : absorbAll bs u = bs.foldl (fun u b => absorb b u) u := by
  induction bs generalizing u with
  | nil => rfl
  | cons b bs ih => exact ih _

/-- The base64 text of a digest has 28 characters (44_base64.md R194). -/
theorem b64_digestBytes_length (h : Chain) : (b64 (digestBytes h)).length = 28 := by
  rw [b64_length, digestBytes_length]

/-- Settles O40: the transitions of `ACCEPT`; the output step puts out `b64FeedAll_append_tail` of the digest. -/
theorem acceptPhasesRun : Obligations.AcceptPhasesRun := by
  refine ⟨by decide, fun len key s => ⟨fun hr hi => ?_, fun hr => ?_, fun hr => ?_⟩⟩ <;> have ⟨_, ho, hp⟩ := hr
  · exact execAccept_of_busyStep hr (by decide) (.accEnd ho hp hi)
  · rw [← absorbAll_eq_foldl]
    exact execAccept_of_busyStep hr (by decide) (.accGuid ho hp)
  · have hout := b64FeedAll_append_tail (digestBytes s.sha.h) (b64Init_gfill s.b64)
    have hexec := execAccept_of_busyStep (len := len) (key := key) hr (by decide) (.accOut _ _ ho hp rfl rfl)
    rw [hout, b64_digestBytes_length] at hexec
    exact ⟨_, hexec, b64_digestBytes_length _⟩

/-! ### The status port -/

/-- A byte joined below a word, as numbers (00_scope.md R11). -/
theorem appendByte_toNat {v : Nat} (x : BitVec v) (b : Byte) : (x ++ b).toNat = x.toNat * 2 ^ 8 + b.toNat := by
  rw [BitVec.toNat_append, ← Nat.shiftLeft_add_eq_or_of_lt b.isLt, Nat.shiftLeft_eq]

/-- The key register as a number, `KEY[0]` most significant (10_state.md R21). -/
theorem keyToWord_toNat (k : Key) :
    k.toWord.toNat = k.k0.toNat * 2 ^ 24 + k.k1.toNat * 2 ^ 16 + k.k2.toNat * 2 ^ 8 + k.k3.toNat := by
  rw [Key.toWord, appendByte_toNat, appendByte_toNat, appendByte_toNat]
  omega

/-- The indices behind the registers read 0 (20_memory.md R60). -/
theorem statusRead_beyond (s : State) {i : BitVec 4} (h : 11 ≤ i.toNat) : statusRead s i = 0 := by
  unfold statusRead
  split
  case h_12 => rfl
  all_goals omega

/-- Settles O53: the register of each index, the coded ones value by value. -/
theorem statusPortReadsTheRegisters : Obligations.StatusPortReadsTheRegisters := by
  intro s
  refine ⟨?_, ?_, rfl, rfl, keyToWord_toNat s.key, ?_, rfl, rfl, ?_, ?_, ?_, fun i => statusRead_beyond s⟩
  · rw [statusRead_state]
    cases s.state <;> rfl
  · rw [statusRead_err]
    cases s.err <;> rfl
  · change (s.phase.code.setWidth 32).toNat = _
    cases s.phase <;> rfl
  · exact BitVec.toNat_setWidth_of_le (by decide)
  · exact BitVec.toNat_setWidth_of_le (by decide)
  · exact BitVec.toNat_setWidth_of_le (by decide)

end Sys2Proof.Machine

/-! PROOFS. The frame parser as the big-step form says (40_frame_parser.md section 4). A run of `DECODE` from a ready
block is the accept step and one step for each byte of the frame; `parsingAt` names the state after the bytes `p` of a
frame, whatever part of the frame they are. The run ends where a header byte is refused, where the frame is complete, or
where `RX` is empty. -/

namespace Sys2Proof.Machine

/-! ### The part of a frame that is there -/

theorem getD_concat (p : List Byte) (b d : Byte) (i : Nat) :
    (p ++ [b]).getD i d = if i = p.length then b else p.getD i d := by
  rcases Nat.lt_trichotomy i p.length with hlt | rfl | hgt
  · rw [List.getD_append _ _ _ _ hlt, if_neg hlt.ne]
  · simp
  · rw [if_neg hgt.ne', List.getD_eq_default _ _ hgt.le, List.getD_eq_default _ _ (by simpa using hgt)]

theorem byteAt_concat (p : List Byte) (b : Byte) (i : Nat) :
    byteAt (p ++ [b]) i = if i = p.length then b else byteAt p i := getD_concat p b 0 i

/-- A byte of a part is that byte of the whole. -/
theorem byteAt_append {p : List Byte} {i : Nat} (more : List Byte) (d : Byte) (h : i < p.length) :
    byteAt (p ++ more) i = p.getD i d := by
  rw [byteAt, List.getD_append _ _ _ _ h, List.getD_eq_getElem _ _ h, List.getD_eq_getElem _ _ h]

/-- The header form is known when byte 1 is there (R106). -/
theorem headerLen_append {p : List Byte} (more : List Byte) (h : 2 ≤ p.length) :
    headerLen (p ++ more) = headerLen p := by
  rw [headerLen, byteAt_append more 0 h]
  rfl

theorem headerLen_cases (p : List Byte) : headerLen p = 2 ∨ headerLen p = 4 := by
  unfold headerLen
  split_ifs
  · exact .inr rfl
  · exact .inl rfl

/-- The payload length is known when the header is there (R106, R109). -/
theorem payloadLen_append {p : List Byte} (more : List Byte) (h : headerLen p ≤ p.length) :
    payloadLen (p ++ more) = payloadLen p := by
  have h2 := headerLen_cases p
  unfold payloadLen
  unfold headerLen at h h2
  rw [byteAt_append more 0 (by omega)]
  change (if (indOf (byteAt p 1)).toNat = Config.ind16 then _ else _) = _
  split_ifs at h h2 ⊢
  · rw [byteAt_append more 0 (by omega), byteAt_append more 0 (by omega)]
    rfl
  · rfl

/-- The number of bytes of the frame that begins with `p`, as far as they say (R113). -/
def frameLen (p : List Byte) : Nat := headerLen p + 4 + payloadLen p

theorem six_le_frameLen (p : List Byte) : 6 ≤ frameLen p := by
  have h2 := headerLen_cases p
  unfold frameLen
  omega

theorem frameLen_append {p : List Byte} (more : List Byte) (h : 4 ≤ p.length) : frameLen (p ++ more) = frameLen p := by
  have h2 := headerLen_cases p
  rw [frameLen, headerLen_append more (by omega), payloadLen_append more (by omega), frameLen]

/-- A part that does not complete the frame does not as far as its own bytes say. -/
theorem frameLen_of_append {p more : List Byte} (h : p.length < frameLen (p ++ more)) : p.length < frameLen p := by
  unfold frameLen at h ⊢
  by_cases h2 : 2 ≤ p.length
  · rw [headerLen_append more h2] at h
    by_cases hhdr : headerLen p ≤ p.length
    · rwa [payloadLen_append more hhdr] at h
    · omega
  · have h2' := headerLen_cases p
    omega

/-- `PLEN` after the bytes `p` of a frame (R106, R109). -/
def parsedPlen (n : W16) (p : List Byte) : W16 :=
  if p.length < 2 then n
  else if headerLen p = 4 then be16 (byteAt p 2) (byteAt p 3)
  else (indOf (byteAt p 1)).setWidth 16

/-- `KEY` after the bytes `p` of a frame (R110). -/
def parsedKey (k : Key) (p : List Byte) : Key :=
  { k0 := p.getD (headerLen p) k.k0, k1 := p.getD (headerLen p + 1) k.k1, k2 := p.getD (headerLen p + 2) k.k2,
    k3 := p.getD (headerLen p + 3) k.k3 }

/-- `PHASE` after the bytes `p` of a frame (R103). -/
def parsedPhase (p : List Byte) : Phase :=
  if p.length < 2 then (if p.length = 0 then .dHdr0 else .dHdr1)
  else if p.length < headerLen p then (if p.length = 2 then .dExt0 else .dExt1)
  else [.dKey0, .dKey1, .dKey2, .dKey3].getD (p.length - headerLen p) .dPay

/-- The state of a `DECODE` after the bytes `p` of a frame: the block was ready in `s` and took the word `w`; `more`
stands on `RX`. -/
def parsingAt (w : W72) (rest : List W72) (s : State) (p more : List Byte) : State :=
  { s with
    cmds := rest, op := 0x01, len := cmdLen w, idx := BitVec.ofNat 32 (unmaskedPayload p).length,
    ocnt := BitVec.ofNat 32 (unmaskedPayload p).length, state := .busy, phase := parsedPhase p,
    hdr0 := p.getD 0 s.hdr0, hdr1 := p.getD 1 s.hdr1, plen := parsedPlen s.plen p, key := parsedKey s.key p,
    rx := { s.rx with queue := more }, hout := s.hout ++ unmaskedPayload p }

/-- The register `PLEN` is the payload length of R113. -/
theorem parsedPlen_toNat {n : W16} {p : List Byte} (h : 2 ≤ p.length) : (parsedPlen n p).toNat = payloadLen p := by
  unfold parsedPlen headerLen payloadLen
  rw [if_neg (by omega)]
  by_cases h16 : (indOf (byteAt p 1)).toNat = Config.ind16
  · rw [if_pos h16, if_pos h16, if_pos rfl]
  · rw [if_neg h16, if_neg h16, if_neg (by decide)]
    exact BitVec.toNat_setWidth_of_le (by decide)

/-- Up to the key no payload byte is there. -/
theorem unmaskedPayload_eq_nil {p : List Byte} (h : p.length ≤ headerLen p + 4) : unmaskedPayload p = [] := by
  unfold unmaskedPayload
  simp only
  rw [List.drop_eq_nil_of_le h, List.take_nil, xorMaskSeq_nil]

/-- From the key on, the payload bytes are masked with the key in the registers (R111). -/
theorem unmaskedPayload_eq (k : Key) {p : List Byte} (h : headerLen p + 4 ≤ p.length) :
    unmaskedPayload p = xorMaskSeq (parsedKey k p) ((p.drop (headerLen p + 4)).take (payloadLen p)) := by
  have hbyte (i : Nat) (d : Byte) (hi : i < p.length) : byteAt p i = p.getD i d := by
    rw [← byteAt_append [] d hi, List.append_nil]
  unfold unmaskedPayload parsedKey
  simp only
  rw [hbyte _ k.k0 (by omega), hbyte _ k.k1 (by omega), hbyte _ k.k2 (by omega), hbyte _ k.k3 (by omega)]

@[simp] theorem unmaskedPayload_length (p : List Byte) :
    (unmaskedPayload p).length = min (payloadLen p) (p.length - (headerLen p + 4)) := by
  unfold unmaskedPayload
  rw [xorMaskSeq_length, List.length_take, List.length_drop]

/-- What stands behind a complete frame is no part of its payload (R113). -/
theorem unmaskedPayload_append {p : List Byte} (more : List Byte) (h : frameLen p ≤ p.length) :
    unmaskedPayload (p ++ more) = unmaskedPayload p := by
  have h2 := headerLen_cases p
  unfold frameLen at h
  unfold unmaskedPayload
  simp only
  rw [headerLen_append more (by omega), payloadLen_append more (by omega), List.drop_append_of_le_length (by omega),
    List.take_append_of_le_length (by rw [List.length_drop]; omega)]
  iterate 4 rw [byteAt_append more 0 (by omega)]
  rfl

theorem parsedKey_concat (k : Key) {p : List Byte} (b : Byte) (h2 : 2 ≤ p.length) :
    parsedKey k (p ++ [b]) =
      { k0 := if headerLen p = p.length then b else (parsedKey k p).k0
        k1 := if headerLen p + 1 = p.length then b else (parsedKey k p).k1
        k2 := if headerLen p + 2 = p.length then b else (parsedKey k p).k2
        k3 := if headerLen p + 3 = p.length then b else (parsedKey k p).k3 } := by
  simp only [parsedKey, headerLen_append [b] h2, getD_concat]

/-- One more payload byte, masked with the key byte of its position (R111). -/
theorem unmaskedPayload_concat (k : Key) {p : List Byte} (b : Byte) (h : headerLen p + 4 ≤ p.length)
    (hdue : p.length < frameLen p) :
    unmaskedPayload (p ++ [b]) =
      unmaskedPayload p ++ [b ^^^ keyAt (parsedKey k p) (unmaskedPayload p).length] := by
  have h2 := headerLen_cases p
  have hhdr : headerLen (p ++ [b]) = headerLen p := headerLen_append [b] (by omega)
  have hpay : payloadLen (p ++ [b]) = payloadLen p := payloadLen_append [b] (by omega)
  have hkey : parsedKey k (p ++ [b]) = parsedKey k p := by
    rw [parsedKey_concat k b (by omega), if_neg (by omega), if_neg (by omega), if_neg (by omega), if_neg (by omega)]
  have hlen : (p.drop (headerLen p + 4)).length < payloadLen p := by
    rw [List.length_drop]
    unfold frameLen at hdue
    omega
  rw [unmaskedPayload_eq k (p := p ++ [b]) (by rw [hhdr, List.length_append]; omega), unmaskedPayload_eq k h, hhdr, hpay,
    hkey, List.drop_append_of_le_length h, List.take_of_length_le hlen.le,
    List.take_of_length_le (by rw [List.length_append]; exact hlen), xorMaskSeq_concat, xorMaskSeq_length]

/-- No header byte of `p` is refused: byte 0 passes the strap's test, and byte 1 has the mask bit and is not the 64-bit
form (R105, R107, R108). -/
structure Parsable (strict : Bool) (p : List Byte) : Prop where
  byte0_ok : ¬(strict = true ∧ 1 ≤ p.length ∧ strictOk (byteAt p 0) = false)
  masked : ¬(2 ≤ p.length ∧ maskBit (byteAt p 1) = false)
  not_long : ¬(2 ≤ p.length ∧ (indOf (byteAt p 1)).toNat = 127)

/-- Nor is one of a part. -/
theorem parsable_of_append {strict : Bool} {p more : List Byte} (h : Parsable strict (p ++ more)) : Parsable strict p := by
  have hlen : p.length ≤ (p ++ more).length := by rw [List.length_append]; omega
  refine ⟨fun ⟨hs, h1, hbad⟩ => h.byte0_ok ⟨hs, h1.trans hlen, ?_⟩, fun ⟨h2, hm⟩ => h.masked ⟨h2.trans hlen, ?_⟩,
    fun ⟨h2, h127⟩ => h.not_long ⟨h2.trans hlen, ?_⟩⟩
  · rwa [byteAt_append more 0 h1]
  · rwa [byteAt_append more 0 h2]
  · rwa [byteAt_append more 0 h2]

/-- With both bytes there, what follows is not looked at. -/
theorem parsable_append {strict : Bool} {p : List Byte} (more : List Byte) (h2 : 2 ≤ p.length)
    (h : Parsable strict p) : Parsable strict (p ++ more) := by
  refine ⟨fun ⟨hs, _, hbad⟩ => h.byte0_ok ⟨hs, by omega, ?_⟩, fun ⟨_, hm⟩ => h.masked ⟨h2, ?_⟩,
    fun ⟨_, h127⟩ => h.not_long ⟨h2, ?_⟩⟩
  · rwa [byteAt_append more 0 (by omega)] at hbad
  · rwa [byteAt_append more 0 h2] at hm
  · rwa [byteAt_append more 0 h2] at h127

/-! ### One byte of a frame -/

/-- Behind the header come the four key phases and the payload (R103). -/
theorem parsedPhase_key {p : List Byte} {j : Nat} (hj : p.length = headerLen p + j) :
    parsedPhase p = [.dKey0, .dKey1, .dKey2, .dKey3].getD j .dPay := by
  have h2 := headerLen_cases p
  rw [parsedPhase, if_neg (by omega), if_neg (by omega), hj, Nat.add_sub_cancel_left]

theorem parsedPhase_mem (p : List Byte) : parsedPhase p ∈ phasesOf 0x01 := by
  have hkey (j : Nat) : [Phase.dKey0, .dKey1, .dKey2, .dKey3].getD j .dPay ∈ phasesOf 0x01 := by
    match j with
    | 0 | 1 | 2 | 3 => decide
    | _ + 4 => exact (by decide : Phase.dPay ∈ phasesOf 0x01)
  unfold parsedPhase
  split_ifs
  · decide
  · decide
  · decide
  · decide
  · exact hkey _

theorem parsedPhase_ne_pay {p : List Byte} (h : p.length < headerLen p + 4) : parsedPhase p ≠ .dPay := by
  unfold parsedPhase
  split_ifs with h2 _ hext
  · decide
  · decide
  · decide
  · decide
  · have hj : p.length - headerLen p < 4 := by omega
    interval_cases p.length - headerLen p <;> decide

theorem needsRx_of_pay {s : State} (hp : s.phase = .dPay) : needsRx s = (s.idx != s.plen.setWidth 32) := by
  rw [needsRx, hp]

/-- Every phase of `DECODE` before the payload needs a byte (R101). -/
theorem needsRx_of_head {s : State} (hp : s.phase ∈ phasesOf 0x01) (hne : s.phase ≠ .dPay) : needsRx s = true := by
  unfold needsRx
  cases h : s.phase <;> rw [h] at hp hne
  case dPay => exact absurd rfl hne
  all_goals exact absurd hp (by decide)

theorem parsedPlen_ext (n : W16) {p : List Byte} (h2 : 2 ≤ p.length) (h4 : headerLen p = 4) :
    parsedPlen n p = be16 (byteAt p 2) (byteAt p 3) := by
  rw [parsedPlen, if_neg (by omega), if_pos h4]

theorem parsedPlen_short (n : W16) {p : List Byte} (h2 : 2 ≤ p.length) (h4 : headerLen p ≠ 4) :
    parsedPlen n p = (indOf (byteAt p 1)).setWidth 16 := by
  rw [parsedPlen, if_neg (by omega), if_neg h4]

theorem parsedPlen_concat (n : W16) {p : List Byte} (b : Byte) (h2 : 2 ≤ p.length) (h : headerLen p ≤ p.length) :
    parsedPlen n (p ++ [b]) = parsedPlen n p := by
  have hhdr : headerLen (p ++ [b]) = headerLen p := headerLen_append [b] (by omega)
  have hlen : 2 ≤ (p ++ [b]).length := by rw [List.length_append]; omega
  by_cases h4 : headerLen p = 4
  · rw [parsedPlen_ext n hlen (hhdr.trans h4), parsedPlen_ext n h2 h4, byteAt_concat, if_neg (by omega), byteAt_concat,
      if_neg (by omega)]
  · rw [parsedPlen_short n hlen (hhdr ▸ h4), parsedPlen_short n h2 h4, byteAt_concat, if_neg (by omega)]

section
variable {w : W72} {rest : List W72} {s : State} {p more : List Byte} {b : Byte}

/-- A transition of the parser is the machine's step. -/
theorem step_parsingAt {t : State} (hsched : s.sched = []) (h : BusyStep (parsingAt w rest s p more) t) :
    step (parsingAt w rest s p more) = .next t :=
  step_of_running hsched (op := 0x01) (p := parsedPhase p) ⟨rfl, rfl, rfl⟩ (parsedPhase_mem p) h

/-- The accept step; no byte is taken yet (10_state.md R24). -/
theorem step_parsingAt_nil (h : Ready w rest s) (ho : cmdOp w = 0x01) :
    step s = .next (parsingAt w rest s [] s.rx.queue) := by
  rw [step_of_ready h, accepted, ho]
  simp [parsingAt, parsedPhase, parsedPlen, parsedKey, unmaskedPayload, firstPhase]

/-- Byte 0 (R102, R105). -/
theorem busyStep_parsingAt_byte0 (hok : s.strictHdr = false ∨ strictOk b = true) :
    BusyStep (parsingAt w rest s [] (b :: more)) (parsingAt w rest s [b] more) :=
  .hdr0 b more rfl rfl rfl hok

/-- Byte 1 of a masked frame with a payload length of at most 16 bits (R103, R106). -/
theorem busyStep_parsingAt_byte1 {b0 : Byte} (hm : maskBit b = true) (h127 : (indOf b).toNat ≠ 127) :
    BusyStep (parsingAt w rest s [b0] (b :: more)) (parsingAt w rest s [b0, b] more) := by
  by_cases h7 : (indOf b).toNat ≤ 125
  · have hlen : headerLen [b0, b] = 2 := if_neg (by change (indOf b).toNat ≠ 126; omega)
    have hstep : BusyStep (parsingAt w rest s [b0] (b :: more)) _ := .hdr1Short b more rfl rfl rfl hm h7
    simpa [parsingAt, leaveRx, parsedPhase, parsedPlen, parsedKey, hlen, show headerLen [b0] = 2 from rfl,
      unmaskedPayload_eq_nil, byteAt] using hstep
  · have h126 : (indOf b).toNat = 126 := by omega
    have hlen : headerLen [b0, b] = 4 := if_pos h126
    have hstep : BusyStep (parsingAt w rest s [b0] (b :: more))
        { leaveRx more (parsingAt w rest s [b0] (b :: more)) with hdr1 := b, plen := 0, phase := .dExt0 } := by
      obtain rfl := byte1_ext16 b hm h126
      exact .hdr1Ext more rfl rfl rfl
    simpa [parsingAt, leaveRx, parsedPhase, parsedPlen, parsedKey, hlen, show headerLen [b0] = 2 from rfl,
      unmaskedPayload_eq_nil, byteAt, show be16 0#8 0#8 = 0#16 from rfl] using hstep

/-- The state one byte on, as long as it is no payload byte. -/
theorem parsingAt_concat_head (h2 : 2 ≤ p.length) (hhead : p.length < headerLen p + 4) :
    parsingAt w rest s (p ++ [b]) more = { leaveRx more (parsingAt w rest s p (b :: more)) with
      phase := parsedPhase (p ++ [b]), plen := parsedPlen s.plen (p ++ [b]), key := parsedKey s.key (p ++ [b]) } := by
  have hnil : unmaskedPayload (p ++ [b]) = [] := by
    apply unmaskedPayload_eq_nil
    rw [headerLen_append [b] (by omega), List.length_append]
    exact hhead
  unfold parsingAt leaveRx
  rw [hnil, unmaskedPayload_eq_nil hhead.le, getD_concat, if_neg (by omega), getD_concat, if_neg (by omega)]

/-- The two bytes of the extended length (R109). -/
theorem busyStep_parsingAt_ext (h2 : 2 ≤ p.length) (hext : p.length < headerLen p) :
    BusyStep (parsingAt w rest s p (b :: more)) (parsingAt w rest s (p ++ [b]) more) := by
  have h4 : headerLen p = 4 := (headerLen_cases p).resolve_left (by omega)
  have hhdr : headerLen (p ++ [b]) = 4 := (headerLen_append [b] (by omega)).trans h4
  have hlen : (p ++ [b]).length = p.length + 1 := List.length_append
  have hkey : parsedKey s.key (p ++ [b]) = parsedKey s.key p := by
    rw [parsedKey_concat _ _ (by omega), if_neg (by omega), if_neg (by omega), if_neg (by omega), if_neg (by omega)]
  have hlow : byteAt p 3 = 0 := List.getD_eq_default _ _ (by omega)
  have hplen := parsedPlen_ext s.plen h2 h4
  rw [parsingAt_concat_head h2 (by omega), hkey, parsedPlen_ext _ (by omega) hhdr, byteAt_concat, byteAt_concat, hlow]
  have hn : p.length = 2 ∨ p.length = 3 := by omega
  rcases hn with hn | hn
  · have hphase : parsedPhase p = .dExt0 := by rw [parsedPhase, if_neg (by omega), if_pos hext, if_pos hn]
    have hnext : parsedPhase (p ++ [b]) = .dExt1 := by
      rw [parsedPhase, if_neg (by omega), if_pos (by omega), if_neg (by omega)]
    have hset : setHi (parsedPlen s.plen p) b = be16 b 0 := by rw [hplen, hlow, setHi, lo8_be16]
    rw [hnext, if_pos hn.symm, if_neg (by omega), ← hset]
    exact .ext0 b more rfl hphase rfl
  · have hphase : parsedPhase p = .dExt1 := by
      rw [parsedPhase, if_neg (by omega), if_pos hext, if_neg (by omega)]
    have hnext : parsedPhase (p ++ [b]) = .dKey0 := parsedPhase_key (j := 0) (by omega)
    have hset : setLo (parsedPlen s.plen p) b = be16 (byteAt p 2) b := by rw [hplen, setLo, hi8_be16]
    rw [hnext, if_neg (by omega), if_pos hn.symm, ← hset]
    exact .ext1 b more rfl hphase rfl

/-- The four key bytes (R110). -/
theorem busyStep_parsingAt_key {j : Nat} (hj : p.length = headerLen p + j) (hj4 : j < 4) :
    BusyStep (parsingAt w rest s p (b :: more)) (parsingAt w rest s (p ++ [b]) more) := by
  have h2 := headerLen_cases p
  have hphase := parsedPhase_key hj
  have hnext : parsedPhase (p ++ [b]) = [.dKey0, .dKey1, .dKey2, .dKey3].getD (j + 1) .dPay := by
    apply parsedPhase_key
    rw [headerLen_append [b] (by omega), List.length_append, hj]
    rfl
  rw [parsingAt_concat_head (by omega) (by omega), parsedPlen_concat _ _ (by omega) (by omega),
    parsedKey_concat _ _ (by omega), hnext, hj]
  interval_cases j
  · rw [if_pos (by omega), if_neg (by omega), if_neg (by omega), if_neg (by omega)]
    exact .key0 b more rfl hphase rfl
  · rw [if_neg (by omega), if_pos (by omega), if_neg (by omega), if_neg (by omega)]
    exact .key1 b more rfl hphase rfl
  · rw [if_neg (by omega), if_neg (by omega), if_pos (by omega), if_neg (by omega)]
    exact .key2 b more rfl hphase rfl
  · rw [if_neg (by omega), if_neg (by omega), if_neg (by omega), if_pos (by omega)]
    exact .key3 b more rfl hphase rfl

/-- `PHASE` while payload bytes are due. -/
theorem parsedPhase_pay (h : headerLen p + 4 ≤ p.length) : parsedPhase p = .dPay := by
  obtain ⟨j, hj⟩ := Nat.exists_eq_add_of_le h
  rw [parsedPhase_key (j := j + 4) (by omega)]
  rfl

/-- While payload bytes are due, `IDX` is not yet `PLEN`. -/
theorem parsingAt_idx_ne (h : headerLen p + 4 ≤ p.length) (hdue : p.length < frameLen p) :
    (parsingAt w rest s p more).idx ≠ (parsingAt w rest s p more).plen.setWidth 32 := by
  have h2 := headerLen_cases p
  have hplen : ((parsedPlen s.plen p).setWidth 32).toNat = payloadLen p :=
    (BitVec.toNat_setWidth_of_le (by decide)).trans (parsedPlen_toNat (by omega))
  refine ofNat_ne_of_lt (len := (parsedPlen s.plen p).setWidth 32) ?_
  rw [unmaskedPayload_length, hplen]
  unfold frameLen at hdue
  omega

/-- `IDX` counts the payload bytes put out without wrapping: their number is a 16-bit one. -/
theorem parsingAt_idx_toNat (h2 : 2 ≤ p.length) :
    (parsingAt w rest s p more).idx.toNat = (unmaskedPayload p).length := by
  refine (BitVec.toNat_ofNat ..).trans (Nat.mod_eq_of_lt ?_)
  rw [unmaskedPayload_length, ← parsedPlen_toNat (n := s.plen) h2]
  omega

/-- One payload byte (R111). -/
theorem busyStep_parsingAt_pay (h : headerLen p + 4 ≤ p.length) (hdue : p.length < frameLen p) :
    BusyStep (parsingAt w rest s p (b :: more)) (parsingAt w rest s (p ++ [b]) more) := by
  have h2 := headerLen_cases p
  have hhdr : headerLen (p ++ [b]) = headerLen p := headerLen_append [b] (by omega)
  have hlen : (p ++ [b]).length = p.length + 1 := List.length_append
  have hkey : parsedKey s.key (p ++ [b]) = parsedKey s.key p := by
    rw [parsedKey_concat _ _ (by omega), if_neg (by omega), if_neg (by omega), if_neg (by omega), if_neg (by omega)]
  have hstep := BusyStep.pay (s := parsingAt w rest s p (b :: more)) b more rfl (parsedPhase_pay h)
    (parsingAt_idx_ne h hdue) rfl
  rw [xorMask_eq, parsingAt_idx_toNat (by omega)] at hstep
  have hnext : parsedPhase (p ++ [b]) = parsedPhase p := by
    rw [parsedPhase_pay h, parsedPhase_pay (by omega)]
  rw [parsingAt, parsingAt, hnext, hkey, parsedPlen_concat _ _ (by omega) (by omega), getD_concat, if_neg (by omega), getD_concat,
    if_neg (by omega), unmaskedPayload_concat s.key b h hdue]
  simpa [BitVec.ofNat_add, add_assoc, parsingAt, leaveRx] using hstep

/-- Every byte of a frame that is not refused is one transition (R103). -/
theorem busyStep_parsingAt_cons (hok : Parsable s.strictHdr (p ++ [b])) (hdue : p.length < frameLen p) :
    BusyStep (parsingAt w rest s p (b :: more)) (parsingAt w rest s (p ++ [b]) more) := by
  match p with
  | [] =>
    refine busyStep_parsingAt_byte0 (or_iff_not_imp_left.mpr fun hs => eq_true_of_ne_false fun hbad => ?_)
    exact hok.byte0_ok ⟨eq_true_of_ne_false hs, le_rfl, hbad⟩
  | [b0] =>
    exact busyStep_parsingAt_byte1 (eq_true_of_ne_false fun hm => hok.masked ⟨le_rfl, hm⟩)
      fun h127 => hok.not_long ⟨le_rfl, h127⟩
  | b0 :: b1 :: tail =>
    generalize hp : b0 :: b1 :: tail = p at *
    have h2 : 2 ≤ p.length := by rw [← hp]; exact Nat.le_add_left ..
    by_cases hext : p.length < headerLen p
    · exact busyStep_parsingAt_ext h2 hext
    · obtain ⟨j, hj⟩ := Nat.exists_eq_add_of_le (Nat.le_of_not_lt hext)
      by_cases hj4 : j < 4
      · exact busyStep_parsingAt_key hj hj4
      · exact busyStep_parsingAt_pay (by omega) hdue

/-- The run up to the bytes `p` of a frame, from the ready block on. -/
theorem run_parsingAt (h : Ready w rest s) (ho : cmdOp w = 0x01) (hq : s.rx.queue = p ++ more)
    (hok : Parsable s.strictHdr p) (hdue : p.length ≤ frameLen p) :
    Host.Core.run core (p.length + 1) s = .next (parsingAt w rest s p more) := by
  have ⟨_, _, _, hsched⟩ := h
  induction p using List.reverseRecOn generalizing more with
  | nil =>
    rw [List.length_nil, run_succ (step_parsingAt_nil h ho), hq]
    rfl
  | append_singleton p b ih =>
    rw [List.append_assoc, List.singleton_append] at hq
    rw [List.length_append, List.length_singleton] at hdue
    have hlt := frameLen_of_append hdue
    rw [List.length_append, List.length_singleton, run_add (ih hq (parsable_of_append hok) hlt.le) 1,
      run_succ (step_parsingAt hsched (busyStep_parsingAt_cons hok hlt))]
    rfl

/-- The same run and its last step. -/
theorem run_parsingAt_last {t : State} (h : Ready w rest s) (ho : cmdOp w = 0x01) (hq : s.rx.queue = p ++ more)
    (hok : Parsable s.strictHdr p) (hdue : p.length ≤ frameLen p) (hlast : BusyStep (parsingAt w rest s p more) t) :
    Host.Core.run core (p.length + 2) s = .next t := by
  have ⟨_, _, _, hsched⟩ := h
  rw [run_add (run_parsingAt h ho hq hok hdue) 1, run_succ (step_parsingAt hsched hlast)]
  rfl

/-- A run that ends with byte 1, byte 0 having been taken. -/
theorem run_parsingAt_byte1 {b0 : Byte} {t : State} (h : Ready w rest s) (ho : cmdOp w = 0x01)
    (hq : s.rx.queue = b0 :: more) (hok : Parsable s.strictHdr [b0])
    (hlast : BusyStep (parsingAt w rest s [b0] more) t) : Host.Core.run core 3 s = .next t :=
  run_parsingAt_last h ho hq hok (by unfold frameLen; rw [List.length_singleton]; omega) hlast

/-- While bytes are due, the parser needs `RX`. -/
theorem parsingAt_needsRx (hdue : p.length < frameLen p) : needsRx (parsingAt w rest s p more) = true := by
  by_cases hpay : headerLen p + 4 ≤ p.length
  · rw [needsRx_of_pay (parsedPhase_pay hpay)]
    exact bne_iff_ne.mpr (parsingAt_idx_ne hpay hdue)
  · exact needsRx_of_head (parsedPhase_mem p) (parsedPhase_ne_pay (Nat.lt_of_not_le hpay))

end

/-! ### The whole of `RX` -/

/-- The big-step form with the frame's length under its name (R113). -/
theorem decodeBig_eq (strict closed : Bool) (q : List Byte) :
    decodeBig strict closed q =
      if strict = true ∧ 1 ≤ q.length ∧ strictOk (byteAt q 0) = false then
        { ending := .faulted .eHdr, taken := 1, out := [], steps := 1 }
      else if 2 ≤ q.length ∧ maskBit (byteAt q 1) = false then
        { ending := .faulted .eUnmasked, taken := 2, out := [], steps := 2 }
      else if 2 ≤ q.length ∧ (indOf (byteAt q 1)).toNat = 127 then
        { ending := .faulted .eSize, taken := 2, out := [], steps := 2 }
      else if frameLen q ≤ q.length then
        { ending := .ok, taken := frameLen q, out := unmaskedPayload q, steps := frameLen q + 1 }
      else if closed then
        { ending := .faulted .eShort, taken := q.length, out := unmaskedPayload q, steps := q.length + 1 }
      else { ending := .holds, taken := q.length, out := unmaskedPayload q, steps := q.length } := rfl

/-- Byte 0 alone is refused only by the strap's test. -/
theorem parsable_singleton {strict : Bool} {b : Byte} (h : ¬(strict = true ∧ strictOk b = false)) :
    Parsable strict [b] :=
  ⟨fun ⟨hs, _, hbad⟩ => h ⟨hs, hbad⟩, fun ⟨h2, _⟩ => absurd h2 (Nat.not_succ_le_self 1), fun ⟨h2, _⟩ => absurd h2 (Nat.not_succ_le_self 1)⟩

/-- A sequence of at least two bytes, taken apart. -/
theorem exists_two_bytes {q : List Byte} (h : 2 ≤ q.length) : ∃ b0 b1 more, q = b0 :: b1 :: more := by
  match q with
  | b0 :: b1 :: more => exact ⟨b0, b1, more, rfl⟩

/-- The number of payload bytes of a complete frame (R112). -/
theorem unmaskedPayload_length_of_complete {p : List Byte} (h : p.length = frameLen p) :
    (unmaskedPayload p).length = payloadLen p := by
  unfold frameLen at h
  rw [unmaskedPayload_length]
  omega

section
variable {w : W72} {rest : List W72} {s : State} {p more : List Byte} (h : p.length = frameLen p)
include h

/-- After a complete frame `IDX` is `PLEN`. -/
theorem parsingAt_idx_of_complete : (parsingAt w rest s p more).idx.toNat = payloadLen p := by
  have h2 := headerLen_cases p
  unfold frameLen at h
  rw [parsingAt_idx_toNat (by omega), unmaskedPayload_length_of_complete h]

/-- The step after a complete frame (R112). -/
theorem busyStep_parsingAt_done :
    BusyStep (parsingAt w rest s p more) (complete (parsingAt w rest s p more)) := by
  have hidx := parsingAt_idx_of_complete (w := w) (rest := rest) (s := s) (more := more) h
  have h2 := headerLen_cases p
  unfold frameLen at h
  refine .payDone rfl (parsedPhase_pay (by omega)) (BitVec.eq_of_toNat_eq ?_)
  rw [hidx, BitVec.toNat_setWidth_of_le (by decide)]
  exact (parsedPlen_toNat (by omega)).symm

/-- The run over a complete frame at the head of `RX` (R112). -/
theorem run_frame (hr : Ready w rest s) (ho : cmdOp w = 0x01) (hq : s.rx.queue = p ++ more)
    (hok : Parsable s.strictHdr p) :
    Host.Core.run core (p.length + 2) s = .next (complete (parsingAt w rest s p more)) :=
  run_parsingAt_last hr ho hq hok h.le (busyStep_parsingAt_done h)

/-- The registers after a complete frame describe it (R109 to R111). -/
theorem parsingAt_describes :
    (parsingAt w rest s p more).hdr0 = byteAt (p ++ more) 0 ∧ (parsingAt w rest s p more).hdr1 = byteAt (p ++ more) 1 ∧
    (parsingAt w rest s p more).plen.toNat = payloadLen (p ++ more) ∧
    (parsingAt w rest s p more).idx.toNat = payloadLen (p ++ more) ∧
    (parsingAt w rest s p more).key.k0 = byteAt (p ++ more) (headerLen (p ++ more)) ∧
    (parsingAt w rest s p more).key.k1 = byteAt (p ++ more) (headerLen (p ++ more) + 1) ∧
    (parsingAt w rest s p more).key.k2 = byteAt (p ++ more) (headerLen (p ++ more) + 2) ∧
    (parsingAt w rest s p more).key.k3 = byteAt (p ++ more) (headerLen (p ++ more) + 3) := by
  have hidx := parsingAt_idx_of_complete (w := w) (rest := rest) (s := s) (more := more) h
  have h2 := headerLen_cases p
  unfold frameLen at h
  rw [headerLen_append more (by omega), payloadLen_append more (by omega)]
  exact ⟨(byteAt_append more _ (by omega)).symm, (byteAt_append more _ (by omega)).symm, parsedPlen_toNat (by omega),
    hidx, (byteAt_append more _ (by omega)).symm, (byteAt_append more _ (by omega)).symm,
    (byteAt_append more _ (by omega)).symm, (byteAt_append more _ (by omega)).symm⟩

end

/-- Settles O18: the cases of the big-step form, each with the last transition of its run. -/
theorem decodeAgreesWithBigStep : Obligations.DecodeAgreesWithBigStep := by
  intro s w rest hr ho
  have ⟨_, herr, _, hsched⟩ := hr
  rw [decodeBig_eq]
  split_ifs with hstrict hmask hlong hall hclosed
  · obtain ⟨hs, hlen, hbad⟩ := hstrict
    obtain ⟨b, more, hq⟩ := List.exists_cons_of_length_pos hlen
    rw [hq] at hbad
    have hnil : Parsable s.strictHdr [] := ⟨nofun, nofun, nofun⟩
    have hrun := run_parsingAt_last (p := []) hr ho hq hnil (Nat.zero_le _) (.hdr0Bad b more rfl rfl rfl hs hbad)
    exact ⟨_, hrun, ⟨rfl, rfl⟩, ⟨by rw [hq]; rfl, rfl, rfl, rfl⟩, rfl, rfl, nofun⟩
  · obtain ⟨hlen, hm⟩ := hmask
    obtain ⟨b0, b1, more, hq⟩ := exists_two_bytes hlen
    rw [hq] at hm hstrict
    have hok := parsable_singleton fun ⟨hs, hbad⟩ => hstrict ⟨hs, Nat.le_add_left .., hbad⟩
    have hrun := run_parsingAt_byte1 hr ho hq hok (.hdr1Unmasked b1 more rfl rfl rfl hm)
    exact ⟨_, hrun, ⟨rfl, rfl⟩, ⟨by rw [hq]; rfl, rfl, rfl, rfl⟩, rfl, rfl, nofun⟩
  · obtain ⟨hlen, h127⟩ := hlong
    have hm := eq_true_of_ne_false fun hm => hmask ⟨hlen, hm⟩
    obtain ⟨b0, b1, more, hq⟩ := exists_two_bytes hlen
    rw [hq] at h127 hm hstrict
    obtain rfl : b1 = 0xFF := (indOf_eq_127_iff hm).mp h127
    have hok := parsable_singleton fun ⟨hs, hbad⟩ => hstrict ⟨hs, Nat.le_add_left .., hbad⟩
    have hrun := run_parsingAt_byte1 hr ho hq hok (.hdr1Long more rfl rfl rfl)
    exact ⟨_, hrun, ⟨rfl, rfl⟩, ⟨by rw [hq]; rfl, rfl, rfl, rfl⟩, rfl, rfl, nofun⟩
  · have hok : Parsable s.strictHdr s.rx.queue := ⟨hstrict, hmask, hlong⟩
    obtain ⟨p, more, hq, hlen⟩ : ∃ p more, s.rx.queue = p ++ more ∧ p.length = frameLen s.rx.queue :=
      ⟨_, _, (List.take_append_drop _ _).symm, List.length_take_of_le hall⟩
    have hsix := six_le_frameLen s.rx.queue
    have hframe : p.length = frameLen p := by rw [← frameLen_append more (by omega), ← hq, hlen]
    rw [hq] at hok
    have hrun := run_frame hframe hr ho hq (parsable_of_append hok)
    rw [← hlen, hq, unmaskedPayload_append more hframe.ge]
    exact ⟨_, hrun, ⟨rfl, rfl, herr⟩, ⟨by rw [hq, List.drop_left]; rfl, rfl, rfl, rfl⟩, rfl, rfl,
      fun _ => parsingAt_describes (w := w) (rest := rest) hframe⟩
  · have hdue := Nat.lt_of_not_le hall
    have hrun := run_parsingAt_last hr ho (List.append_nil _).symm ⟨hstrict, hmask, hlong⟩ hdue.le
      (.rxShort (parsingAt_needsRx hdue) rfl hclosed)
    exact ⟨_, hrun, ⟨rfl, rfl⟩, ⟨by rw [List.drop_length]; rfl, rfl, rfl, rfl⟩, rfl, rfl, nofun⟩
  · have hdue := Nat.lt_of_not_le hall
    have hhold := step_parsingAt (w := w) (rest := rest) hsched
      (.rxHold (parsingAt_needsRx hdue) rfl (eq_false_of_ne_true hclosed))
    exact ⟨_, run_parsingAt hr ho (List.append_nil _).symm ⟨hstrict, hmask, hlong⟩ hdue.le, ⟨rfl, herr, hhold⟩,
      ⟨by rw [List.drop_length]; rfl, rfl, rfl, rfl⟩, rfl, rfl, nofun⟩

/-! ### The round trip -/

/-- A header byte 1 with the mask bit set on a 7-bit length (90_conflicts.md C6). -/
theorem byte1_or_maskBit : ∀ b : Byte, b.toNat ≤ 125 → maskBit (b ||| 0x80) = true ∧ (indOf (b ||| 0x80)).toNat = b.toNat := by
  decide +kernel

/-- The header of the masked frame of `n` payload bytes. -/
def maskedHeader (n : W32) : List Byte :=
  if n.toNat ≤ 125 then [0x81, n.setWidth 8 ||| 0x80] else [0x81, 0xFE, n.extractLsb' 8 8, n.setWidth 8]

theorem remask_short (key : Key) (b0 : Byte) {b1 : Byte} (p : List Byte) (h : b1 ≠ 0x7E) :
    remask key (b0 :: b1 :: p) =
      [b0, b1 ||| 0x80] ++ [key.k0, key.k1, key.k2, key.k3] ++ xorMaskSeq key p := by
  unfold remask
  rw [show byteAt (b0 :: b1 :: p) 1 = b1 from rfl, if_neg h]
  rfl

theorem remask_long (key : Key) (b0 h l : Byte) (p : List Byte) :
    remask key (b0 :: 0x7E :: h :: l :: p) =
      [b0, 0xFE, h, l] ++ [key.k0, key.k1, key.k2, key.k3] ++ xorMaskSeq key p := by
  unfold remask
  rw [show byteAt (b0 :: 0x7E :: h :: l :: p) 1 = 0x7E from rfl, if_pos rfl]
  rfl

/-- A length of the 7-bit form in its byte. -/
theorem len7_toNat {n : W32} (h : n.toNat ≤ 125) : (n.setWidth 8 : Byte).toNat = n.toNat := by
  rw [BitVec.toNat_setWidth]
  omega

/-- The first byte of a text frame passes the strict test (R105). -/
theorem strictOk_text : strictOk 0x81 = true := by decide

/-- What the harness makes of a frame that `ENCODE` put out (C6). -/
theorem remask_outHeader (key : Key) (n : W32) (p : List Byte) :
    remask key (outHeader n ++ p) = maskedHeader n ++ [key.k0, key.k1, key.k2, key.k3] ++ xorMaskSeq key p := by
  unfold outHeader maskedHeader
  split_ifs with h7
  · refine remask_short key _ p fun h => ?_
    have hbyte : (n.setWidth 8 : Byte).toNat = 126 := congrArg BitVec.toNat h
    rw [len7_toNat h7] at hbyte
    exact absurd (hbyte ▸ h7) (by decide)
  · exact remask_long key _ _ _ p

/-- The masked header says its own length and that of the payload, and none of its bytes is refused (R103, R105). -/
theorem maskedHeader_parsed {n : W32} (hfits : n.toNat ≤ 65535) (strict : Bool) :
    (maskedHeader n).length = headerLen (maskedHeader n) ∧ payloadLen (maskedHeader n) = n.toNat ∧
      Parsable strict (maskedHeader n) := by
  unfold maskedHeader
  split_ifs with h7
  · obtain ⟨hm, hind⟩ := byte1_or_maskBit (n.setWidth 8) ((len7_toNat h7).le.trans h7)
    rw [len7_toNat h7] at hind
    have hne : (indOf (n.setWidth 8 ||| 0x80)).toNat ≠ 126 := by omega
    refine ⟨(if_neg hne).symm, (if_neg hne).trans hind, ?_, ?_, ?_⟩
    · exact fun ⟨_, _, hbad⟩ => Bool.noConfusion (strictOk_text.symm.trans hbad)
    · exact fun ⟨_, hclear⟩ => Bool.noConfusion (hm.symm.trans hclear)
    · exact fun ⟨_, h127⟩ => by
        change (indOf (n.setWidth 8 ||| 0x80)).toNat = 127 at h127
        omega
  · have h126 : (indOf 0xFE).toNat = 126 := by decide
    refine ⟨(if_pos h126).symm, (if_pos h126).trans ?_, ?_, ?_, ?_⟩
    · change (be16 (n.extractLsb' 8 8) (n.setWidth 8)).toNat = n.toNat
      rw [← hi8_setWidth, ← lo8_setWidth, be16_hi8_lo8, BitVec.toNat_setWidth]
      omega
    · exact fun ⟨_, _, hbad⟩ => Bool.noConfusion (strictOk_text.symm.trans hbad)
    · exact fun ⟨_, hclear⟩ => absurd (show maskBit 0xFE = false from hclear) (by decide)
    · exact fun ⟨_, h127⟩ => absurd (h126.symm.trans h127) (by decide)

/-- A frame of a header that says the payload's length, a key and the masked payload (R113). -/
theorem frame_parsed {strict : Bool} {hdr p : List Byte} (key : Key) (hhdr : hdr.length = headerLen hdr)
    (hpay : payloadLen hdr = p.length) (hok : Parsable strict hdr) :
    (hdr ++ [key.k0, key.k1, key.k2, key.k3] ++ p).length = frameLen (hdr ++ [key.k0, key.k1, key.k2, key.k3] ++ p) ∧
    unmaskedPayload (hdr ++ [key.k0, key.k1, key.k2, key.k3] ++ p) = xorMaskSeq key p ∧
    Parsable strict (hdr ++ [key.k0, key.k1, key.k2, key.k3] ++ p) := by
  have h2 := headerLen_cases hdr
  have hhdr' := headerLen_append ([key.k0, key.k1, key.k2, key.k3] ++ p) (p := hdr) (by omega)
  have hpay' := payloadLen_append ([key.k0, key.k1, key.k2, key.k3] ++ p) hhdr.ge
  rw [List.append_assoc]
  refine ⟨?_, ?_, ?_⟩
  · rw [frameLen, hhdr', hpay']
    simp only [List.length_append, List.length_cons, List.length_nil]
    omega
  · unfold unmaskedPayload
    simp only
    rw [hhdr', hpay', hpay, ← hhdr]
    simp [byteAt]
  · exact parsable_append _ (by omega) hok

/-- Settles O60: `ENCODE` by its big-step form, `DECODE` by the run over the remasked frame; masking the payload twice
with one key gives it back. -/
theorem encodeThenDecodeReproducesThePayload : Obligations.EncodeThenDecodeReproducesThePayload := by
  intro p s w rest hfits hr ho hlen hq
  have hbig : encodeBig (cmdLen w) s.hin.closed s.hin.queue =
      { ending := .ok, taken := p.length, out := outHeader (cmdLen w) ++ p, steps := p.length + 2 } := by
    rw [encodeBig, hq, hlen, if_neg (Nat.not_lt.mpr hfits), if_pos le_rfl, List.take_length]
  obtain ⟨t, hrun, hshows, ⟨-, htx, -⟩, -⟩ := encodeAgreesWithBigStep s w rest hr ho
  rw [hbig] at hrun hshows htx
  obtain ⟨hidle, -⟩ := hshows
  refine ⟨t, _, hrun, hidle, htx, fun key s' w' rest' more hr' ho' hq' => ?_⟩
  obtain ⟨hhdr, hpay, hhdrok⟩ := maskedHeader_parsed (hlen.le.trans hfits) s'.strictHdr
  obtain ⟨hframe, hout, hok⟩ := frame_parsed (p := xorMaskSeq key p) key hhdr
    (by rw [hpay, hlen, xorMaskSeq_length]) hhdrok
  rw [xorMaskSeq_xorMaskSeq] at hout
  rw [remask_outHeader] at hq'
  have ⟨_, herr', _⟩ := hr'
  exact ⟨_, _, run_frame hframe hr' ho' hq' hok, rfl, herr', congrArg (s'.hout ++ ·) hout, rfl⟩

end Sys2Proof.Machine

/-! PROOFS. The invariant of a run (10_state.md sections 2 to 4): it holds after reset, every turn keeps it, and with it
the block never stops and waits only where it must (70_reset_and_hazards.md R263). The registers of the two units and the
counters of the running command are followed through the transitions of a busy block one field of `Inv` at a time. -/

namespace Sys2Proof.Machine

/-! ### Reset, the environment, and the accept step -/

/-- The registers right after reset meet the invariant, whatever the strap and the ports are (R43; zeros in `BFILL` and
`GFILL`, log 4). -/
theorem inv_resetBlock (strap : Bool) (s : State) : Inv (resetBlock strap s) where
  err_none_iff := ⟨fun _ => Seq.noConfusion, fun _ => rfl⟩
  idle_phase _ := rfl
  phase_of_op h := absurd rfl h
  bfill_lt := Nat.zero_lt_succ 63
  gfill_le := Nat.zero_le 2
  progress h := Seq.noConfusion h

/-- Settles O54: the reset state is what a reset leaves of itself. -/
theorem resetMeetsTheInvariant : Obligations.ResetMeetsTheInvariant := inv_resetBlock false State.reset

/-- The invariant is about registers, and the environment's moves but for reset change none (00_scope.md R19). -/
theorem inv_agentMove {s : State} (hi : Inv s) (m : Move) (rest : List Move) :
    Inv (agentMove m { s with sched := rest }) := by
  obtain ⟨herr, hidle, hphase, hbfill, hgfill, hprog⟩ := hi
  cases m with
  | reset strap => exact inv_resetBlock strap _
  | _ => exact ⟨herr, hidle, hphase, hbfill, hgfill, hprog⟩

/-- The first phase of a command finds its counters at 0 (R24, 43_sha1.md R163, 44_base64.md R192). -/
theorem progress_accepted (w : W72) (s : State) : Progress (accepted w s) := by
  unfold accepted
  by_cases h1 : cmdOp w = 0x01
  · rw [h1]
    exact ⟨rfl, rfl⟩
  by_cases h2 : cmdOp w = 0x02
  · rw [h2]
    exact ⟨rfl, rfl⟩
  by_cases h3 : cmdOp w = 0x03
  · rw [h3]
    exact ⟨Nat.zero_le _, rfl⟩
  by_cases h4 : cmdOp w = 0x04
  · rw [h4]
    exact ⟨Nat.zero_le _, rfl, rfl, rfl⟩
  by_cases h5 : cmdOp w = 0x05
  · rw [h5]
    exact ⟨Nat.zero_le _, rfl, (by decide : (0 : W32) = BitVec.ofNat 32 (4 * ((0 : W32).toNat / 3)))⟩
  by_cases h6 : cmdOp w = 0x06
  · rw [h6]
    exact ⟨Nat.zero_le _, rfl, rfl, rfl⟩
  have hfirst : firstPhase (cmdOp w) = .pIdle := by
    rw [firstPhase, if_neg h1, if_neg h2, if_neg h3, if_neg h4, if_neg h5, if_neg h6]
  rw [hfirst]
  exact ⟨rfl, rfl⟩

/-- Taking a command keeps the invariant. -/
theorem inv_accepted {s : State} (hi : Inv s) (hs : s.state = .idle) (w : W72) : Inv (accepted w s) where
  err_none_iff := ⟨fun _ => Seq.noConfusion, fun _ => hi.err_none_iff.mpr (by rw [hs]; decide)⟩
  idle_phase h := Seq.noConfusion h
  phase_of_op _ := firstPhase_mem_phasesOf (cmdOp w)
  bfill_lt := by
    unfold accepted
    dsimp only
    split_ifs
    · exact Nat.zero_lt_succ 63
    · exact hi.bfill_lt
  gfill_le := by
    unfold accepted
    dsimp only
    split_ifs
    · exact Nat.zero_le 2
    · exact hi.gfill_le
  progress _ := progress_accepted w s

/-! ### The transitions of a busy block -/

section
variable {s t : State} (hi : Inv s) (h : BusyStep s t)
include hi h

/-- A transition raises a fault or leaves `ERR` at 0 (R32). -/
theorem busyStep_err_none_iff (hb : s.state = .busy) : t.err = .none ↔ t.state ≠ .fault := by
  have herr : s.err = .none := hi.err_none_iff.mpr (by rw [hb]; decide)
  have hbusy : s.state ≠ .fault := by rw [hb]; decide
  cases h with
  | rxShort | hinShort | hdr0Bad | hdr1Unmasked | hdr1Long | encTooLong | illegalOp =>
    exact ⟨Err.noConfusion, fun hne => absurd rfl hne⟩
  | payDone | encDone | maskDone | shaDone | b64Fin | accOut => exact ⟨fun _ => Seq.noConfusion, fun _ => herr⟩
  | _ => exact ⟨fun _ => hbusy, fun _ => herr⟩

/-- A transition that does not complete ends in a phase of the command (R26). -/
theorem busyStep_phase_mem (hb : s.state = .busy) (ht : t.state ≠ .idle) : t.phase ∈ phasesOf t.op := by
  have hp := hi.phase_of_op (by rw [hb]; decide)
  cases h with
  | payDone | encDone | maskDone | shaDone | b64Fin | accOut => exact absurd rfl ht
  | hdr0 _ _ ho | hdr1Short _ _ ho | hdr1Ext _ ho | ext0 _ _ ho | ext1 _ _ ho | key0 _ _ ho | key1 _ _ ho
  | key2 _ _ ho | key3 _ _ ho | encHdr7 ho | encHdr16 ho | shaEnd ho | shaFin ho | b64End ho | accEnd ho | accGuid ho
  | accFin ho =>
    simp only [leaveRx_op, ho]
    decide
  | _ => exact hp

/-- The block buffer stays below full (43_sha1.md R164, R168). -/
theorem busyStep_bfill_lt : t.sha.bfill.toNat < 64 := by
  have hlt := hi.bfill_lt
  cases h with
  | shaAbs b | accTok b => exact (absorb_bfill b hlt).trans_lt (Nat.mod_lt _ (by decide))
  | accGuid => exact (absorbAll_bfill guid hlt).trans_lt (Nat.mod_lt _ (by decide))
  | shaFin | accFin =>
    change (shaFinish s.sha).bfill.toNat < 64
    rw [shaFinish_bfill hlt]
    decide
  | _ => exact hlt

/-- The group stays below full (10_state.md R35). -/
theorem busyStep_gfill_le : t.b64.gfill.toNat ≤ 2 := by
  have hle := hi.gfill_le
  cases h with
  | b64Abs b =>
    have hfeed := b64Feed_gfill b hle
    change (b64Feed b s.b64).1.gfill.toNat ≤ 2
    omega
  | accOut u _ _ _ hu =>
    have hfeed := b64FeedAll_gfill (digestBytes s.sha.h) (u := b64Init s.b64) (Nat.zero_le 2)
    rw [← hu] at hfeed
    change u.gfill.toNat ≤ 2
    omega
  | _ => exact hle

end

/-! ### The counters -/

/-- A count that has not reached its end goes on by one and stays within it (R27). -/
theorem idx_succ {idx len : W32} (hle : idx.toNat ≤ len.toNat) (hne : idx ≠ len) :
    (idx + 1).toNat = idx.toNat + 1 ∧ idx.toNat < len.toNat := by
  have hlt : idx.toNat < len.toNat := lt_of_le_of_ne hle fun h => hne (BitVec.eq_of_toNat_eq h)
  have hlen := len.isLt
  refine ⟨?_, hlt⟩
  rw [BitVec.toNat_add, show (1 : W32).toNat = 1 from rfl]
  omega

/-- The counters of the absorbing phases, one byte on (43_sha1.md R164). -/
theorem absorb_counts {u : ShaUnit} {idx len : W32} (b : Byte) (hbfill : u.bfill.toNat = idx.toNat % 64)
    (hmlen : u.mlen.toNat = idx.toNat) (hle : idx.toNat ≤ len.toNat) (hne : idx ≠ len) :
    (idx + 1).toNat ≤ len.toNat ∧ (absorb b u).mlen.toNat = (idx + 1).toNat ∧
      (absorb b u).bfill.toNat = (idx + 1).toNat % 64 := by
  obtain ⟨hsucc, hlt⟩ := idx_succ hle hne
  have hmlen' : (u.mlen + 1).toNat = u.mlen.toNat + 1 := by
    rw [BitVec.toNat_add, show (1 : W64).toNat = 1 from rfl]
    omega
  rw [absorb_bfill b (by omega), absorb_mlen, hmlen', hsucc]
  omega

/-- The counters of `B_ABS`, one byte on (44_base64.md R191, R193). -/
theorem b64Feed_counts {u : B64Unit} {idx ocnt len : W32} (b : Byte) (hgfill : u.gfill.toNat = idx.toNat % 3)
    (hocnt : ocnt = BitVec.ofNat 32 (4 * (idx.toNat / 3))) (hle : idx.toNat ≤ len.toNat) (hne : idx ≠ len) :
    (idx + 1).toNat ≤ len.toNat ∧ (b64Feed b u).1.gfill.toNat = (idx + 1).toNat % 3 ∧
      ocnt + BitVec.ofNat 32 (b64Feed b u).2.length = BitVec.ofNat 32 (4 * ((idx + 1).toNat / 3)) := by
  obtain ⟨hsucc, hlt⟩ := idx_succ hle hne
  have hcount : 4 * (idx.toNat / 3) + (b64Feed b u).2.length = 4 * ((idx.toNat + 1) / 3) := by
    rw [b64Feed_length]
    split_ifs with h2
    · rw [h2, show (2 : BitVec 2).toNat = 2 from rfl] at hgfill
      omega
    · have hne2 : u.gfill.toNat ≠ 2 := fun h => h2 (BitVec.eq_of_toNat_eq h)
      omega
  refine ⟨by omega, ?_, ?_⟩
  · rw [b64Feed_gfill b (by omega), hsucc]
    omega
  · rw [hocnt, ← BitVec.ofNat_add, hcount, hsucc]

section
variable {s : State}

theorem progress_dPay (hp : s.phase = .dPay) : Progress s ↔ s.idx.toNat ≤ s.plen.toNat ∧ s.ocnt = s.idx := by
  rw [Progress, hp]

theorem progress_ePay (hp : s.phase = .ePay) :
    Progress s ↔ s.idx.toNat ≤ s.len.toNat ∧ s.len.toNat ≤ 65535 ∧
      s.ocnt.toNat = s.idx.toNat + (if s.len.toNat ≤ 125 then 2 else 4) := by
  rw [Progress, hp]

theorem progress_mPay (hp : s.phase = .mPay) : Progress s ↔ s.idx.toNat ≤ s.len.toNat ∧ s.ocnt = s.idx := by
  rw [Progress, hp]

theorem progress_absorbing (hp : s.phase = .sAbs ∨ s.phase = .aTok) :
    Progress s ↔ s.idx.toNat ≤ s.len.toNat ∧ s.ocnt = 0 ∧ s.sha.mlen.toNat = s.idx.toNat ∧
      s.sha.bfill.toNat = s.idx.toNat % 64 := by
  rcases hp with hp | hp <;> rw [Progress, hp]

theorem progress_sOut (hp : s.phase = .sOut) :
    Progress s ↔ s.idx.toNat ≤ 20 ∧ s.ocnt = s.idx ∧ s.sha.bfill = 0 := by
  rw [Progress, hp]

theorem progress_bAbs (hp : s.phase = .bAbs) :
    Progress s ↔ s.idx.toNat ≤ s.len.toNat ∧ s.b64.gfill.toNat = s.idx.toNat % 3 ∧
      s.ocnt = BitVec.ofNat 32 (4 * (s.idx.toNat / 3)) := by
  rw [Progress, hp]

end

/-- Every transition of a busy block keeps the counters in step (R22, R27, R28). -/
theorem busyStep_progress {s t : State} (hi : Inv s) (hb : s.state = .busy) (h : BusyStep s t) (ht : t.state = .busy) :
    Progress t := by
  have hprog := hi.progress hb
  have hbfill := hi.bfill_lt
  cases h with
  | rxShort | hinShort | hdr0Bad | hdr1Unmasked | hdr1Long | encTooLong | illegalOp | payDone | encDone | maskDone
  | shaDone | b64Fin | accOut => exact Seq.noConfusion ht
  | rxHold | hinHold => exact hprog
  | hdr0 _ _ _ hp | hdr1Short _ _ _ hp | ext0 _ _ _ hp | key0 _ _ _ hp | key1 _ _ _ hp | key2 _ _ _ hp =>
    rw [Progress, hp] at hprog
    exact hprog
  | hdr1Ext _ _ hp =>
    rw [Progress, hp] at hprog
    exact ⟨hprog.1, hprog.2, rfl⟩
  | ext1 _ _ _ hp =>
    rw [Progress, hp] at hprog
    obtain ⟨hidx, hocnt, -⟩ := hprog
    exact ⟨hidx, hocnt⟩
  | key3 _ _ _ hp =>
    rw [Progress, hp] at hprog
    obtain ⟨hidx, hocnt⟩ := hprog
    exact ⟨(congrArg BitVec.toNat hidx).trans_le (Nat.zero_le _), hocnt.trans hidx.symm⟩
  | pay _ _ _ hp hne =>
    obtain ⟨hle, hocnt⟩ := (progress_dPay hp).mp hprog
    have hplen : (s.plen.setWidth 32).toNat = s.plen.toNat := BitVec.toNat_setWidth_of_le (by decide)
    obtain ⟨hsucc, hlt⟩ := idx_succ (hplen ▸ hle) hne
    refine (progress_dPay (by exact hp)).mpr ⟨?_, congrArg (· + 1) hocnt⟩
    rw [hplen] at hlt
    exact hsucc.trans_le hlt
  | encHdr7 _ hp h7 =>
    rw [Progress, hp] at hprog
    obtain ⟨hidx, hocnt⟩ := hprog
    refine (progress_ePay rfl).mpr ⟨?_, h7.trans (by decide), ?_⟩
    · exact (congrArg BitVec.toNat hidx).trans_le (Nat.zero_le _)
    · rw [if_pos h7, hidx, hocnt]
      rfl
  | encHdr16 _ hp h125 h16 =>
    rw [Progress, hp] at hprog
    obtain ⟨hidx, hocnt⟩ := hprog
    refine (progress_ePay rfl).mpr ⟨?_, h16, ?_⟩
    · exact (congrArg BitVec.toNat hidx).trans_le (Nat.zero_le _)
    · rw [if_neg (Nat.not_le.mpr h125), hidx, hocnt]
      rfl
  | encPay _ _ _ hp hne =>
    obtain ⟨hle, hmax, hocnt⟩ := (progress_ePay hp).mp hprog
    obtain ⟨hsucc, hlt⟩ := idx_succ hle hne
    refine (progress_ePay (by exact hp)).mpr ⟨hsucc.trans_le hlt, hmax, ?_⟩
    change (s.ocnt + 1).toNat = (s.idx + 1).toNat + _
    rw [hsucc, BitVec.toNat_add, show (1 : W32).toNat = 1 from rfl, hocnt]
    change _ = _ + ite (s.len.toNat ≤ 125) 2 4
    split_ifs <;> omega
  | maskPay _ _ _ hp hne =>
    obtain ⟨hle, hocnt⟩ := (progress_mPay hp).mp hprog
    obtain ⟨hsucc, hlt⟩ := idx_succ hle hne
    exact (progress_mPay (by exact hp)).mpr ⟨hsucc.trans_le hlt, congrArg (· + 1) hocnt⟩
  | shaAbs b _ _ hp hne =>
    obtain ⟨hle, hocnt, hmlen, hfill⟩ := (progress_absorbing (.inl hp)).mp hprog
    obtain ⟨hle', hmlen', hfill'⟩ := absorb_counts b hfill hmlen hle hne
    exact (progress_absorbing (.inl (by exact hp))).mpr ⟨hle', hocnt, hmlen', hfill'⟩
  | accTok b _ _ hp hne =>
    obtain ⟨hle, hocnt, hmlen, hfill⟩ := (progress_absorbing (.inr hp)).mp hprog
    obtain ⟨hle', hmlen', hfill'⟩ := absorb_counts b hfill hmlen hle hne
    exact (progress_absorbing (.inr (by exact hp))).mpr ⟨hle', hocnt, hmlen', hfill'⟩
  | shaEnd _ hp hidx =>
    obtain ⟨-, hocnt, hmlen, hfill⟩ := (progress_absorbing (.inl hp)).mp hprog
    rw [hidx] at hmlen hfill
    exact ⟨hidx, hocnt, hmlen, hfill⟩
  | accEnd _ hp hidx =>
    obtain ⟨-, hocnt, hmlen, hfill⟩ := (progress_absorbing (.inr hp)).mp hprog
    rw [hidx] at hmlen hfill
    exact ⟨hidx, hocnt, hmlen, hfill⟩
  | shaFin _ hp =>
    rw [Progress, hp] at hprog
    obtain ⟨-, hocnt, -⟩ := hprog
    have hempty := shaFinish_bfill hbfill
    exact ⟨Nat.zero_le _, hocnt, hempty⟩
  | shaOut _ hp hne =>
    obtain ⟨hle, hocnt, hfill⟩ := (progress_sOut hp).mp hprog
    obtain ⟨hsucc, hlt⟩ := idx_succ (len := 20) hle hne
    exact (progress_sOut (by exact hp)).mpr ⟨hsucc.trans_le hlt, congrArg (· + 1) hocnt, hfill⟩
  | b64Abs b _ _ hp hne =>
    obtain ⟨hle, hgfill, hocnt⟩ := (progress_bAbs hp).mp hprog
    exact (progress_bAbs (by exact hp)).mpr (b64Feed_counts b hgfill hocnt hle hne)
  | b64End _ hp hidx =>
    obtain ⟨-, hgfill, hocnt⟩ := (progress_bAbs hp).mp hprog
    exact ⟨hidx, hgfill, hocnt⟩
  | accGuid _ hp =>
    rw [Progress, hp] at hprog
    obtain ⟨hidx, hocnt, hmlen, hfill⟩ := hprog
    refine ⟨hidx, hocnt, ?_, ?_⟩
    · change (absorbAll guid s.sha).mlen.toNat = s.len.toNat + 36
      rw [absorbAll_mlen, guid_length, BitVec.toNat_add, hmlen]
      have := s.len.isLt
      exact Nat.mod_eq_of_lt (by simp; omega)
    · change (absorbAll guid s.sha).bfill.toNat = (s.len.toNat + 36) % 64
      rw [absorbAll_bfill _ hbfill, guid_length, hfill, Nat.mod_add_mod]
  | accFin _ hp =>
    rw [Progress, hp] at hprog
    obtain ⟨hidx, hocnt, -⟩ := hprog
    have hempty := shaFinish_bfill hbfill
    exact ⟨hidx, hocnt, hempty⟩

/-! ### Every step -/

/-- The block's turn keeps the invariant. -/
theorem inv_blockStep {s t : State} (hi : Inv s) (h : blockStep s = .next t) : Inv t := by
  rcases blockStep_cases h with ⟨hs, w, rest, -, rfl⟩ | ⟨-, -, rfl⟩ | ⟨hb, hbs⟩ | ⟨-, rfl⟩
  · obtain ⟨herr, hidle, hphase, hbfill, hgfill, hprog⟩ := hi
    exact inv_accepted (s := { s with cmds := rest }) ⟨herr, hidle, hphase, hbfill, hgfill, hprog⟩ hs w
  · exact hi
  · exact
      { err_none_iff := busyStep_err_none_iff hi hbs hb
        idle_phase := fun ht => by
          rcases busyStep_state_cases hb hbs with hbusy | ⟨-, hphase, -⟩ | ⟨hfault, -⟩
          · exact Seq.noConfusion (hbusy.symm.trans ht)
          · exact hphase
          · exact Seq.noConfusion (hfault.symm.trans ht)
        phase_of_op := busyStep_phase_mem hi hbs hb
        bfill_lt := busyStep_bfill_lt hi hbs
        gfill_le := busyStep_gfill_le hi hbs
        progress := busyStep_progress hi hb hbs }
  · exact hi

/-- Settles O55: the block's turn by `inv_blockStep`, the environment's by `inv_agentMove`. -/
theorem stepKeepsTheInvariant : Obligations.StepKeepsTheInvariant := by
  intro s t hi h
  rcases step_cases h with ⟨s0, hturn, hblock⟩ | ⟨m, rest, -, -, rfl⟩
  · refine inv_blockStep ?_ hblock
    rcases hturn with ⟨-, rfl⟩ | ⟨rest, -, rfl⟩
    · exact hi
    · exact inv_agentMove hi .block rest
  · exact inv_agentMove hi m rest

/-! ### The block never stops, and waits only where it must -/

/-- In a phase of its command that needs no byte, a busy block has a transition. -/
theorem exists_busyStep_takesNone {s : State} (hp : s.phase ∈ phasesOf s.op) (hrx : needsRx s = false)
    (hhin : needsHin s = false) : ∃ t, BusyStep s t := by
  have ho := op_of_phase _ _ hp
  cases h : s.phase <;>
    simp only [needsRx, needsHin, h, Bool.true_eq_false, bne_eq_false_iff_eq] at hrx hhin ho
  case pIdle => exact ⟨_, .illegalOp ho h⟩
  case dPay => exact ⟨_, .payDone ho h hrx⟩
  case eHdr =>
    by_cases hfits : s.len.toNat ≤ 65535
    · exact ⟨_, busyStep_outHeader ho h hfits⟩
    · exact ⟨_, .encTooLong ho h (Nat.lt_of_not_le hfits)⟩
  case ePay => exact ⟨_, .encDone ho h hhin⟩
  case mPay => exact ⟨_, .maskDone ho h hhin⟩
  case sAbs => exact ⟨_, .shaEnd ho h hhin⟩
  case sFin => exact ⟨_, .shaFin ho h⟩
  case sOut =>
    by_cases h20 : s.idx = 20
    · exact ⟨_, .shaDone ho h h20⟩
    · exact ⟨_, .shaOut ho h h20⟩
  case bAbs => exact ⟨_, .b64End ho h hhin⟩
  case bFin => exact ⟨_, .b64Fin ho h⟩
  case aTok => exact ⟨_, .accEnd ho h hhin⟩
  case aGuid => exact ⟨_, .accGuid ho h⟩
  case aFin => exact ⟨_, .accFin ho h⟩
  case aOut => exact ⟨_, .accOut _ _ ho h rfl rfl⟩

/-- In every phase of its command, a busy block has a transition. -/
theorem exists_busyStep {s : State} (hp : s.phase ∈ phasesOf s.op) : ∃ t, BusyStep s t := by
  cases hrx : needsRx s with
  | true =>
    cases hq : s.rx.queue with
    | cons b rest =>
      obtain ⟨t, ht, -⟩ := exists_busyStep_takesRx hp hrx hq
      exact ⟨t, ht⟩
    | nil =>
      cases hc : s.rx.closed with
      | true => exact ⟨_, .rxShort hrx hq hc⟩
      | false => exact ⟨_, .rxHold hrx hq hc⟩
  | false =>
    cases hhin : needsHin s with
    | true =>
      cases hq : s.hin.queue with
      | cons b rest =>
        obtain ⟨t, ht, -⟩ := exists_busyStep_takesHin hp hhin hq
        exact ⟨t, ht⟩
      | nil =>
        cases hc : s.hin.closed with
        | true => exact ⟨_, .hinShort hhin hq hc⟩
        | false => exact ⟨_, .hinHold hhin hq hc⟩
    | false => exact exists_busyStep_takesNone hp hrx hhin

/-- With the phase one of the command's, the block's turn answers a next state. -/
theorem exists_blockStep {s : State} (hp : s.state ≠ .idle → s.phase ∈ phasesOf s.op) : ∃ t, blockStep s = .next t := by
  cases hs : s.state with
  | idle =>
    cases hc : s.cmds with
    | nil => exact ⟨s, blockStep_rest hs hc⟩
    | cons w rest => exact ⟨_, (blockStep_idle hs hc).trans (exec_accepts (by exact hs) w)⟩
  | busy =>
    have hmem := hp (by rw [hs]; decide)
    obtain ⟨t, ht⟩ := exists_busyStep hmem
    exact ⟨t, blockStep_of_busyStep hs hmem ht⟩
  | fault => exact ⟨s, blockStep_fault hs⟩

/-- Settles O56: the block's turn by `exists_blockStep`; a move of the environment always answers. -/
theorem invariantNeverStops : Obligations.InvariantNeverStops := by
  intro s hi
  cases hs : s.sched with
  | nil =>
    rw [step_nil hs]
    exact exists_blockStep hi.phase_of_op
  | cons m rest =>
    by_cases hm : m = .block
    · rw [step_block (hm ▸ hs)]
      exact exists_blockStep hi.phase_of_op
    · exact ⟨_, step_move hs hm⟩

/-- A transition that changes nothing is a hold on an input port (20_memory.md R53). -/
theorem busyStep_self {s t : State} (hb : s.state = .busy) (h : BusyStep s t) (hts : t = s) :
    (needsRx s = true ∧ s.rx.queue = [] ∧ s.rx.closed = false) ∨
      (needsHin s = true ∧ s.hin.queue = [] ∧ s.hin.closed = false) := by
  have hstate := congrArg State.state hts
  have hphase := congrArg State.phase hts
  have hrx := congrArg (·.rx.queue) hts
  have hhin := congrArg (·.hin.queue) hts
  cases h with
  | rxHold hn hq hc => exact .inl ⟨hn, hq, hc⟩
  | hinHold hn hq hc => exact .inr ⟨hn, hq, hc⟩
  | rxShort | hinShort | hdr0Bad | hdr1Unmasked | hdr1Long | encTooLong | illegalOp | payDone | encDone | maskDone
  | shaDone | b64Fin | accOut => exact Seq.noConfusion (hstate.trans hb)
  | hdr0 _ _ _ hp | hdr1Short _ _ _ hp | hdr1Ext _ _ hp | ext0 _ _ _ hp | ext1 _ _ _ hp | key0 _ _ _ hp
  | key1 _ _ _ hp | key2 _ _ _ hp | key3 _ _ _ hp | encHdr7 _ hp | encHdr16 _ hp | shaEnd _ hp | shaFin _ hp
  | b64End _ hp | accEnd _ hp | accGuid _ hp | accFin _ hp => exact Phase.noConfusion (hphase.trans hp)
  | pay b rest _ _ _ hq => exact absurd (hrx.trans hq) (List.cons_ne_self b rest).symm
  | encPay b rest _ _ _ hq | maskPay b rest _ _ _ hq | shaAbs b rest _ _ _ hq | b64Abs b rest _ _ _ hq
  | accTok b rest _ _ _ hq => exact absurd (hhin.trans hq) (List.cons_ne_self b rest).symm
  | shaOut => exact absurd (congrArg State.hout hts) (by simp)

/-- Settles O57: a turn of the block that changes nothing is a rest, `FAULT`, or by `busyStep_self` a hold. -/
theorem blockWaitsExactlyWhenItMust : Obligations.BlockWaitsExactlyWhenItMust := by
  intro s hi hs
  rw [step_nil hs]
  constructor
  · intro h
    rcases blockStep_cases h with ⟨hidle, w, rest, -, hts⟩ | ⟨hidle, hc, -⟩ | ⟨hb, hbs⟩ | ⟨hf, -⟩
    · exact Seq.noConfusion (hidle.symm.trans (congrArg State.state hts))
    · exact .inr (.inr ⟨hidle, hc⟩)
    · exact .inl ⟨hb, busyStep_self hb hbs rfl⟩
    · exact .inr (.inl hf)
  · rintro (⟨hb, hhold⟩ | hf | ⟨hidle, hc⟩)
    · have hp := hi.phase_of_op (by rw [hb]; decide)
      rcases hhold with ⟨hn, hq, hc⟩ | ⟨hn, hq, hc⟩
      · exact blockStep_of_busyStep hb hp (.rxHold hn hq hc)
      · exact blockStep_of_busyStep hb hp (.hinHold hn hq hc)
    · exact blockStep_fault hf
    · exact blockStep_rest hidle hc

end Sys2Proof.Machine

/-! PROOFS. What executing a command leaves unchanged (40_frame_parser.md section 6, 41_frame_encoder.md section 7,
10_state.md sections 3 and 4): first what a word that is taken or ignored keeps, then which transition of a busy block
writes which register or port, and last which registers and ports a command does not read. -/

namespace Sys2Proof.Machine

/-! ### A word that is taken, or ignored -/

theorem accepted_key {w : W72} (h : cmdOp w ≠ 0x03) (s : State) : (accepted w s).key = s.key := if_neg h

theorem accepted_sha {w : W72} (h4 : cmdOp w ≠ 0x04) (h6 : cmdOp w ≠ 0x06) (s : State) :
    (accepted w s).sha = s.sha := if_neg fun h => h.elim h4 h6

theorem accepted_b64 {w : W72} (h : cmdOp w ≠ 0x05) (s : State) : (accepted w s).b64 = s.b64 := if_neg h

theorem ne_idle_of_ignored {w : W72} {s : State} (h : Ignored w s) : s.state ≠ .idle := by
  rcases h with hf | ⟨hb, -⟩
  · rw [hf]; decide
  · rw [hb]; decide

/-! ### Which transition writes what -/

section
variable {s t : State} (h : BusyStep s t)
include h

/-- `In(RX)` takes at most the head byte (20_memory.md R53). -/
theorem busyStep_takes_rx : ∃ taken, s.rx.queue = taken ++ t.rx.queue ∧ taken.length ≤ 1 := by
  cases h with
  | hdr0 b _ _ _ hq | hdr0Bad b _ _ _ hq | hdr1Unmasked b _ _ _ hq | hdr1Short b _ _ _ hq | hdr1Ext _ _ _ hq
  | hdr1Long _ _ _ hq | ext0 b _ _ _ hq | ext1 b _ _ _ hq | key0 b _ _ _ hq | key1 b _ _ _ hq | key2 b _ _ _ hq
  | key3 b _ _ _ hq | pay b _ _ _ _ hq => exact ⟨[_], hq, le_rfl⟩
  | _ => exact ⟨[], rfl, Nat.zero_le 1⟩

/-- `In(HIN)` takes at most the head byte (R53). -/
theorem busyStep_takes_hin : ∃ taken, s.hin.queue = taken ++ t.hin.queue ∧ taken.length ≤ 1 := by
  cases h with
  | encPay b _ _ _ _ hq | maskPay b _ _ _ _ hq | shaAbs b _ _ _ _ hq | b64Abs b _ _ _ _ hq | accTok b _ _ _ _ hq =>
    exact ⟨[_], hq, le_rfl⟩
  | _ => exact ⟨[], rfl, Nat.zero_le 1⟩

/-- `Out(TX)` appends at the tail (R54). -/
theorem busyStep_tx_grows : ∃ out, t.tx = s.tx ++ out := by
  cases h with
  | encHdr7 | encHdr16 | encPay => exact ⟨_, rfl⟩
  | _ => exact ⟨[], (List.append_nil _).symm⟩

/-- `Out(HOUT)` appends at the tail (R54). -/
theorem busyStep_hout_grows : ∃ out, t.hout = s.hout ++ out := by
  cases h with
  | pay | maskPay | shaOut | b64Abs | b64Fin | accOut => exact ⟨_, rfl⟩
  | _ => exact ⟨[], (List.append_nil _).symm⟩

/-- Only `DECODE` takes bytes off `RX` and writes `KEY` and the header registers (10_state.md section 3). -/
theorem busyStep_keeps_decoder (ho : s.op ≠ 0x01) :
    t.rx = s.rx ∧ t.key = s.key ∧ t.hdr0 = s.hdr0 ∧ t.hdr1 = s.hdr1 ∧ t.plen = s.plen := by
  cases h with
  | hdr0 _ _ h1 | hdr0Bad _ _ h1 | hdr1Unmasked _ _ h1 | hdr1Short _ _ h1 | hdr1Ext _ h1 | hdr1Long _ h1
  | ext0 _ _ h1 | ext1 _ _ h1 | key0 _ _ h1 | key1 _ _ h1 | key2 _ _ h1 | key3 _ _ h1 | pay _ _ h1 => exact absurd h1 ho
  | _ => exact ⟨rfl, rfl, rfl, rfl, rfl⟩

/-- Only `ENCODE` puts bytes on `TX`. -/
theorem busyStep_keeps_tx (ho : s.op ≠ 0x02) : t.tx = s.tx := by
  cases h with
  | encHdr7 h2 | encHdr16 h2 | encPay _ _ h2 => exact absurd h2 ho
  | _ => rfl

/-- `DECODE` takes no byte off `HIN`. -/
theorem busyStep_keeps_hin (ho : s.op = 0x01) : t.hin = s.hin := by
  cases h with
  | encPay _ _ h2 | maskPay _ _ h2 | shaAbs _ _ h2 | b64Abs _ _ h2 | accTok _ _ h2 =>
    exact absurd (ho.symm.trans h2) (by decide)
  | _ => rfl

/-- `ENCODE` puts no byte on `HOUT`. -/
theorem busyStep_keeps_hout (ho : s.op = 0x02) : t.hout = s.hout := by
  cases h with
  | pay _ _ h2 | maskPay _ _ h2 | shaOut h2 | b64Abs _ _ h2 | b64Fin h2 | accOut _ _ h2 =>
    exact absurd (ho.symm.trans h2) (by decide)
  | _ => rfl

/-- Only `SHA1` and `ACCEPT` write the SHA-1 registers (10_state.md section 4). -/
theorem busyStep_keeps_sha (h4 : s.op ≠ 0x04) (h6 : s.op ≠ 0x06) : t.sha = s.sha := by
  cases h with
  | shaAbs _ _ ho | shaFin ho => exact absurd ho h4
  | accTok _ _ ho | accGuid ho | accFin ho => exact absurd ho h6
  | _ => rfl

/-- Only `B64` and `ACCEPT` write the base64 registers (10_state.md section 4). -/
theorem busyStep_keeps_b64 (h5 : s.op ≠ 0x05) (h6 : s.op ≠ 0x06) : t.b64 = s.b64 := by
  cases h with
  | b64Abs _ _ ho => exact absurd ho h5
  | accOut _ _ ho => exact absurd ho h6
  | _ => rfl

/-- `HDR0` is written in `D_HDR0` only. -/
theorem busyStep_hdr0 (hne : s.phase ≠ .dHdr0) : t.hdr0 = s.hdr0 := by
  cases h with
  | hdr0 _ _ _ hp | hdr0Bad _ _ _ hp => exact absurd hp hne
  | _ => rfl

/-- `HDR1` is written in `D_HDR1` only. -/
theorem busyStep_hdr1 (hne : s.phase ≠ .dHdr1) : t.hdr1 = s.hdr1 := by
  cases h with
  | hdr1Unmasked _ _ _ hp | hdr1Short _ _ _ hp | hdr1Ext _ _ hp | hdr1Long _ _ hp => exact absurd hp hne
  | _ => rfl

/-- `PLEN` is written in `D_HDR1`, `D_EXT0` and `D_EXT1` only. -/
theorem busyStep_plen (h1 : s.phase ≠ .dHdr1) (h2 : s.phase ≠ .dExt0) (h3 : s.phase ≠ .dExt1) : t.plen = s.plen := by
  cases h with
  | hdr1Short _ _ _ hp | hdr1Ext _ _ hp => exact absurd hp h1
  | ext0 _ _ _ hp => exact absurd hp h2
  | ext1 _ _ _ hp => exact absurd hp h3
  | _ => rfl

/-- A step writes `KEY` in `D_KEY0` to `D_KEY3` only. -/
theorem busyStep_key (h0 : s.phase ≠ .dKey0) (h1 : s.phase ≠ .dKey1) (h2 : s.phase ≠ .dKey2) (h3 : s.phase ≠ .dKey3) :
    t.key = s.key := by
  cases h with
  | key0 _ _ _ hp => exact absurd hp h0
  | key1 _ _ _ hp => exact absurd hp h1
  | key2 _ _ _ hp => exact absurd hp h2
  | key3 _ _ _ hp => exact absurd hp h3
  | _ => rfl

/-- `DECODE` puts bytes out and counts in `D_PAY` only. -/
theorem decodeStep_output (ho : s.op = 0x01) (hne : s.phase ≠ .dPay) :
    t.hout = s.hout ∧ t.idx = s.idx ∧ t.ocnt = s.ocnt := by
  cases h with
  | pay _ _ _ hp => exact absurd hp hne
  | encHdr7 h2 | encHdr16 h2 | encPay _ _ h2 | maskPay _ _ h2 | shaAbs _ _ h2 | shaFin h2 | shaOut h2 | b64Abs _ _ h2
  | b64Fin h2 | accTok _ _ h2 | accOut _ _ h2 => exact absurd (ho.symm.trans h2) (by decide)
  | _ => exact ⟨rfl, rfl, rfl⟩

end

/-! ### What a command does not read -/

/-- A phase that needs a byte of `RX` is one of `DECODE` (40_frame_parser.md R101). -/
theorem op_of_needsRx {s : State} (hp : s.phase ∈ phasesOf s.op) (h : needsRx s = true) : s.op = 0x01 := by
  have ho := op_of_phase _ _ hp
  unfold needsRx at h
  cases hq : s.phase <;> rw [hq] at h ho
  case dHdr0 | dHdr1 | dExt0 | dExt1 | dKey0 | dKey1 | dKey2 | dKey3 | dPay => exact ho
  all_goals exact Bool.noConfusion h

/-- No phase of `DECODE` needs a byte of `HIN`. -/
theorem op_of_needsHin {s : State} (hp : s.phase ∈ phasesOf s.op) (h : needsHin s = true) : s.op ≠ 0x01 := by
  have ho := op_of_phase _ _ hp
  unfold needsHin at h
  cases hq : s.phase <;> rw [hq] at h ho
  case ePay | mPay | sAbs | bAbs | aTok =>
    rw [ho]
    decide
  all_goals exact Bool.noConfusion h

/-- A transition of `DECODE` does not depend on `LEN` (40_frame_parser.md section 6). -/
theorem decodeStep_len {s t : State} (ho : s.op = 0x01) (hp : s.phase ∈ phasesOf s.op) (h : BusyStep s t) (x : W32) :
    BusyStep { s with len := x } { t with len := x } := by
  cases h with
  | rxShort hn hq hc => exact .rxShort hn hq hc
  | rxHold hn hq hc => exact .rxHold hn hq hc
  | hinShort hn | hinHold hn => exact absurd ho (op_of_needsHin hp hn)
  | hdr0 b rest _ hp hq hs => exact .hdr0 b rest ho hp hq hs
  | hdr0Bad b rest _ hp hq hs hn => exact .hdr0Bad b rest ho hp hq hs hn
  | hdr1Unmasked b rest _ hp hq hm => exact .hdr1Unmasked b rest ho hp hq hm
  | hdr1Short b rest _ hp hq hm h7 => exact .hdr1Short b rest ho hp hq hm h7
  | hdr1Ext rest _ hp hq => exact .hdr1Ext rest ho hp hq
  | hdr1Long rest _ hp hq => exact .hdr1Long rest ho hp hq
  | ext0 b rest _ hp hq => exact .ext0 b rest ho hp hq
  | ext1 b rest _ hp hq => exact .ext1 b rest ho hp hq
  | key0 b rest _ hp hq => exact .key0 b rest ho hp hq
  | key1 b rest _ hp hq => exact .key1 b rest ho hp hq
  | key2 b rest _ hp hq => exact .key2 b rest ho hp hq
  | key3 b rest _ hp hq => exact .key3 b rest ho hp hq
  | pay b rest _ hp hi hq => exact .pay b rest ho hp hi hq
  | payDone _ hp hi => exact .payDone ho hp hi
  | illegalOp h0 => exact absurd (ho ▸ h0) (by decide)
  | _ => exact absurd (ho.symm.trans ‹s.op = _›) (by decide)

/-- `s` with other values in the decoder's registers and another `RX`. -/
def withDecoder (k : Key) (a b : Byte) (n : W16) (p : InPort) (s : State) : State :=
  { s with key := k, hdr0 := a, hdr1 := b, plen := n, rx := p }

/-- A transition of `ENCODE` does not depend on the decoder's registers nor on `RX` (41_frame_encoder.md section 7). -/
theorem encodeStep_withDecoder {s t : State} (ho : s.op = 0x02) (hp : s.phase ∈ phasesOf s.op) (h : BusyStep s t)
    (k : Key) (a b : Byte) (n : W16) (p : InPort) :
    BusyStep (withDecoder k a b n p s) (withDecoder k a b n p t) := by
  cases h with
  | rxShort hn | rxHold hn => exact absurd (ho.symm.trans (op_of_needsRx hp hn)) (by decide)
  | hinShort hn hq hc => exact .hinShort hn hq hc
  | hinHold hn hq hc => exact .hinHold hn hq hc
  | encTooLong _ hp hl => exact .encTooLong ho hp hl
  | encHdr7 _ hp h7 => exact .encHdr7 ho hp h7
  | encHdr16 _ hp h7 h16 => exact .encHdr16 ho hp h7 h16
  | encPay b rest _ hp hi hq => exact .encPay b rest ho hp hi hq
  | encDone _ hp hi => exact .encDone ho hp hi
  | illegalOp h0 => exact absurd (ho ▸ h0) (by decide)
  | _ => exact absurd (ho.symm.trans ‹s.op = _›) (by decide)

/-! ### The commands -/

/-- Settles O17: a taken word, a transition of `DECODE`, or an ignored word. -/
theorem decodeFrame : Obligations.DecodeFrame := by
  intro len key s t h
  have hw : decodeWord (cmdWord 0x01 len key) = .decode len key := decodeWord_cmdWord 0x01 len key
  rcases exec_command_cases hw h with ⟨hs, rfl⟩ | ⟨hb, ho, hp, hbs⟩ | ⟨hig, rfl⟩
  · have hkey : (accepted (cmdWord 0x01 len key) s).key = s.key := accepted_key (by rw [cmdOp_cmdWord]; decide) s
    have hsha : (accepted (cmdWord 0x01 len key) s).sha = s.sha :=
      accepted_sha (by rw [cmdOp_cmdWord]; decide) (by rw [cmdOp_cmdWord]; decide) s
    have hb64 : (accepted (cmdWord 0x01 len key) s).b64 = s.b64 := accepted_b64 (by rw [cmdOp_cmdWord]; decide) s
    have hidle : s.state ≠ .busy := by rw [hs]; decide
    exact ⟨rfl, rfl, hsha, hb64, rfl, rfl, rfl, rfl, ⟨[], rfl, Nat.zero_le 1⟩,
      fun _ => ⟨rfl, rfl, hkey, rfl, rfl, rfl, rfl⟩, fun hne => absurd hs hne, fun hb => absurd hb hidle,
      fun hb => absurd hb hidle, fun hb => absurd hb hidle, fun hb => absurd hb hidle, fun hb => absurd hb hidle,
      fun hb => absurd hb hidle⟩
  · rw [cmdOp_cmdWord] at ho
    obtain ⟨hsched, hcmds, hstrap, hop, hlen, hclosed, -⟩ := busyStep_keeps hbs
    have hlenFree (x : W32) : exec (.decode len key) { s with len := x } = .next { t with len := x } :=
      exec_of_busyStep hw ⟨hb, ho, rfl⟩ (ho ▸ hp) (decodeStep_len ho hp hbs x)
    exact ⟨busyStep_keeps_tx hbs (by rw [ho]; decide), busyStep_keeps_hin hbs ho,
      busyStep_keeps_sha hbs (by rw [ho]; decide) (by rw [ho]; decide),
      busyStep_keeps_b64 hbs (by rw [ho]; decide) (by rw [ho]; decide), hstrap, hcmds, hsched, hclosed,
      busyStep_takes_rx hbs, fun hne => absurd hb hne, fun _ => ⟨hlen, hop⟩, fun _ => busyStep_hdr0 hbs,
      fun _ => busyStep_hdr1 hbs, fun _ => busyStep_plen hbs, fun _ => busyStep_key hbs,
      fun _ => decodeStep_output hbs ho, fun _ => hlenFree⟩
  · have hlenFree (x : W32) : exec (.decode len key) { t with len := x } = .next { t with len := x } :=
      hw ▸ exec_ignored (w := cmdWord 0x01 len key) hig
    exact ⟨rfl, rfl, rfl, rfl, rfl, rfl, rfl, rfl, ⟨[], rfl, Nat.zero_le 1⟩,
      fun _ => ⟨rfl, rfl, rfl, rfl, rfl, rfl, rfl⟩, fun _ => ⟨rfl, rfl⟩, fun _ _ => rfl, fun _ _ => rfl,
      fun _ _ _ _ => rfl, fun _ _ _ _ _ => rfl, fun _ _ => ⟨rfl, rfl, rfl⟩, fun _ => hlenFree⟩

/-- Executing `ENCODE` does not depend on the decoder's registers nor on `RX`. -/
theorem exec_encode_withDecoder {len key : W32} {s t : State} (h : exec (.encode len key) s = .next t)
    (k : Key) (a b : Byte) (n : W16) (p : InPort) :
    exec (.encode len key) (withDecoder k a b n p s) = .next (withDecoder k a b n p t) := by
  have hw : decodeWord (cmdWord 0x02 len key) = .encode len key := decodeWord_cmdWord 0x02 len key
  rcases exec_command_cases hw h with ⟨hs, rfl⟩ | ⟨hb, ho, hp, hbs⟩ | ⟨hig, rfl⟩
  · have hne : cmdOp (cmdWord 0x02 len key) ≠ 0x03 := by rw [cmdOp_cmdWord]; decide
    rw [← hw, exec_accepts (by exact hs), accepted, accepted, if_neg hne, if_neg hne]
    rfl
  · rw [cmdOp_cmdWord] at ho
    exact exec_of_busyStep hw ⟨hb, ho, rfl⟩ (ho ▸ hp) (encodeStep_withDecoder ho hp hbs k a b n p)
  · exact hw ▸ exec_ignored (w := cmdWord 0x02 len key) hig

/-- Settles O24: a taken word, a transition of `ENCODE`, or an ignored word. -/
theorem encodeFrame : Obligations.EncodeFrame := by
  intro len key s t h
  have hfree := exec_encode_withDecoder h
  rcases exec_command_cases (decodeWord_cmdWord 0x02 len key) h with ⟨hs, rfl⟩ | ⟨hb, ho, hp, hbs⟩ | ⟨hig, rfl⟩
  · have hkey : (accepted (cmdWord 0x02 len key) s).key = s.key := accepted_key (by rw [cmdOp_cmdWord]; decide) s
    have hsha : (accepted (cmdWord 0x02 len key) s).sha = s.sha :=
      accepted_sha (by rw [cmdOp_cmdWord]; decide) (by rw [cmdOp_cmdWord]; decide) s
    have hb64 : (accepted (cmdWord 0x02 len key) s).b64 = s.b64 := accepted_b64 (by rw [cmdOp_cmdWord]; decide) s
    exact ⟨rfl, rfl, hkey, rfl, rfl, rfl, hsha, hb64, rfl, rfl, rfl, rfl, ⟨[], rfl, Nat.zero_le 1⟩,
      ⟨[], (List.append_nil _).symm⟩, fun hne => absurd hs hne, fun _ => ⟨rfl, rfl, rfl⟩, hfree⟩
  · rw [cmdOp_cmdWord] at ho
    obtain ⟨hsched, hcmds, hstrap, hop, hlen, -, hclosed⟩ := busyStep_keeps hbs
    obtain ⟨hrx, hkey, hhdr0, hhdr1, hplen⟩ := busyStep_keeps_decoder hbs (by rw [ho]; decide)
    exact ⟨hrx, busyStep_keeps_hout hbs ho, hkey, hhdr0, hhdr1, hplen,
      busyStep_keeps_sha hbs (by rw [ho]; decide) (by rw [ho]; decide),
      busyStep_keeps_b64 hbs (by rw [ho]; decide) (by rw [ho]; decide), hstrap, hcmds, hsched, hclosed,
      busyStep_takes_hin hbs, busyStep_tx_grows hbs, fun _ => ⟨hlen, hop⟩, fun hne => absurd hb hne, hfree⟩
  · exact ⟨rfl, rfl, rfl, rfl, rfl, rfl, rfl, rfl, rfl, rfl, rfl, rfl, ⟨[], rfl, Nat.zero_le 1⟩,
      ⟨[], (List.append_nil _).symm⟩, fun _ => ⟨rfl, rfl⟩, fun _ => ⟨rfl, rfl, rfl⟩, hfree⟩

/-- What the four commands that read `HIN` and write `HOUT` leave alone, by opcode. -/
def HostSideFrame (op : Byte) (s t : State) : Prop :=
  t.rx = s.rx ∧ t.tx = s.tx ∧ t.hdr0 = s.hdr0 ∧ t.hdr1 = s.hdr1 ∧ t.plen = s.plen ∧ t.strictHdr = s.strictHdr ∧
  t.cmds = s.cmds ∧ t.sched = s.sched ∧ t.hin.closed = s.hin.closed ∧
  (∃ taken, s.hin.queue = taken ++ t.hin.queue ∧ taken.length ≤ 1) ∧
  (∃ out, t.hout = s.hout ++ out) ∧
  (op ≠ 0x03 → t.key = s.key) ∧ (s.state ≠ .idle → t.key = s.key ∧ t.len = s.len ∧ t.op = s.op) ∧
  (op ≠ 0x04 → op ≠ 0x06 → t.sha = s.sha) ∧ (op ≠ 0x05 → op ≠ 0x06 → t.b64 = s.b64) ∧
  (s.state ≠ .busy → t.hin = s.hin ∧ t.hout = s.hout ∧ t.err = s.err)

/-- A word with an opcode of none of `DECODE` and `ENCODE` is taken, takes a transition of its command, or is ignored. -/
theorem hostSideFrame_of_exec {w : W72} (h1 : cmdOp w ≠ 0x01) (h2 : cmdOp w ≠ 0x02) {s t : State}
    (h : exec (decodeWord w) s = .next t) : HostSideFrame (cmdOp w) s t := by
  rcases exec_command_cases rfl h with ⟨hs, rfl⟩ | ⟨hb, ho, -, hbs⟩ | ⟨-, rfl⟩
  · exact ⟨rfl, rfl, rfl, rfl, rfl, rfl, rfl, rfl, rfl, ⟨[], rfl, Nat.zero_le 1⟩, ⟨[], (List.append_nil _).symm⟩,
      fun h3 => accepted_key h3 s, fun hne => absurd hs hne, fun h4 h6 => accepted_sha h4 h6 s,
      fun h5 _ => accepted_b64 h5 s, fun _ => ⟨rfl, rfl, rfl⟩⟩
  · obtain ⟨hsched, hcmds, hstrap, hop, hlen, -, hclosed⟩ := busyStep_keeps hbs
    obtain ⟨hrx, hkey, hhdr0, hhdr1, hplen⟩ := busyStep_keeps_decoder hbs (ho ▸ h1)
    exact ⟨hrx, busyStep_keeps_tx hbs (ho ▸ h2), hhdr0, hhdr1, hplen, hstrap, hcmds, hsched, hclosed,
      busyStep_takes_hin hbs, busyStep_hout_grows hbs, fun _ => hkey, fun _ => ⟨hkey, hlen, hop⟩,
      ho ▸ busyStep_keeps_sha hbs, ho ▸ busyStep_keeps_b64 hbs, fun hne => absurd hb hne⟩
  · exact ⟨rfl, rfl, rfl, rfl, rfl, rfl, rfl, rfl, rfl, ⟨[], rfl, Nat.zero_le 1⟩, ⟨[], (List.append_nil _).symm⟩,
      fun _ => rfl, fun _ => ⟨rfl, rfl, rfl⟩, fun _ _ => rfl, fun _ _ => rfl, fun _ => ⟨rfl, rfl, rfl⟩⟩

/-- `hostSideFrame_of_exec`, for an instruction of a known opcode. -/
theorem hostSideFrame_of_command {op : Byte} {len key : W32} {i : Instr} (hi : decodeWord (cmdWord op len key) = i)
    (h1 : op ≠ 0x01) (h2 : op ≠ 0x02) {s t : State} (h : exec i s = .next t) : HostSideFrame op s t := by
  have hop := cmdOp_cmdWord op len key
  have hframe := hostSideFrame_of_exec (w := cmdWord op len key) (by rwa [hop]) (by rwa [hop]) (hi ▸ h)
  rwa [hop] at hframe

/-- Settles O47: `HostSideFrame` at the opcode of each of the four commands. -/
theorem hostSideCommandsFrame : Obligations.HostSideCommandsFrame := by
  intro i len key s t hi h
  rcases hi with rfl | rfl | rfl | rfl
  · obtain ⟨hrx, htx, hhdr0, hhdr1, hplen, hstrap, hcmds, hsched, hclosed, hin, hout, -, hlatched, hsha, hb64, hother⟩ :=
      hostSideFrame_of_command (decodeWord_cmdWord 0x03 len key) (by decide) (by decide) h
    exact ⟨hrx, htx, hhdr0, hhdr1, hplen, hstrap, hcmds, hsched, hclosed, hin, hout, fun hne => absurd rfl hne, hlatched,
      fun _ => hsha (by decide) (by decide), fun _ => hb64 (by decide) (by decide), hother⟩
  · obtain ⟨hrx, htx, hhdr0, hhdr1, hplen, hstrap, hcmds, hsched, hclosed, hin, hout, hkey, hlatched, -, hb64, hother⟩ :=
      hostSideFrame_of_command (decodeWord_cmdWord 0x04 len key) (by decide) (by decide) h
    exact ⟨hrx, htx, hhdr0, hhdr1, hplen, hstrap, hcmds, hsched, hclosed, hin, hout, fun _ => hkey (by decide), hlatched,
      fun hi => hi.elim Instr.noConfusion Instr.noConfusion, fun _ => hb64 (by decide) (by decide), hother⟩
  · obtain ⟨hrx, htx, hhdr0, hhdr1, hplen, hstrap, hcmds, hsched, hclosed, hin, hout, hkey, hlatched, hsha, -, hother⟩ :=
      hostSideFrame_of_command (decodeWord_cmdWord 0x05 len key) (by decide) (by decide) h
    exact ⟨hrx, htx, hhdr0, hhdr1, hplen, hstrap, hcmds, hsched, hclosed, hin, hout, fun _ => hkey (by decide), hlatched,
      fun _ => hsha (by decide) (by decide), fun hi => hi.elim Instr.noConfusion Instr.noConfusion, hother⟩
  · obtain ⟨hrx, htx, hhdr0, hhdr1, hplen, hstrap, hcmds, hsched, hclosed, hin, hout, hkey, hlatched, -, -, hother⟩ :=
      hostSideFrame_of_command (decodeWord_cmdWord 0x06 len key) (by decide) (by decide) h
    exact ⟨hrx, htx, hhdr0, hhdr1, hplen, hstrap, hcmds, hsched, hclosed, hin, hout, fun _ => hkey (by decide), hlatched,
      fun hi => hi.elim Instr.noConfusion Instr.noConfusion, fun hi => hi.elim Instr.noConfusion Instr.noConfusion, hother⟩

end Sys2Proof.Machine

/-! PROOFS. Where the environment's moves fall does not matter (20_memory.md section 7): a move acts on the ports and the
command channel only, and a transition of the block looks no further into them than the head of an input queue. -/

namespace Sys2Proof.Machine

/-! ### Changes of the ports that a step does not see -/

/-- A change of the ports and of the command channel, each on its own. -/
structure PortMap where
  rx   : InPort → InPort := id
  hin  : InPort → InPort := id
  tx   : List Byte → List Byte := id
  hout : List Byte → List Byte := id
  cmds : List W72 → List W72 := id

/-- The state with its ports and its channel changed. -/
def PortMap.apply (f : PortMap) (s : State) : State :=
  { s with rx := f.rx s.rx, hin := f.hin s.hin, tx := f.tx s.tx, hout := f.hout s.hout, cmds := f.cmds s.cmds }

/-- `In` (R53) does not see the change `f` of the port `p`: an empty port it needs is not changed, and the head is taken
before or after the change alike. -/
structure PassesIn (f : InPort → InPort) (needed : Bool) (p : InPort) : Prop where
  empty : needed = true → p.queue = [] → f p = p
  take  : ∀ b rest, p.queue = b :: rest →
    ∃ rest', (f p).queue = b :: rest' ∧ { f p with queue := rest' } = f { p with queue := rest }

/-- `Out` (R54) appends before or after the change `f` of the queue alike. -/
def PassesOut (f : List Byte → List Byte) (q : List Byte) : Prop := ∀ out, f (q ++ out) = f q ++ out

/-- An idle block takes its next word before or after the change `f` of the channel alike (10_state.md R24). -/
structure PassesChannel (f : List W72 → List W72) (s : State) : Prop where
  empty : s.state = .idle → s.cmds = [] → f [] = []
  take  : s.state = .idle → ∀ w rest, s.cmds = w :: rest → f (w :: rest) = w :: f rest

theorem passesIn_id (needed : Bool) (p : InPort) : PassesIn id needed p where
  empty _ _ := rfl
  take _ rest hq := ⟨rest, hq, rfl⟩

theorem passesIn_pushPort (b : Byte) {needed : Bool} {p : InPort} (h : p.queue ≠ [] ∨ needed = false) :
    PassesIn (pushPort b) needed p where
  empty hn hq := absurd hn (by simpa [hq] using h)
  take _ rest hq := by
    obtain ⟨q, closed⟩ := p
    cases closed with
    | true => exact ⟨rest, hq, rfl⟩
    | false => exact ⟨rest ++ [b], congrArg (· ++ [b]) hq, rfl⟩

theorem passesIn_closePort {needed : Bool} {p : InPort} (h : p.queue ≠ [] ∨ needed = false) :
    PassesIn closePort needed p where
  empty hn hq := absurd hn (by simpa [hq] using h)
  take _ rest hq := ⟨rest, hq, rfl⟩

theorem passesOut_id (q : List Byte) : PassesOut id q := fun _ => rfl

theorem passesOut_tail {q : List Byte} (h : q ≠ []) : PassesOut List.tail q := fun _ => List.tail_append_of_ne_nil h

theorem passesChannel_id (s : State) : PassesChannel id s := ⟨fun _ _ => rfl, fun _ _ _ _ => rfl⟩

theorem passesChannel_snoc (w : W72) {s : State} (h : s.state ≠ .idle ∨ s.cmds ≠ []) :
    PassesChannel (· ++ [w]) s where
  empty hs hc := absurd hc (h.resolve_left (not_not_intro hs))
  take _ _ _ _ := rfl

/-- The block's step in `s` does not see the change `f` of the ports. -/
structure PortMap.Passes (f : PortMap) (s : State) : Prop where
  rx   : PassesIn f.rx (needsRx s) s.rx
  hin  : PassesIn f.hin (needsHin s) s.hin
  tx   : PassesOut f.tx s.tx
  hout : PassesOut f.hout s.hout
  cmds : PassesChannel f.cmds s

/-! ### The block's turn commutes with such a change -/

section
variable {f : PortMap} {s t : State} (hf : f.Passes s)
include hf

/-- Taking the head of `RX` commutes with the change. -/
theorem PortMap.Passes.leaveRx {b : Byte} {rest : List Byte} (hq : s.rx.queue = b :: rest) :
    ∃ rest', (f.apply s).rx.queue = b :: rest' ∧ leaveRx rest' (f.apply s) = f.apply (leaveRx rest s) := by
  obtain ⟨rest', hq', hleft⟩ := hf.rx.take b rest hq
  exact ⟨rest', hq', congrArg (fun p => { f.apply s with rx := p }) hleft⟩

/-- Taking the head of `HIN` commutes with the change. -/
theorem PortMap.Passes.leaveHin {b : Byte} {rest : List Byte} (hq : s.hin.queue = b :: rest) :
    ∃ rest', (f.apply s).hin.queue = b :: rest' ∧ leaveHin rest' (f.apply s) = f.apply (leaveHin rest s) := by
  obtain ⟨rest', hq', hleft⟩ := hf.hin.take b rest hq
  exact ⟨rest', hq', congrArg (fun p => { f.apply s with hin := p }) hleft⟩

/-- Appending to `TX` commutes with the change. -/
theorem PortMap.Passes.appendTx (out : List Byte) : (f.apply s).tx ++ out = f.tx (s.tx ++ out) := (hf.tx out).symm

/-- Appending to `HOUT` commutes with the change. -/
theorem PortMap.Passes.appendHout (out : List Byte) : (f.apply s).hout ++ out = f.hout (s.hout ++ out) :=
  (hf.hout out).symm

/-- Every transition is one of the changed state too, to the changed next state. -/
theorem busyStep_apply (h : BusyStep s t) : BusyStep (f.apply s) (f.apply t) := by
  cases h with
  | rxShort hn hq hc =>
    have hrx : (f.apply s).rx = s.rx := hf.rx.empty hn hq
    exact .rxShort hn (hrx ▸ hq) (hrx ▸ hc)
  | rxHold hn hq hc =>
    have hrx : (f.apply s).rx = s.rx := hf.rx.empty hn hq
    exact .rxHold hn (hrx ▸ hq) (hrx ▸ hc)
  | hinShort hn hq hc =>
    have hhin : (f.apply s).hin = s.hin := hf.hin.empty hn hq
    exact .hinShort hn (hhin ▸ hq) (hhin ▸ hc)
  | hinHold hn hq hc =>
    have hhin : (f.apply s).hin = s.hin := hf.hin.empty hn hq
    exact .hinHold hn (hhin ▸ hq) (hhin ▸ hc)
  | hdr0 b rest ho hp hq hs =>
    obtain ⟨rest', hq', hl⟩ := hf.leaveRx hq
    have hstep := BusyStep.hdr0 (s := f.apply s) b rest' ho hp hq' hs
    rw [hl] at hstep
    exact hstep
  | hdr0Bad b rest ho hp hq hs hn =>
    obtain ⟨rest', hq', hl⟩ := hf.leaveRx hq
    have hstep := BusyStep.hdr0Bad (s := f.apply s) b rest' ho hp hq' hs hn
    rw [hl] at hstep
    exact hstep
  | hdr1Unmasked b rest ho hp hq hm =>
    obtain ⟨rest', hq', hl⟩ := hf.leaveRx hq
    have hstep := BusyStep.hdr1Unmasked (s := f.apply s) b rest' ho hp hq' hm
    rw [hl] at hstep
    exact hstep
  | hdr1Short b rest ho hp hq hm h7 =>
    obtain ⟨rest', hq', hl⟩ := hf.leaveRx hq
    have hstep := BusyStep.hdr1Short (s := f.apply s) b rest' ho hp hq' hm h7
    rw [hl] at hstep
    exact hstep
  | hdr1Ext rest ho hp hq =>
    obtain ⟨rest', hq', hl⟩ := hf.leaveRx hq
    have hstep := BusyStep.hdr1Ext (s := f.apply s) rest' ho hp hq'
    rw [hl] at hstep
    exact hstep
  | hdr1Long rest ho hp hq =>
    obtain ⟨rest', hq', hl⟩ := hf.leaveRx hq
    have hstep := BusyStep.hdr1Long (s := f.apply s) rest' ho hp hq'
    rw [hl] at hstep
    exact hstep
  | ext0 b rest ho hp hq =>
    obtain ⟨rest', hq', hl⟩ := hf.leaveRx hq
    have hstep := BusyStep.ext0 (s := f.apply s) b rest' ho hp hq'
    rw [hl] at hstep
    exact hstep
  | ext1 b rest ho hp hq =>
    obtain ⟨rest', hq', hl⟩ := hf.leaveRx hq
    have hstep := BusyStep.ext1 (s := f.apply s) b rest' ho hp hq'
    rw [hl] at hstep
    exact hstep
  | key0 b rest ho hp hq =>
    obtain ⟨rest', hq', hl⟩ := hf.leaveRx hq
    have hstep := BusyStep.key0 (s := f.apply s) b rest' ho hp hq'
    rw [hl] at hstep
    exact hstep
  | key1 b rest ho hp hq =>
    obtain ⟨rest', hq', hl⟩ := hf.leaveRx hq
    have hstep := BusyStep.key1 (s := f.apply s) b rest' ho hp hq'
    rw [hl] at hstep
    exact hstep
  | key2 b rest ho hp hq =>
    obtain ⟨rest', hq', hl⟩ := hf.leaveRx hq
    have hstep := BusyStep.key2 (s := f.apply s) b rest' ho hp hq'
    rw [hl] at hstep
    exact hstep
  | key3 b rest ho hp hq =>
    obtain ⟨rest', hq', hl⟩ := hf.leaveRx hq
    have hstep := BusyStep.key3 (s := f.apply s) b rest' ho hp hq'
    rw [hl] at hstep
    exact hstep
  | pay b rest ho hp hi hq =>
    obtain ⟨rest', hq', hl⟩ := hf.leaveRx hq
    have hstep := BusyStep.pay (s := f.apply s) b rest' ho hp hi hq'
    rw [hl, hf.appendHout] at hstep
    exact hstep
  | encPay b rest ho hp hi hq =>
    obtain ⟨rest', hq', hl⟩ := hf.leaveHin hq
    have hstep := BusyStep.encPay (s := f.apply s) b rest' ho hp hi hq'
    rw [hl, hf.appendTx] at hstep
    exact hstep
  | maskPay b rest ho hp hi hq =>
    obtain ⟨rest', hq', hl⟩ := hf.leaveHin hq
    have hstep := BusyStep.maskPay (s := f.apply s) b rest' ho hp hi hq'
    rw [hl, hf.appendHout] at hstep
    exact hstep
  | b64Abs b rest ho hp hi hq =>
    obtain ⟨rest', hq', hl⟩ := hf.leaveHin hq
    have hstep := BusyStep.b64Abs (s := f.apply s) b rest' ho hp hi hq'
    rw [hl, hf.appendHout] at hstep
    exact hstep
  | shaAbs b rest ho hp hi hq =>
    obtain ⟨rest', hq', hl⟩ := hf.leaveHin hq
    have hstep := BusyStep.shaAbs (s := f.apply s) b rest' ho hp hi hq'
    rw [hl] at hstep
    exact hstep
  | accTok b rest ho hp hi hq =>
    obtain ⟨rest', hq', hl⟩ := hf.leaveHin hq
    have hstep := BusyStep.accTok (s := f.apply s) b rest' ho hp hi hq'
    rw [hl] at hstep
    exact hstep
  | encHdr7 ho hp h7 =>
    have hstep := BusyStep.encHdr7 (s := f.apply s) ho hp h7
    rw [hf.appendTx] at hstep
    exact hstep
  | encHdr16 ho hp h7 h16 =>
    have hstep := BusyStep.encHdr16 (s := f.apply s) ho hp h7 h16
    rw [hf.appendTx] at hstep
    exact hstep
  | shaOut ho hp hi =>
    have hstep := BusyStep.shaOut (s := f.apply s) ho hp hi
    rw [hf.appendHout] at hstep
    exact hstep
  | b64Fin ho hp =>
    have hstep := BusyStep.b64Fin (s := f.apply s) ho hp
    rw [hf.appendHout] at hstep
    exact hstep
  | accOut u out ho hp hu hout =>
    have hstep := BusyStep.accOut (s := f.apply s) u out ho hp hu hout
    rw [hf.appendHout] at hstep
    exact hstep
  | payDone ho hp hi => exact .payDone ho hp hi
  | encTooLong ho hp hl => exact .encTooLong ho hp hl
  | encDone ho hp hi => exact .encDone ho hp hi
  | maskDone ho hp hi => exact .maskDone ho hp hi
  | shaEnd ho hp hi => exact .shaEnd ho hp hi
  | shaFin ho hp =>
    have hstep : BusyStep (f.apply s) { f.apply s with sha := shaFinish s.sha, idx := 0, phase := .sOut } := .shaFin ho hp
    generalize shaFinish s.sha = u at hstep ⊢
    exact hstep
  | shaDone ho hp hi => exact .shaDone ho hp hi
  | b64End ho hp hi => exact .b64End ho hp hi
  | accEnd ho hp hi => exact .accEnd ho hp hi
  | accGuid ho hp => exact .accGuid ho hp
  | accFin ho hp =>
    have hstep : BusyStep (f.apply s) { f.apply s with sha := shaFinish s.sha, phase := .aOut } := .accFin ho hp
    generalize shaFinish s.sha = u at hstep ⊢
    exact hstep
  | illegalOp h0 hp => exact .illegalOp h0 hp

/-- The block's turn before or after the change is the same. -/
theorem blockStep_apply : blockStep (f.apply s) = mapNext f.apply (blockStep s) := by
  cases hs : s.state with
  | idle =>
    cases hc : s.cmds with
    | nil =>
      have hc' : (f.apply s).cmds = [] := (congrArg f.cmds hc).trans (hf.cmds.empty hs hc)
      rw [blockStep_rest hs hc, blockStep_rest (by exact hs) hc']
      rfl
    | cons w rest =>
      have hc' : (f.apply s).cmds = w :: f.cmds rest := (congrArg f.cmds hc).trans (hf.cmds.take hs w rest hc)
      rw [blockStep_idle hs hc, blockStep_idle (by exact hs) hc', exec_accepts (by exact hs), exec_accepts (by exact hs)]
      rfl
  | busy =>
    by_cases hp : s.phase ∈ phasesOf s.op
    · obtain ⟨t, ht⟩ := exists_busyStep hp
      rw [blockStep_of_busyStep hs hp ht, blockStep_of_busyStep (by exact hs) (by exact hp) (busyStep_apply hf ht)]
      rfl
    · rw [blockStep_broken hs hp, blockStep_broken (by exact hs) (by exact hp)]
      rfl
  | fault =>
    rw [blockStep_fault hs, blockStep_fault (by exact hs)]
    rfl

/-- With no turn scheduled, a step before or after the change is the same. -/
theorem step_apply (hs : s.sched = []) : step (f.apply s) = mapNext f.apply (step s) := by
  rw [step_nil hs, step_nil (by exact hs), blockStep_apply hf]

end

/-- Settles O58: each move is a `PortMap` that passes under the move's condition. -/
theorem environmentStepsCommute : Obligations.EnvironmentStepsCommute := by
  intro s b w hs
  have hrx := passesIn_id (needsRx s) s.rx
  have hhin := passesIn_id (needsHin s) s.hin
  have htx := passesOut_id s.tx
  have hhout := passesOut_id s.hout
  have hcmds := passesChannel_id s
  refine ⟨fun h => ⟨?_, ?_⟩, fun h => ⟨?_, ?_⟩, fun h => ?_, fun h => ?_, fun h => ?_⟩
  · exact step_apply (f := { rx := pushPort b }) ⟨passesIn_pushPort b h, hhin, htx, hhout, hcmds⟩ hs
  · exact step_apply (f := { rx := closePort }) ⟨passesIn_closePort h, hhin, htx, hhout, hcmds⟩ hs
  · exact step_apply (f := { hin := pushPort b }) ⟨hrx, passesIn_pushPort b h, htx, hhout, hcmds⟩ hs
  · exact step_apply (f := { hin := closePort }) ⟨hrx, passesIn_closePort h, htx, hhout, hcmds⟩ hs
  · exact step_apply (f := { tx := List.tail }) ⟨hrx, hhin, passesOut_tail h, hhout, hcmds⟩ hs
  · exact step_apply (f := { hout := List.tail }) ⟨hrx, hhin, htx, passesOut_tail h, hcmds⟩ hs
  · exact step_apply (f := { cmds := (· ++ [w]) }) ⟨hrx, hhin, htx, hhout, passesChannel_snoc w h⟩ hs

end Sys2Proof.Machine

/-! PROOFS. No state carries over from one command to the next (10_state.md section 8). Two blocks that differ in what
earlier commands left behind take the same word and then run alike: by phase, what the running command will still read of
those registers is the same in both. -/

namespace Sys2Proof.Machine

/-! ### What an earlier command leaves behind -/

/-- The registers an earlier command may have left anything in, and the output queues. -/
structure Leftovers where
  key  : Key
  hdr0 : Byte
  hdr1 : Byte
  plen : W16
  sha  : ShaUnit
  b64  : B64Unit
  tx   : List Byte
  hout : List Byte

def leftoversOf (s : State) : Leftovers :=
  { key := s.key, hdr0 := s.hdr0, hdr1 := s.hdr1, plen := s.plen, sha := s.sha, b64 := s.b64, tx := s.tx, hout := s.hout }

/-- `s` with other leftovers. -/
def withLeftovers (k : Leftovers) (s : State) : State :=
  { s with key := k.key, hdr0 := k.hdr0, hdr1 := k.hdr1, plen := k.plen, sha := k.sha, b64 := k.b64, tx := k.tx,
           hout := k.hout }

/-! ### Units that were fed the same -/

/-- Two SHA-1 units that were fed the same message since their init (43_sha1.md R163); what stands in `BLK` behind the
fill may differ. -/
def ShaAlike (u v : ShaUnit) : Prop := (∃ p, Streamed shaIV p u ∧ Streamed shaIV p v) ∧ u.mlen = v.mlen

theorem shaAlike_shaInit (u v : ShaUnit) : ShaAlike (shaInit u) (shaInit v) :=
  ⟨⟨[], streamed_shaInit u, streamed_shaInit v⟩, rfl⟩

theorem ShaAlike.absorbAll {u v : ShaUnit} (h : ShaAlike u v) (bs : List Byte) :
    ShaAlike (absorbAll bs u) (absorbAll bs v) := by
  obtain ⟨⟨p, hu, hv⟩, hm⟩ := h
  exact ⟨⟨p ++ bs, streamed_absorbAll bs hu, streamed_absorbAll bs hv⟩, by rw [absorbAll_mlen, absorbAll_mlen, hm]⟩

theorem ShaAlike.absorb {u v : ShaUnit} (h : ShaAlike u v) (b : Byte) : ShaAlike (absorb b u) (absorb b v) :=
  h.absorbAll [b]

/-- Finishing gives both the same digest (R168). -/
theorem ShaAlike.shaFinish_h {u v : ShaUnit} (h : ShaAlike u v) : (shaFinish u).h = (shaFinish v).h := by
  obtain ⟨⟨p, hu, hv⟩, hm⟩ := h
  rw [Machine.shaFinish_h hu, Machine.shaFinish_h hv, bfill_of_streamed hu, bfill_of_streamed hv, hm]

/-- Two base64 units that hold the same bytes of a group (44_base64.md R191); what stands in `G` behind the fill may
differ. -/
inductive B64Alike (u v : B64Unit) : Prop where
  | zero : u.gfill = 0 → v.gfill = 0 → B64Alike u v
  | one : u.gfill = 1 → v.gfill = 1 → u.g0 = v.g0 → B64Alike u v
  | two : u.gfill = 2 → v.gfill = 2 → u.g0 = v.g0 → u.g1 = v.g1 → B64Alike u v

/-- Fed one more byte, they put out the same and hold the same. -/
theorem B64Alike.b64Feed {u v : B64Unit} (h : B64Alike u v) (b : Byte) :
    (b64Feed b u).2 = (b64Feed b v).2 ∧ B64Alike (b64Feed b u).1 (b64Feed b v).1 := by
  cases h with
  | zero hu hv =>
    rw [b64Feed_of_gfill_zero b hu, b64Feed_of_gfill_zero b hv]
    exact ⟨rfl, .one rfl rfl rfl⟩
  | one hu hv h0 =>
    rw [b64Feed_of_gfill_one b hu, b64Feed_of_gfill_one b hv]
    exact ⟨rfl, .two rfl rfl h0 rfl⟩
  | two hu hv h0 h1 =>
    rw [b64Feed_of_gfill_two b hu, b64Feed_of_gfill_two b hv, h0, h1]
    exact ⟨rfl, .zero rfl rfl⟩

theorem B64Alike.b64Tail {u v : B64Unit} (h : B64Alike u v) : b64Tail u = b64Tail v := by
  cases h with
  | zero hu hv => simp [Machine.b64Tail, hu, hv]
  | one hu hv h0 => simp [Machine.b64Tail, hu, hv, h0]
  | two hu hv h0 h1 => simp [Machine.b64Tail, hu, hv, h0, h1]

/-! ### What the running command will still read -/

/-- In phase `p`, what the running command reads of the leftovers before it writes it is the same in `k` and `l`. -/
def SameRead (p : Phase) (k l : Leftovers) : Prop :=
  match p with
  | .dExt0 | .dExt1 | .dKey0 => k.plen = l.plen
  | .dKey1 => k.plen = l.plen ∧ k.key.k0 = l.key.k0
  | .dKey2 => k.plen = l.plen ∧ k.key.k0 = l.key.k0 ∧ k.key.k1 = l.key.k1
  | .dKey3 => k.plen = l.plen ∧ k.key.k0 = l.key.k0 ∧ k.key.k1 = l.key.k1 ∧ k.key.k2 = l.key.k2
  | .dPay => k.plen = l.plen ∧ k.key = l.key
  | .mPay => k.key = l.key
  | .sAbs | .sFin | .aTok | .aGuid | .aFin => ShaAlike k.sha l.sha
  | .sOut | .aOut => k.sha.h = l.sha.h
  | .bAbs | .bFin => B64Alike k.b64 l.b64
  | .pIdle | .dHdr0 | .dHdr1 | .eHdr | .ePay => True

/-- `SHA1` and `ACCEPT` set up the unit when they are taken (R163). -/
theorem accepted_sha_init {w : W72} (h : cmdOp w = 0x04 ∨ cmdOp w = 0x06) (s : State) :
    (accepted w s).sha = shaInit s.sha := if_pos h

/-- A command just taken reads nothing of the leftovers: it overwrites the key, or sets up its unit (R24, R163, R192). -/
theorem sameRead_accepted (w : W72) (s t : State) :
    SameRead (firstPhase (cmdOp w)) (leftoversOf (accepted w s)) (leftoversOf (accepted w t)) := by
  unfold firstPhase
  split_ifs with h1 h2 h3 h4 h5 h6
  · trivial
  · trivial
  · change (accepted w s).key = (accepted w t).key
    rw [accepted, accepted, if_pos h3, if_pos h3]
  · change ShaAlike (accepted w s).sha (accepted w t).sha
    rw [accepted_sha_init (.inl h4), accepted_sha_init (.inl h4)]
    exact shaAlike_shaInit s.sha t.sha
  · change B64Alike (accepted w s).b64 (accepted w t).b64
    rw [accepted, accepted, if_pos h5, if_pos h5]
    exact .zero rfl rfl
  · change ShaAlike (accepted w s).sha (accepted w t).sha
    rw [accepted_sha_init (.inr h6), accepted_sha_init (.inr h6)]
    exact shaAlike_shaInit s.sha t.sha
  · trivial

/-- Two queues grew by the same bytes: from `q` to `q'` and from `r` to `r'`. -/
def GrewAlike (q q' r r' : List Byte) : Prop := ∃ out, q' = q ++ out ∧ r' = r ++ out

theorem grewAlike_nil (q r : List Byte) : GrewAlike q q r r :=
  ⟨[], (List.append_nil q).symm, (List.append_nil r).symm⟩

theorem GrewAlike.trans {q q' q'' r r' r'' : List Byte} (h : GrewAlike q q' r r') (h' : GrewAlike q' q'' r' r'') :
    GrewAlike q q'' r r'' := by
  obtain ⟨out, rfl, rfl⟩ := h
  obtain ⟨out', rfl, rfl⟩ := h'
  exact ⟨out ++ out', List.append_assoc .., List.append_assoc ..⟩

/-- From `s`, and from `s` with the leftovers `k`, the block went on alike to `t`, and to `t` with the leftovers `l`. -/
structure WentAlike (k : Leftovers) (s : State) (l : Leftovers) (t : State) : Prop where
  read : SameRead t.phase (leftoversOf t) l
  tx   : GrewAlike s.tx t.tx k.tx l.tx
  hout : GrewAlike s.hout t.hout k.hout l.hout

theorem WentAlike.trans {k l m : Leftovers} {s t u : State} (h : WentAlike k s l t) (h' : WentAlike l t m u) :
    WentAlike k s m u := ⟨h'.read, h.tx.trans h'.tx, h.hout.trans h'.hout⟩

/-- A step without output. -/
theorem wentAlike_quiet {k l : Leftovers} {s t : State} (hread : SameRead t.phase (leftoversOf t) l)
    (htx : t.tx = s.tx := by rfl) (hhout : t.hout = s.hout := by rfl) (hktx : l.tx = k.tx := by rfl)
    (hkhout : l.hout = k.hout := by rfl) : WentAlike k s l t where
  read := hread
  tx := by rw [htx, hktx]; exact grewAlike_nil ..
  hout := by rw [hhout, hkhout]; exact grewAlike_nil ..

/-- A phase needs a byte of `RX` or not, whatever the leftovers. -/
theorem needsRx_withLeftovers {s : State} {k : Leftovers} (hr : SameRead s.phase (leftoversOf s) k) :
    needsRx (withLeftovers k s) = needsRx s := by
  unfold needsRx
  cases hp : s.phase <;> rw [show (withLeftovers k s).phase = _ from hp]
  rw [hp] at hr
  obtain ⟨hplen, -⟩ := hr
  change (s.idx != k.plen.setWidth 32) = _
  rw [← hplen]
  rfl

/-- A header byte latched in a step that does not leave its phase. -/
theorem sameRead_header {p : Phase} (h : p = .dHdr0 ∨ p = .dHdr1) (k l : Leftovers) : SameRead p k l := by
  rcases h with rfl | rfl <;> trivial

theorem key_set_k3 {a b : Key} (h0 : a.k0 = b.k0) (h1 : a.k1 = b.k1) (h2 : a.k2 = b.k2) (c : Byte) :
    { a with k3 := c } = { b with k3 := c } := by
  rw [h0, h1, h2]

/-- Every transition is one with other leftovers too, to the next state with other leftovers. -/
theorem busyStep_withLeftovers {s t : State} {k : Leftovers} (hr : SameRead s.phase (leftoversOf s) k)
    (h : BusyStep s t) : ∃ l, BusyStep (withLeftovers k s) (withLeftovers l t) ∧ WentAlike k s l t := by
  have hread := hr
  cases h with
  | rxShort hn hq hc => exact ⟨k, .rxShort ((needsRx_withLeftovers hr).trans hn) hq hc, wentAlike_quiet hr⟩
  | rxHold hn hq hc => exact ⟨k, .rxHold ((needsRx_withLeftovers hr).trans hn) hq hc, wentAlike_quiet hr⟩
  | hinShort hn hq hc => exact ⟨k, .hinShort hn hq hc, wentAlike_quiet hr⟩
  | hinHold hn hq hc => exact ⟨k, .hinHold hn hq hc, wentAlike_quiet hr⟩
  | hdr0 b rest ho hp hq hs => exact ⟨{ k with hdr0 := b }, .hdr0 b rest ho hp hq hs, wentAlike_quiet trivial⟩
  | hdr0Bad b rest ho hp hq hs hn =>
    exact ⟨{ k with hdr0 := b }, .hdr0Bad b rest ho hp hq hs hn, wentAlike_quiet (sameRead_header (.inl hp) ..)⟩
  | hdr1Unmasked b rest ho hp hq hm =>
    exact ⟨{ k with hdr1 := b }, .hdr1Unmasked b rest ho hp hq hm, wentAlike_quiet (sameRead_header (.inr hp) ..)⟩
  | hdr1Short b rest ho hp hq hm h7 =>
    exact ⟨{ k with hdr1 := b, plen := (indOf b).setWidth 16 }, .hdr1Short b rest ho hp hq hm h7,
      wentAlike_quiet rfl⟩
  | hdr1Ext rest ho hp hq =>
    exact ⟨{ k with hdr1 := 0xFE, plen := 0 }, .hdr1Ext rest ho hp hq, wentAlike_quiet rfl⟩
  | hdr1Long rest ho hp hq =>
    exact ⟨{ k with hdr1 := 0xFF }, .hdr1Long rest ho hp hq, wentAlike_quiet (sameRead_header (.inr hp) ..)⟩
  | ext0 b rest ho hp hq =>
    rw [hp] at hread
    exact ⟨{ k with plen := setHi k.plen b }, .ext0 b rest ho hp hq, wentAlike_quiet (congrArg (setHi · b) hread)⟩
  | ext1 b rest ho hp hq =>
    rw [hp] at hread
    exact ⟨{ k with plen := setLo k.plen b }, .ext1 b rest ho hp hq, wentAlike_quiet (congrArg (setLo · b) hread)⟩
  | key0 b rest ho hp hq =>
    rw [hp] at hread
    exact ⟨{ k with key := { k.key with k0 := b } }, .key0 b rest ho hp hq, wentAlike_quiet ⟨hread, rfl⟩⟩
  | key1 b rest ho hp hq =>
    rw [hp] at hread
    obtain ⟨hplen, h0⟩ := hread
    exact ⟨{ k with key := { k.key with k1 := b } }, .key1 b rest ho hp hq, wentAlike_quiet ⟨hplen, h0, rfl⟩⟩
  | key2 b rest ho hp hq =>
    rw [hp] at hread
    obtain ⟨hplen, h0, h1⟩ := hread
    exact ⟨{ k with key := { k.key with k2 := b } }, .key2 b rest ho hp hq, wentAlike_quiet ⟨hplen, h0, h1, rfl⟩⟩
  | key3 b rest ho hp hq =>
    rw [hp] at hread
    obtain ⟨hplen, h0, h1, h2⟩ := hread
    exact ⟨{ k with key := { k.key with k3 := b } }, .key3 b rest ho hp hq,
      wentAlike_quiet ⟨hplen, key_set_k3 h0 h1 h2 b⟩⟩
  | pay b rest ho hp hi hq =>
    rw [hp] at hread
    obtain ⟨hplen, hkey⟩ : s.plen = k.plen ∧ s.key = k.key := hread
    rw [hplen] at hi
    exact ⟨{ k with hout := k.hout ++ [xorMask k.key s.idx b] }, .pay b rest ho hp hi hq, hr,
      grewAlike_nil .., ⟨_, rfl, congrArg (k.hout ++ [xorMask · s.idx b]) hkey.symm⟩⟩
  | payDone ho hp hi =>
    rw [hp] at hread
    obtain ⟨hplen, -⟩ : s.plen = k.plen ∧ s.key = k.key := hread
    rw [hplen] at hi
    exact ⟨k, .payDone ho hp hi, wentAlike_quiet trivial⟩
  | encTooLong ho hp hl => exact ⟨k, .encTooLong ho hp hl, wentAlike_quiet hr⟩
  | encHdr7 ho hp h7 =>
    exact ⟨{ k with tx := k.tx ++ _ }, .encHdr7 ho hp h7, trivial, ⟨_, rfl, rfl⟩, grewAlike_nil ..⟩
  | encHdr16 ho hp h7 h16 =>
    exact ⟨{ k with tx := k.tx ++ _ }, .encHdr16 ho hp h7 h16, trivial, ⟨_, rfl, rfl⟩, grewAlike_nil ..⟩
  | encPay b rest ho hp hi hq =>
    exact ⟨{ k with tx := k.tx ++ [b] }, .encPay b rest ho hp hi hq, hr, ⟨_, rfl, rfl⟩, grewAlike_nil ..⟩
  | encDone ho hp hi => exact ⟨k, .encDone ho hp hi, wentAlike_quiet trivial⟩
  | maskPay b rest ho hp hi hq =>
    rw [hp] at hread
    exact ⟨{ k with hout := k.hout ++ [xorMask k.key s.idx b] }, .maskPay b rest ho hp hi hq, hr,
      grewAlike_nil .., ⟨_, rfl, congrArg (k.hout ++ [xorMask · s.idx b]) (Eq.symm hread)⟩⟩
  | maskDone ho hp hi => exact ⟨k, .maskDone ho hp hi, wentAlike_quiet trivial⟩
  | shaAbs b rest ho hp hi hq =>
    rw [hp] at hread
    have habs : SameRead s.phase (leftoversOf { s with sha := absorb b s.sha }) { k with sha := absorb b k.sha } := by
      rw [hp]
      exact ShaAlike.absorb hread b
    exact ⟨{ k with sha := absorb b k.sha }, .shaAbs b rest ho hp hi hq, wentAlike_quiet habs⟩
  | shaEnd ho hp hi =>
    rw [hp] at hread
    exact ⟨k, .shaEnd ho hp hi, wentAlike_quiet hread⟩
  | shaFin ho hp =>
    rw [hp] at hread
    have hh := ShaAlike.shaFinish_h hread
    have hstep : BusyStep (withLeftovers k s) { withLeftovers k s with sha := shaFinish k.sha, idx := 0, phase := .sOut } :=
      .shaFin ho hp
    change (shaFinish s.sha).h = (shaFinish k.sha).h at hh
    generalize shaFinish s.sha = u, shaFinish k.sha = v at hh hstep ⊢
    exact ⟨{ k with sha := v }, hstep, wentAlike_quiet hh⟩
  | shaOut ho hp hi =>
    rw [hp] at hread
    exact ⟨{ k with hout := k.hout ++ [digestByte k.sha.h s.idx.toNat] }, .shaOut ho hp hi, hr, grewAlike_nil ..,
      ⟨_, rfl, congrArg (k.hout ++ [digestByte · s.idx.toNat]) (Eq.symm hread)⟩⟩
  | shaDone ho hp hi => exact ⟨k, .shaDone ho hp hi, wentAlike_quiet trivial⟩
  | b64Abs b rest ho hp hi hq =>
    rw [hp] at hread
    obtain ⟨hout, hnext⟩ : (b64Feed b s.b64).2 = (b64Feed b k.b64).2 ∧ B64Alike (b64Feed b s.b64).1 (b64Feed b k.b64).1 :=
      B64Alike.b64Feed hread b
    have hstep : BusyStep (withLeftovers k s) { leaveHin rest (withLeftovers k s) with
        b64 := (b64Feed b k.b64).1, idx := s.idx + 1, hout := k.hout ++ (b64Feed b k.b64).2,
        ocnt := s.ocnt + BitVec.ofNat 32 (b64Feed b k.b64).2.length } := .b64Abs b rest ho hp hi hq
    rw [← hout] at hstep
    have hread' : SameRead s.phase (leftoversOf { s with b64 := (b64Feed b s.b64).1 })
        { k with b64 := (b64Feed b k.b64).1 } := by
      rw [hp]
      exact hnext
    exact ⟨{ k with b64 := (b64Feed b k.b64).1, hout := k.hout ++ (b64Feed b s.b64).2 }, hstep, hread',
      grewAlike_nil .., ⟨_, rfl, rfl⟩⟩
  | b64End ho hp hi =>
    rw [hp] at hread
    exact ⟨k, .b64End ho hp hi, wentAlike_quiet hread⟩
  | b64Fin ho hp =>
    rw [hp] at hread
    have hout : b64Tail s.b64 = b64Tail k.b64 := B64Alike.b64Tail hread
    have hstep : BusyStep (withLeftovers k s) { withLeftovers k s with
        hout := k.hout ++ b64Tail k.b64, ocnt := s.ocnt + BitVec.ofNat 32 (b64Tail k.b64).length,
        state := .idle, phase := .pIdle } := .b64Fin ho hp
    rw [← hout] at hstep
    exact ⟨{ k with hout := k.hout ++ b64Tail s.b64 }, hstep, trivial, grewAlike_nil .., ⟨_, rfl, rfl⟩⟩
  | accTok b rest ho hp hi hq =>
    rw [hp] at hread
    have habs : SameRead s.phase (leftoversOf { s with sha := absorb b s.sha }) { k with sha := absorb b k.sha } := by
      rw [hp]
      exact ShaAlike.absorb hread b
    exact ⟨{ k with sha := absorb b k.sha }, .accTok b rest ho hp hi hq, wentAlike_quiet habs⟩
  | accEnd ho hp hi =>
    rw [hp] at hread
    exact ⟨k, .accEnd ho hp hi, wentAlike_quiet hread⟩
  | accGuid ho hp =>
    rw [hp] at hread
    exact ⟨{ k with sha := absorbAll guid k.sha }, .accGuid ho hp, wentAlike_quiet (ShaAlike.absorbAll hread guid)⟩
  | accFin ho hp =>
    rw [hp] at hread
    have hh := ShaAlike.shaFinish_h hread
    have hstep : BusyStep (withLeftovers k s) { withLeftovers k s with sha := shaFinish k.sha, phase := .aOut } :=
      .accFin ho hp
    change (shaFinish s.sha).h = (shaFinish k.sha).h at hh
    generalize shaFinish s.sha = u, shaFinish k.sha = v at hh hstep ⊢
    exact ⟨{ k with sha := v }, hstep, wentAlike_quiet hh⟩
  | accOut u out ho hp hu hout =>
    rw [hp] at hread
    have hh : s.sha.h = k.sha.h := hread
    rw [hu, b64FeedAll_append_tail _ (b64Init_gfill _), hh, ← b64FeedAll_append_tail _ (b64Init_gfill k.b64)] at hout
    generalize hv : (b64FeedAll (digestBytes k.sha.h) (b64Init k.b64)).1 = v at hout
    exact ⟨{ k with b64 := v, hout := k.hout ++ out }, .accOut v out ho hp hv.symm hout, trivial, grewAlike_nil ..,
      ⟨_, rfl, rfl⟩⟩
  | illegalOp h0 hp => exact ⟨k, .illegalOp h0 hp, wentAlike_quiet hr⟩

/-- The block's turn goes on alike with other leftovers. -/
theorem blockStep_withLeftovers {s t : State} {k : Leftovers} (hr : SameRead s.phase (leftoversOf s) k)
    (h : blockStep s = .next t) : ∃ l, blockStep (withLeftovers k s) = .next (withLeftovers l t) ∧ WentAlike k s l t := by
  have hstay : WentAlike k s k s := wentAlike_quiet hr
  rcases blockStep_cases h with ⟨hs, w, rest, hc, rfl⟩ | ⟨hs, hc, rfl⟩ | ⟨hs, hbs⟩ | ⟨hs, rfl⟩
  · refine ⟨leftoversOf (accepted w { withLeftovers k s with cmds := rest }), ?_, wentAlike_quiet (sameRead_accepted ..)⟩
    rw [blockStep_idle (by exact hs) (by exact hc), exec_accepts (by exact hs)]
    rfl
  · exact ⟨k, blockStep_rest (by exact hs) (by exact hc), hstay⟩
  · obtain ⟨l, hstep, hwent⟩ := busyStep_withLeftovers hr hbs
    have hp := phase_of_blockStep hs h
    exact ⟨l, blockStep_of_busyStep (by exact hs) (by exact hp) hstep, hwent⟩
  · exact ⟨k, blockStep_fault (by exact hs), hstay⟩

/-- With no turn scheduled there is none after the block's turn. -/
theorem sched_of_blockStep {s t : State} (hs : s.sched = []) (h : blockStep s = .next t) : t.sched = [] := by
  rcases blockStep_cases h with ⟨-, w, rest, -, rfl⟩ | ⟨-, -, rfl⟩ | ⟨-, hbs⟩ | ⟨-, rfl⟩
  · exact hs
  · exact hs
  · obtain ⟨hsched, -⟩ := busyStep_keeps hbs
    exact hsched.trans hs
  · exact hs

/-- A run that answers has a first step that answers, of any machine. -/
theorem core_run_succ_inv (M : Host.Core) {s t : M.State} {n : Nat} (h : M.run (n + 1) s = .next t) :
    ∃ u, M.step s = .next u ∧ M.run n u = .next t := by
  rw [Host.Core.run] at h
  split at h
  · rename_i u hu
    exact ⟨u, hu, h⟩
  · cases h
  · cases h

/-- Every run goes on alike with other leftovers. -/
theorem run_withLeftovers {s t : State} {k : Leftovers} {n : Nat} (hs : s.sched = [])
    (hr : SameRead s.phase (leftoversOf s) k) (h : Host.Core.run core n s = .next t) :
    ∃ l, Host.Core.run core n (withLeftovers k s) = .next (withLeftovers l t) ∧ WentAlike k s l t := by
  induction n generalizing s k with
  | zero =>
    cases eq_of_next h
    exact ⟨k, rfl, wentAlike_quiet hr⟩
  | succ n ih =>
    obtain ⟨u, hstep, hrun⟩ := core_run_succ_inv core h
    have hblock : blockStep s = .next u := (step_nil hs).symm.trans hstep
    obtain ⟨l, hblock', hwent⟩ := blockStep_withLeftovers hr hblock
    obtain ⟨m, hrun', hwent'⟩ := ih (sched_of_blockStep hs hblock) hwent.read hrun
    exact ⟨m, (run_succ ((step_nil (by exact hs)).trans hblock') n).trans hrun', hwent.trans hwent'⟩

/-- Two ready blocks with the same word, input and strap differ in their leftovers only, once they have taken it. -/
theorem accepted_withLeftovers {s s' : State} {w : W72} {rest : List W72} (h : Ready w rest s) (h' : Ready w rest s')
    (hrx : s.rx = s'.rx) (hhin : s.hin = s'.hin) (hstrap : s.strictHdr = s'.strictHdr) :
    accepted w { s' with cmds := rest } =
      withLeftovers (leftoversOf (accepted w { s' with cmds := rest })) (accepted w { s with cmds := rest }) := by
  obtain ⟨-, herr, -, hsched⟩ := h
  obtain ⟨-, herr', -, hsched'⟩ := h'
  simp only [withLeftovers, leftoversOf, accepted, herr, herr', hrx, hhin, hstrap, hsched, hsched']

/-- Settles O59: both blocks take the word, and from there the runs go on alike. -/
theorem noStateCarriesOver : Obligations.NoStateCarriesOver := by
  intro s s' t w rest n h h' hrx hhin hstrap hrun
  have hsame := accepted_withLeftovers h h' hrx hhin hstrap
  have hread := sameRead_accepted w { s with cmds := rest } { s' with cmds := rest }
  have ⟨_, _, _, hsched⟩ := h
  rw [run_succ (step_of_ready h)] at hrun
  obtain ⟨l, hrun', -, ⟨a, htx, htx'⟩, b, hhout, hhout'⟩ :=
    run_withLeftovers (s := accepted w { s with cmds := rest }) hsched hread hrun
  rw [← hsame, ← run_succ (step_of_ready h')] at hrun'
  exact ⟨withLeftovers l t, a, b, hrun', rfl, rfl, rfl, rfl, rfl, rfl, rfl, rfl, rfl, rfl, htx, htx', hhout, hhout'⟩

end Sys2Proof.Machine
